-- ==== Sys2Proof/Word.lean ====
section
/-! DEFINITION. The two bit widths the spec names (00_scope.md R9): a "byte" is 8 bits, a "word" is 32 bits. -/

namespace Sys2Proof

/-- A byte (R9). -/
abbrev Byte := BitVec 8

/-- A word: one register, one bus datum, one command word (R9). -/
abbrev Word := BitVec 32

end Sys2Proof
end

