-- ==== Sys2Proof/Syntax.lean ====
section
/-! DEFINITION. The commands of the block (30_encoding.md R56, R58) and the shape of a command word.
Commands carry no operand fields (R57), so every constructor is a bare name. -/

namespace Sys2Proof

/-- The fourteen commands, one constructor per row of spec/opcode_table.json (R58). -/
inductive Instr where
  /-- no operation (R87) -/
  | nop
  /-- clear the datapath state (R88) -/
  | clear
  /-- build the frequency table (R68) -/
  | hfreq
  /-- build the Huffman tree (R69) -/
  | hbuild
  /-- assign codes by traversal (R71) -/
  | hassign
  /-- concatenate the codes (R73) -/
  | hemit
  /-- pack the bits (R74) -/
  | hpack
  /-- unpack the bits (R75) -/
  | hunpack
  /-- walk the tree (R76) -/
  | hwalk
  /-- the Huffman encoder (R77) -/
  | hencode
  /-- the Huffman decoder (R78) -/
  | hdecode
  /-- one sliding-window match step (R83) -/
  | lzmatch
  /-- the LZ77 token encoder (R84) -/
  | lzencode
  /-- the LZ77 token decoder (R85) -/
  | lzdecode
  deriving DecidableEq, Repr

/-- The one format of a command word, CMD32 (R56). -/
structure Cmd32 where
  /-- bits 31:8, which must be 0 -/
  rsvd : BitVec 24
  /-- bits 7:0, which select the command -/
  opcode : BitVec 8
  deriving DecidableEq, Repr

/-- Why a command word is illegal (R59). -/
inductive IllegalReason where
  /-- the RSVD field is not 0 -/
  | rsvdNotZero
  /-- RSVD is 0 and the OPCODE is not in the opcode map -/
  | opcodeNotInMap
  deriving DecidableEq, Repr

/-- What decoding a command word gives (R60). -/
inductive Decoded where
  /-- a command -/
  | command (i : Instr)
  /-- an illegal word, kept whole because ERRINFO records it (R95) -/
  | illegal (w : Word) (why : IllegalReason)
  deriving DecidableEq, Repr

end Sys2Proof
end

