-- ==== Sys2Proof/WellFormed.lean ====
section
/-! DEFINITION. Which command words are legal, from the list of illegal ones in 30_encoding.md R59 (the
decoder is written from the table of R58 and the cases of R60 instead, so the two check each other).
A command has no operand (R57), so every term of `Instr` is well-formed; what can be ill-formed is a word. -/

namespace Sys2Proof

/-- The RSVD field is 0 (R56). -/
def Cmd32.rsvdZero (c : Cmd32) : Bool := c.rsvd == 0

/-- The OPCODE is in none of the ranges R59 lists as illegal: 0x02-0x0F, 0x17, 0x1A-0x1F, 0x23-0xFF. -/
def Cmd32.opcodeInMap (c : Cmd32) : Bool :=
  let op := c.opcode.toNat
  !((0x02 ≤ op && op ≤ 0x0F) || op == 0x17 || (0x1A ≤ op && op ≤ 0x1F) || (0x23 ≤ op && op ≤ 0xFF))

/-- A legal command word (R59). -/
def Cmd32.wf (c : Cmd32) : Bool := c.rsvdZero && c.opcodeInMap

end Sys2Proof
end

