-- ==== Sys2Proof/Decode.lean ====
section
/-! DEFINITION. Decoding a command word (30_encoding.md R60), total on all 2^32 words, and the encoder
from the opcode table of R58. -/

namespace Sys2Proof

/-- The fields of a command word (R56). -/
def Cmd32.ofWord (w : Word) : Cmd32 :=
  { rsvd := w.extractLsb' 8 24, opcode := w.extractLsb' 0 8 }

/-- The command word of two fields (R56). -/
def Cmd32.toWord (c : Cmd32) : Word := c.rsvd ++ c.opcode

/-- The cases of R60 on `w[7:0]`. -/
def decodeOpcode (op : BitVec 8) : Option Instr :=
  match op.toNat with
  | 0x00 => some .nop
  | 0x01 => some .clear
  | 0x10 => some .hfreq
  | 0x11 => some .hbuild
  | 0x12 => some .hassign
  | 0x13 => some .hemit
  | 0x14 => some .hpack
  | 0x15 => some .hunpack
  | 0x16 => some .hwalk
  | 0x18 => some .hencode
  | 0x19 => some .hdecode
  | 0x20 => some .lzmatch
  | 0x21 => some .lzencode
  | 0x22 => some .lzdecode
  | _ => none

/-- `decode` of R60: RSVD is tested first, then the OPCODE. -/
def decode (w : Word) : Decoded :=
  let c := Cmd32.ofWord w
  if c.rsvd ≠ 0 then .illegal w .rsvdNotZero
  else
    match decodeOpcode c.opcode with
    | some i => .command i
    | none => .illegal w .opcodeNotInMap

/-- The OPCODE of each command (the table of R58). -/
def opcodeOf : Instr → BitVec 8
  | .nop => 0x00
  | .clear => 0x01
  | .hfreq => 0x10
  | .hbuild => 0x11
  | .hassign => 0x12
  | .hemit => 0x13
  | .hpack => 0x14
  | .hunpack => 0x15
  | .hwalk => 0x16
  | .hencode => 0x18
  | .hdecode => 0x19
  | .lzmatch => 0x20
  | .lzencode => 0x21
  | .lzdecode => 0x22

/-- The command word of a command: RSVD = 0 and its OPCODE (R56, R58). -/
def encode (i : Instr) : Word := Cmd32.toWord { rsvd := 0, opcode := opcodeOf i }

/-- The command the decoder reads from the table's numbering of a row's bits.  A command word is one
32-bit word (R56), so the numbering is the word's own; a number that needs more bits is no word. -/
def decodeTableWord (_nbits w : Nat) : Option Instr :=
  if w < 2 ^ 32 then
    match decode (BitVec.ofNat 32 w) with
    | .command i => some i
    | .illegal _ _ => none
  else none

end Sys2Proof
end

