-- ==== Sys2Proof/Config.lean ====
section
/-! DEFINITION. What an implementation fixes (00_scope.md R6, R8) and the values the spec leaves free
(10_state.md R39, 70_reset_and_hazards.md R111, 93_implementation_defined.md U1-U3, U5). -/

namespace Sys2Proof

/-- The two OPEN parameters of R6, held so that every value of the type is a legal choice and no
illegal one can be written: `BASE` is a multiple of 2^28 on a 32-bit bus, so it is one of sixteen;
`BUF_MAX` runs from 1 to 2^24.  They stand in `State` as constants that no step changes, so that a
statement about every state is a statement about every BASE and BUF_MAX (assumption 1). -/
structure Params where
  /-- `BASE / 2^28` -/
  baseIndex : Fin 16
  /-- `BUF_MAX - 1` -/
  bufMaxPred : Fin (2 ^ 24)
  deriving DecidableEq, Repr

/-- `BASE`: the host-bus address of byte offset 0 of the block (R6, R46). -/
def Params.base (p : Params) : Nat := p.baseIndex.val * 2 ^ 28

/-- `BUF_MAX`: bytes in IN_MEM and in OUT_MEM (R6). -/
def Params.bufMax (p : Params) : Nat := p.bufMaxPred.val + 1

/-- `TOK_MAX = BUF_MAX`: token records in TOKMEM (R6, R8). -/
def Params.tokMax (p : Params) : Nat := p.bufMax

/-- `BIT_MAX = 8 * BUF_MAX`: entries in BITMEM (R6, R8). -/
def Params.bitMax (p : Params) : Nat := 8 * p.bufMax

/-- The parameters of `State.reset`: BUF_MAX is the value R6 suggests, 65536; BASE is 0, which is
this model's choice (DESIGN CHOICE, assumption 1). -/
def Params.suggested : Params := { baseIndex := 0, bufMaxPred := 65535 }

namespace Config

/-- `LEN_MAX`: the largest match length (R6). -/
def lenMax : Nat := 255

/-- FREE VALUE (R39, U1): what the n-th draw gives where a byte that nothing has written is read.
It has no body, so nothing can be proved of it (assumption 2). -/
opaque freeByte : Nat → Byte

/-- FREE VALUE (R39, U1): what the n-th draw gives where a BITMEM entry that nothing has written is
read (assumption 2). -/
opaque freeBit : Nat → Bool

/-- FREE VALUE (R111, U2): the word the n-th draw gives to a host read while BUSY (assumption 2). -/
opaque freeWord : Nat → Word

end Config

end Sys2Proof
end

