-- ==== Sys2Proof/Machine/State.lean ====
section
/-! DEFINITION. The state of the block (10_state.md), the errors a command can raise (60_exceptions.md R91,
R95), what the host can put on the block's pins (20_memory.md R40, 70_reset_and_hazards.md R106), and reset. -/

namespace Sys2Proof.Machine

/-! ## The pieces of state -/

/-- An internal memory: index and value pairs, indices strictly rising.  An index not listed is an
element that nothing has written since reset, which has no value of its own (R39). -/
abbrev Memory (α : Type) := List (Nat × α)

/-- The registers of the register page, in the order of their offsets (R14). -/
inductive Reg where
  | id | ctrl | status | cmd | inLen | outLen | bitLen | symCount | window | cursor | token
  | tokBytes | nodeCount | root | errInfo
  deriving DecidableEq, Repr

/-- An LZ77 token (30_encoding.md R62). -/
structure Token where
  /-- the backward distance to the start of the matched run -/
  offset : BitVec 16
  /-- the number of bytes copied -/
  length : BitVec 8
  /-- the literal byte appended after the run -/
  next : Byte
  deriving DecidableEq, Repr

/-- One entry of the node arena (R31).  The fields R31 fixes at 0 (`sym` of an internal node, `left`
and `right` of a leaf) are not stored; the host view reads them as 0. -/
inductive Node where
  /-- `kind` = 0: a byte value and its frequency -/
  | leaf (sym : Byte) (freq : BitVec 40)
  /-- `kind` = 1: the frequency and the two children's indices -/
  | internal (freq : BitVec 40) (left right : BitVec 9)
  deriving DecidableEq, Repr

/-- The all-zero entry (R31). -/
def Node.zero : Node := .leaf 0 0

/-- The `freq` field (R31). -/
def Node.freq : Node → BitVec 40
  | .leaf _ f => f
  | .internal f _ _ => f

/-- The error codes that are ever produced (R91); the reserved values 5-7 and 12-15 have no constructor. -/
inductive ErrCode where
  | none | emptyInput | corruptStream | invalidOffset | treeMismatch
  | illegalCommand | parameter | state | capacity
  deriving DecidableEq, Repr

/-- What a STATE error says is missing (R95). -/
inductive Missing where
  /-- TREE_VALID is 0 -/
  | tree
  /-- CODES_VALID is 0 -/
  | codes
  deriving DecidableEq, Repr

/-- A `raise E(info)` (R10, R91, R95): the error and what locates it. -/
inductive BlockError where
  /-- nothing to compress -/
  | emptyInput
  /-- the bit index p (HWALK), or the value of TOK_BYTES (LZDECODE) -/
  | corruptStream (at_ : Nat)
  /-- the token index t -/
  | invalidOffset (token : Nat)
  /-- the input byte index j (HEMIT), or the bit index p (HWALK) -/
  | treeMismatch (at_ : Nat)
  /-- the command word -/
  | illegalCommand (word : Word)
  /-- the register out of range -/
  | parameter (reg : Reg)
  /-- a tree or a code table is needed -/
  | state (what : Missing)
  /-- the input byte index j (HEMIT), or the token index t (LZDECODE) -/
  | capacity (at_ : Nat)
  deriving DecidableEq, Repr

/-- The stored fields of STATUS (R17).  BUSY is `State.inflight` being present, so it is not stored twice;
reserved bits read 0 and ignore writes, so they are not stored. -/
structure Status where
  /-- set at every completion -/
  done : Bool
  /-- set at the completion of a command that raised an error -/
  err : Bool
  /-- sticky: a host write was dropped because the block was BUSY -/
  ovr : Bool
  /-- the node arena holds a tree built by HBUILD -/
  treeValid : Bool
  /-- the code table was assigned from the current tree -/
  codesValid : Bool
  /-- ERRCODE, bits 11:8 -/
  errCode : ErrCode
  deriving DecidableEq, Repr

/-- The `resp` of a bus transaction (R40). -/
inductive Resp where
  | okay | error
  deriving DecidableEq, Repr

/-- What the bus port last answered (R40). -/
inductive BusResponse where
  /-- `MemRead` returned `(data, resp)` -/
  | read (data : Word) (resp : Resp)
  /-- `MemWrite` returned `resp` -/
  | write (resp : Resp)
  deriving DecidableEq, Repr

/-- What happens next at the block's boundary.  `State.pending` is a list of these: the host's
transactions and the reset input in program order, and between them the moments at which the core agent
takes its step, so that every interleaving R53 and R116 allow is some list (assumption 3). -/
inductive Event where
  /-- `MemRead(addr, 4)` (R40) -/
  | read (addr : Word)
  /-- `MemWrite(addr, 4, data, strb)` (R40) -/
  | write (addr data : Word) (strb : BitVec 4)
  /-- `rst` is asserted (R106) -/
  | assertReset
  /-- `rst` is released (R108) -/
  | releaseReset
  /-- the core agent takes its one step (R94) -/
  | coreTurn
  deriving DecidableEq, Repr

/-- The whole state of the block. -/
structure State where
  /-- BASE and BUF_MAX (R6): constants of the instance; no step changes them -/
  params : Params
  /-- CTRL.IRQ_EN (R16) -/
  irqEn : Bool
  /-- STATUS, but for BUSY (R17) -/
  status : Status
  /-- the latched command word while BUSY = 1 (R37, R93); STATUS.BUSY is its presence
  (DEDUCED, assumption 12) -/
  inflight : Option Word
  /-- IN_LEN (R19) -/
  inLen : Word
  /-- OUT_LEN (R20) -/
  outLen : Word
  /-- BIT_LEN (R21) -/
  bitLen : Word
  /-- SYM_COUNT (R22) -/
  symCount : Word
  /-- WINDOW.W (R23) -/
  window : BitVec 16
  /-- CURSOR (R24) -/
  cursor : Word
  /-- TOKEN (R25) -/
  token : Token
  /-- TOK_BYTES (R26) -/
  tokBytes : Word
  /-- NODE_COUNT (R27) -/
  nodeCount : BitVec 10
  /-- ROOT (R28) -/
  root : BitVec 9
  /-- ERRINFO (R29) -/
  errInfo : Word
  /-- FREQ, the frequency table (R30) -/
  freq : Vector Word 256
  /-- NODE, the node arena (R31) -/
  node : Vector Node 511
  /-- CODE, the code table: a bit string per symbol, first bit first; empty is "no entry" (R32) -/
  code : Vector (List Bool) 256
  /-- IN_MEM (R33) -/
  inMem : Memory Byte
  /-- OUT_MEM (R34) -/
  outMem : Memory Byte
  /-- TOKMEM (R35) -/
  tokMem : Memory Byte
  /-- BITMEM (R36) -/
  bitMem : Memory Bool
  /-- the reset input `rst` (R106, R108) -/
  rst : Bool
  /-- what the bus port answered last; `none` before the first answer since reset (R40; DESIGN
  CHOICE, assumption 11) -/
  response : Option BusResponse
  /-- MODEL'S OWN: what the host, the reset input and the scheduler do next (assumption 3) -/
  pending : List Event
  /-- MODEL'S OWN: how many free values have been drawn (assumption 2) -/
  draws : Nat
  deriving DecidableEq, Repr

/-! ## The outcomes of a step -/

/-- Why the machine stops with a fault: it never does.  "Nothing in the block is `stuck`: every command
completes (U4), and every transaction is answered" (93_implementation_defined.md), so the type has no
constructor and no step can fault.  SAFE or UNSAFE does not arise: nobody raises a fault (assumption 4).
An error of the block is no fault of the machine: it is a next state with STATUS.ERR set (R90, R94). -/
inductive Fault : Type
  deriving DecidableEq, Repr

/-- Why an instruction has no meaning in the model. -/
inductive Refusal where
  /-- An instruction this model has not reached; raised by `exec`'s arms alone, and by none of them now.
  SAFE: a refused instruction proves nothing about the block. -/
  | notModelled (mnemonic : String)
  deriving DecidableEq, Repr

/-- How the rule of a command ends: it reaches its end, or a `raise` stops it with what it has written
so far (R10, R90). -/
inductive CmdResult where
  | done (s : State)
  | raised (s : State) (e : BlockError)
  deriving DecidableEq, Repr

/-! ## Reset -/

/-- STATUS after reset (R17). -/
def Status.cleared : Status :=
  { done := false, err := false, ovr := false, treeValid := false, codesValid := false, errCode := .none }

/-- The block right after reset (R106): every register 0 (ID is a constant), the three tables empty, the
four memories unwritten, idle.  `params`, `pending` and `draws` are the model's (assumptions 1, 2, 3). -/
def State.reset : State where
  params := Params.suggested
  irqEn := false
  status := Status.cleared
  inflight := none
  inLen := 0
  outLen := 0
  bitLen := 0
  symCount := 0
  window := 0
  cursor := 0
  token := { offset := 0, length := 0, next := 0 }
  tokBytes := 0
  nodeCount := 0
  root := 0
  errInfo := 0
  freq := Vector.replicate 256 0
  node := Vector.replicate 511 Node.zero
  code := Vector.replicate 256 []
  inMem := []
  outMem := []
  tokMem := []
  bitMem := []
  rst := false
  response := none
  pending := []
  draws := 0

end Sys2Proof.Machine
end

