-- ==== Sys2Proof/Machine/Flags.lean ====
section
/-! DEFINITION. STATUS as the host reads and clears it (10_state.md R17), the numeric error codes
(60_exceptions.md R91) and the interrupt output (R97).  The block has no other flags (R17). -/

namespace Sys2Proof.Machine

/-- STATUS.BUSY: a command is in flight (R17, R53). -/
def State.busy (s : State) : Bool := s.inflight.isSome

/-- The numeric value of ERRCODE (R91). -/
def ErrCode.toBits : ErrCode → BitVec 4
  | .none => 0
  | .emptyInput => 1
  | .corruptStream => 2
  | .invalidOffset => 3
  | .treeMismatch => 4
  | .illegalCommand => 8
  | .parameter => 9
  | .state => 10
  | .capacity => 11

/-- The error code of a `raise` (R91). -/
def BlockError.code : BlockError → ErrCode
  | .emptyInput => .emptyInput
  | .corruptStream _ => .corruptStream
  | .invalidOffset _ => .invalidOffset
  | .treeMismatch _ => .treeMismatch
  | .illegalCommand _ => .illegalCommand
  | .parameter _ => .parameter
  | .state _ => .state
  | .capacity _ => .capacity

/-- The STATUS word (R17): reserved bits read 0. -/
def State.statusWord (s : State) : Word :=
  0#20 ++ s.status.errCode.toBits ++ 0#2 ++ BitVec.ofBool s.status.codesValid ++ BitVec.ofBool s.status.treeValid
    ++ BitVec.ofBool s.status.ovr ++ BitVec.ofBool s.status.err ++ BitVec.ofBool s.status.done ++ BitVec.ofBool s.busy

/-- A host write to STATUS: a 1 in an enabled lane clears DONE, ERR or OVR; nothing else changes, ERRCODE
included (R17, R41).  This is also how the host acknowledges completion (R98). -/
def Status.writeOneToClear (st : Status) (data : Word) (strb : BitVec 4) : Status :=
  if strb.getLsbD 0 then
    { st with
      done := st.done && !data.getLsbD 1
      err := st.err && !data.getLsbD 2
      ovr := st.ovr && !data.getLsbD 3 }
  else st

/-- The level interrupt output (R97). -/
def State.irq (s : State) : Bool := s.irqEn && (s.status.done || s.status.err)

end Sys2Proof.Machine
end

