-- ==== Sys2Proof/Machine/Ops.lean ====
section
/-! DEFINITION. The operations the commands share: the internal memories and their free values (10_state.md
R39), the node arena, bit and byte order (20_memory.md R45), and accepting, completing and acknowledging a
command (60_exceptions.md R93, R94, R98). -/

namespace Sys2Proof.Machine

/-! ## Internal memories (R10, R39) -/

/-- The value element `a` holds, if something has written it. -/
def Memory.get? {α : Type} : Memory α → Nat → Option α
  | [], _ => none
  | (b, v) :: m, a => if a = b then some v else Memory.get? m a

/-- `MEM[a] <- v`, keeping the indices strictly rising. -/
def Memory.write {α : Type} : Memory α → Nat → α → Memory α
  | [], a, v => [(a, v)]
  | (b, u) :: m, a, v =>
    if a < b then (a, v) :: (b, u) :: m
    else if a = b then (a, v) :: m
    else (b, u) :: Memory.write m a v

/-- `MEM[a + k] <- vs[k]` for every k in order. -/
def Memory.writeList {α : Type} (m : Memory α) (a : Nat) : List α → Memory α
  | [] => m
  | v :: vs => Memory.writeList (Memory.write m a v) (a + 1) vs

/-- The canonical form: indices strictly rising.  An unlisted element has no value (a read of it is a
fresh draw), so no listed value equals it. -/
abbrev Memory.wf {α : Type} (m : Memory α) : Prop := (m.map Prod.fst).Pairwise (· < ·)

/-- Every listed index is below `n`. -/
abbrev Memory.below {α : Type} (m : Memory α) (n : Nat) : Prop := ∀ c ∈ m, c.1 < n

/-- Read element `a` when `d` values have been drawn: its value, or the next draw of `free` where nothing
has written it (R39).  The second component is the count of draws afterwards. -/
def Memory.fetch {α : Type} (free : Nat → α) (m : Memory α) (a d : Nat) : α × Nat :=
  match m.get? a with
  | some v => (v, d)
  | none => (free d, d + 1)

/-- Read a byte of IN_MEM, OUT_MEM or TOKMEM (R39). -/
def readByte (m : Memory Byte) (a d : Nat) : Byte × Nat := m.fetch Config.freeByte a d

/-- Read an entry of BITMEM (R36, R39). -/
def readBit (m : Memory Bool) (a d : Nat) : Bool × Nat := m.fetch Config.freeBit a d

/-! ## The tables -/

/-- `FREQ[s]` (R30). -/
def freqAt (f : Vector Word 256) (sym : Byte) : Word := f[sym.toNat]

/-- `CODE[s]` (R32). -/
def codeAt (cs : Vector (List Bool) 256) (sym : Byte) : List Bool := cs[sym.toNat]

/-- `NODE[i]` (R31).  The arena ends at index 510; the one 9-bit index beyond it names no entry, and no
node HBUILD builds holds it (assumption 8). -/
def nodeAt (ns : Vector Node 511) (i : BitVec 9) : Node := ns[i.toNat]?.getD Node.zero

/-- An empty code table (R32). -/
def noCodes : Vector (List Bool) 256 := Vector.replicate 256 []

/-- A zero frequency table (R30). -/
def noCounts : Vector Word 256 := Vector.replicate 256 0

/-- An all-zero node arena (R31). -/
def noNodes : Vector Node 511 := Vector.replicate 511 Node.zero

/-! ## Bit order inside a packed byte (R45): most significant bit first -/

/-- The byte whose stream bit m is `bit m`: stream bit m is byte bit 7 - m (R32, R74). -/
def packByte (bit : Nat → Bool) : Byte :=
  BitVec.ofBool (bit 0) ++ BitVec.ofBool (bit 1) ++ BitVec.ofBool (bit 2) ++ BitVec.ofBool (bit 3)
    ++ BitVec.ofBool (bit 4) ++ BitVec.ofBool (bit 5) ++ BitVec.ofBool (bit 6) ++ BitVec.ofBool (bit 7)

/-- Stream bit m of a byte: byte bit 7 - m (R75). -/
def streamBit (b : Byte) (m : Nat) : Bool := b.getLsbD (7 - m)

/-- The eight stream bits of a byte, first bit first (R75). -/
def unpackByte (b : Byte) : List Bool := (List.range 8).map (streamBit b)

/-! ## Acceptance, errors and completion -/

/-- The byte offset of a register in the register page (R14). -/
def Reg.offset : Reg → Nat
  | .id => 0x000
  | .ctrl => 0x004
  | .status => 0x008
  | .cmd => 0x00C
  | .inLen => 0x010
  | .outLen => 0x014
  | .bitLen => 0x018
  | .symCount => 0x01C
  | .window => 0x020
  | .cursor => 0x024
  | .token => 0x028
  | .tokBytes => 0x02C
  | .nodeCount => 0x030
  | .root => 0x034
  | .errInfo => 0x038

/-- What ERRINFO records of an error, zero-extended to 32 bits (R95). -/
def BlockError.info : BlockError → Word
  | .emptyInput => 0
  | .corruptStream n => BitVec.ofNat 32 n
  | .invalidOffset n => BitVec.ofNat 32 n
  | .treeMismatch n => BitVec.ofNat 32 n
  | .illegalCommand w => w
  | .parameter r => BitVec.ofNat 32 r.offset
  | .state .tree => 1
  | .state .codes => 2
  | .capacity n => BitVec.ofNat 32 n

/-- Acceptance of a command word (R93). -/
def State.accept (s : State) (w : Word) : State :=
  { s with
    status := { s.status with done := false, err := false, errCode := .none }
    errInfo := 0
    inflight := some w }

/-- TAKING AN ERROR: what completion records of a `raise` (R94, first two lines). -/
def State.recordError (s : State) (e : BlockError) : State :=
  { s with status := { s.status with err := true, errCode := e.code }, errInfo := e.info }

/-- The end of every command: DONE <- 1, BUSY <- 0 (R94, last two lines). -/
def State.finish (s : State) : State :=
  { s with status := { s.status with done := true }, inflight := none }

/-- Completion (R94): the rule's error, if it raised one, is recorded, then the command ends. -/
def complete : CmdResult → State
  | .done s => s.finish
  | .raised s e => (s.recordError e).finish

/-- The counterpart of a return from the error: the host writes to STATUS to acknowledge completion (R98).
Nothing is restored, because nothing was saved. -/
def State.acknowledge (s : State) (data : Word) (strb : BitVec 4) : State :=
  { s with status := s.status.writeOneToClear data strb }

/-- Run the next stage of a composite command on the state the earlier stages left; the first stage that
raises ends the command (R77). -/
def CmdResult.andThen (r : CmdResult) (stage : State → CmdResult) : CmdResult :=
  match r with
  | .done s => stage s
  | .raised s e => .raised s e

end Sys2Proof.Machine
end

