-- ==== Sys2Proof/Machine/Operands.lean ====
section
/-! DEFINITION. The operand registers and tables as words: how the host reads them and how a write with byte
strobes changes them (10_state.md R14-R32, 20_memory.md R41, R43), and the token record (30_encoding.md R62). -/

namespace Sys2Proof.Machine

/-! ## Byte lanes (R41, R43) -/

/-- Byte lane i of a word: bits 8i+7 down to 8i. -/
def lane (w : Word) (i : Nat) : Byte := w.extractLsb' (8 * i) 8

/-- The word of four lanes, lane 0 least significant. -/
def ofLanes (l0 l1 l2 l3 : Byte) : Word := l3 ++ l2 ++ l1 ++ l0

/-- `old` with the lanes the strobe enables taken from `data` (R41). -/
def mergeLanes (old data : Word) (strb : BitVec 4) : Word :=
  let pick (i : Nat) : Byte := if strb.getLsbD i then lane data i else lane old i
  ofLanes (pick 0) (pick 1) (pick 2) (pick 3)

/-! ## Tokens (R62) -/

/-- The token word (R62). -/
def Token.word (t : Token) : Word := t.next ++ t.length ++ t.offset

/-- The four bytes of a token record, lowest address first (R62). -/
def Token.bytes (t : Token) : List Byte :=
  [t.offset.extractLsb' 0 8, t.offset.extractLsb' 8 8, t.length, t.next]

/-- `TOK(t)`: the token of record t of TOKMEM, its four bytes read in order (R62, R39). -/
def readToken (m : Memory Byte) (t d : Nat) : Token × Nat :=
  let r0 := readByte m (4 * t) d
  let r1 := readByte m (4 * t + 1) r0.2
  let r2 := readByte m (4 * t + 2) r1.2
  let r3 := readByte m (4 * t + 3) r2.2
  ({ offset := r1.1 ++ r0.1, length := r2.1, next := r3.1 }, r3.2)

/-! ## The register page (R14) -/

/-- The register at a byte offset; every other offset of the page is unmapped (R14). -/
def Reg.ofOffset (off : Nat) : Option Reg :=
  match off with
  | 0x000 => some .id
  | 0x004 => some .ctrl
  | 0x008 => some .status
  | 0x00C => some .cmd
  | 0x010 => some .inLen
  | 0x014 => some .outLen
  | 0x018 => some .bitLen
  | 0x01C => some .symCount
  | 0x020 => some .window
  | 0x024 => some .cursor
  | 0x028 => some .token
  | 0x02C => some .tokBytes
  | 0x030 => some .nodeCount
  | 0x034 => some .root
  | 0x038 => some .errInfo
  | _ => none

/-- The constant ID reads as (R15). -/
def idWord : Word := 0x485A4301

/-- What a register reads as (R14-R29); reserved bits read 0, and CMD, which holds nothing, reads 0 (R18). -/
def State.regWord (s : State) : Reg → Word
  | .id => idWord
  | .ctrl => 0#31 ++ BitVec.ofBool s.irqEn
  | .status => s.statusWord
  | .cmd => 0
  | .inLen => s.inLen
  | .outLen => s.outLen
  | .bitLen => s.bitLen
  | .symCount => s.symCount
  | .window => s.window.setWidth 32
  | .cursor => s.cursor
  | .token => s.token.word
  | .tokBytes => s.tokBytes
  | .nodeCount => s.nodeCount.setWidth 32
  | .root => s.root.setWidth 32
  | .errInfo => s.errInfo

/-- A host write to a register, by lanes (R14, R41).  A write to CMD is a command issue with the lanes the
strobe does not enable taken as 0 (R18).  A write to a read-only register changes nothing (R41). -/
def State.writeReg (s : State) (r : Reg) (data : Word) (strb : BitVec 4) : State :=
  match r with
  | .ctrl => if strb.getLsbD 0 then { s with irqEn := data.getLsbD 0 } else s
  | .status => s.acknowledge data strb
  | .cmd => s.accept (mergeLanes 0 data strb)
  | .inLen => { s with inLen := mergeLanes s.inLen data strb }
  | .bitLen => { s with bitLen := mergeLanes s.bitLen data strb }
  | .symCount => { s with symCount := mergeLanes s.symCount data strb }
  | .window => { s with window := (mergeLanes (s.window.setWidth 32) data strb).setWidth 16 }
  | .cursor => { s with cursor := mergeLanes s.cursor data strb }
  | .tokBytes => { s with tokBytes := mergeLanes s.tokBytes data strb }
  | .id => s
  | .outLen => s
  | .token => s
  | .nodeCount => s
  | .root => s
  | .errInfo => s

/-! ## The tables' host views (R31, R32) -/

/-- Word k (byte offset 4k) of the host view of a node entry (R31). -/
def Node.viewWord (n : Node) (k : Nat) : Word :=
  match k with
  | 0 => n.freq.extractLsb' 0 32
  | 1 => 0#24 ++ n.freq.extractLsb' 32 8
  | 2 =>
    match n with
    | .leaf _ _ => 0
    | .internal _ l r => 0#7 ++ r ++ 0#7 ++ l
  | 3 =>
    match n with
    | .leaf sym _ => 0#16 ++ sym ++ 0#8
    | .internal _ _ _ => 1
  | _ => 0

/-- Byte b of the packed bits of a code: code bit 8b + m is its bit 7 - m; past the end the bits are 0 (R32). -/
def codeByte (c : List Bool) (b : Nat) : Byte := packByte (fun m => c.getD (8 * b + m) false)

/-- Word k (byte offset 4k) of the host view of a code entry (R32): the length in word 0, the packed bits in
the bytes from 0x20, lane order as R43; every other byte reads 0. -/
def codeViewWord (c : List Bool) (k : Nat) : Word :=
  if k = 0 then 0#24 ++ BitVec.ofNat 8 c.length
  else if k < 8 then 0
  else
    let b := 4 * (k - 8)
    ofLanes (codeByte c b) (codeByte c (b + 1)) (codeByte c (b + 2)) (codeByte c (b + 3))

end Sys2Proof.Machine
end

