-- ==== Sys2Proof/Machine/Bus.lean ====
section
/-! DEFINITION. The host's side of the block: the address map (20_memory.md R46), bus transactions (R40-R44,
R47), access while BUSY (70_reset_and_hazards.md R110-R112) and the reset input (R106-R108). -/

namespace Sys2Proof.Machine

/-- What a mapped word offset names (R46).  `word` counts the words of a table entry. -/
inductive Target where
  | reg (r : Reg)
  | freq (sym : Byte)
  | node (i : BitVec 9) (word : Nat)
  | code (sym : Byte) (word : Nat)
  | inMem (j : Nat)
  | outMem (j : Nat)
  | tokMem (j : Nat)
  | bitMem (j : Nat)
  deriving DecidableEq, Repr

/-- The address map, on an offset that is a multiple of 4 (R46).  `none` is unmapped (R42(b)). -/
def decodeOffset (p : Params) (off : Nat) : Option Target :=
  if off < 0x1000 then (Reg.ofOffset off).map Target.reg
  else if off < 0x1400 then some (.freq (BitVec.ofNat 8 ((off - 0x1000) / 4)))
  else if off < 0x2000 then none
  else if off < 0x3FF0 then
    some (.node (BitVec.ofNat 9 ((off - 0x2000) / 16)) ((off - 0x2000) % 16 / 4))
  else if off < 0x4000 then none
  else if off < 0x8000 then
    some (.code (BitVec.ofNat 8 ((off - 0x4000) / 64)) ((off - 0x4000) % 64 / 4))
  else if off < 0x01000000 then none
  else if off < 0x01000000 + p.bufMax then some (.inMem (off - 0x01000000))
  else if off < 0x02000000 then none
  else if off < 0x02000000 + p.bufMax then some (.outMem (off - 0x02000000))
  else if off < 0x04000000 then none
  else if off < 0x04000000 + 4 * p.tokMax then some (.tokMem (off - 0x04000000))
  else if off < 0x08000000 then none
  else if off < 0x08000000 + p.bitMax then some (.bitMem (off - 0x08000000))
  else none

/-- What a host transaction at `addr` reaches; `none` is answered ERROR (R42): misaligned, or outside the
block's range or its map. -/
def busTarget (p : Params) (addr : Word) : Option Target :=
  if addr.toNat % 4 ≠ 0 then none
  else if addr.toNat < p.base then none
  else decodeOffset p (addr.toNat - p.base)

/-- The targets a host reads as at any other time while BUSY (R111, R112). -/
def Target.readableWhileBusy : Target → Bool
  | .reg .id => true
  | .reg .ctrl => true
  | .reg .status => true
  | _ => false

/-- The targets a host writes as at any other time while BUSY: CTRL and STATUS alone (R110; that ID is not one of them
is DEDUCED, assumption 7). -/
def Target.writableWhileBusy : Target → Bool
  | .reg .ctrl => true
  | .reg .status => true
  | _ => false

/-! ## Reads -/

/-- The word view of a byte memory at index j (R43).  A lane past the memory's last byte (only IN_MEM and
OUT_MEM can have one) is a byte nothing has written, so it reads as a draw (DESIGN CHOICE, assumption 6). -/
def readLanes (m : Memory Byte) (j d : Nat) : Word × Nat :=
  let r0 := readByte m j d
  let r1 := readByte m (j + 1) r0.2
  let r2 := readByte m (j + 2) r1.2
  let r3 := readByte m (j + 3) r2.2
  (ofLanes r0.1 r1.1 r2.1 r3.1, r3.2)

/-- The byte a BITMEM entry reads as: 0x00 or 0x01 (R44). -/
def bitLane (b : Bool) : Byte := 0#7 ++ BitVec.ofBool b

/-- The word view of BITMEM at index j: one entry a lane (R44). -/
def readBitLanes (m : Memory Bool) (j d : Nat) : Word × Nat :=
  let r0 := readBit m j d
  let r1 := readBit m (j + 1) r0.2
  let r2 := readBit m (j + 2) r1.2
  let r3 := readBit m (j + 3) r2.2
  (ofLanes (bitLane r0.1) (bitLane r1.1) (bitLane r2.1) (bitLane r3.1), r3.2)

/-- The data of a read of a mapped word when the block is not BUSY, and the draws afterwards. -/
def State.readTarget (s : State) : Target → Word × Nat
  | .reg r => (s.regWord r, s.draws)
  | .freq sym => (freqAt s.freq sym, s.draws)
  | .node i k => ((nodeAt s.node i).viewWord k, s.draws)
  | .code sym k => (codeViewWord (codeAt s.code sym) k, s.draws)
  | .inMem j => readLanes s.inMem j s.draws
  | .outMem j => readLanes s.outMem j s.draws
  | .tokMem j => readLanes s.tokMem j s.draws
  | .bitMem j => readBitLanes s.bitMem j s.draws

/-- `MemRead(addr, 4)` (R40): ERROR with data 0 where nothing is mapped (R42); a fresh draw of anything but
ID, CTRL and STATUS while BUSY (R111); otherwise the item's word.  A read changes nothing else (R47). -/
def State.busRead (s : State) (addr : Word) : State :=
  match busTarget s.params addr with
  | none => { s with response := some (.read 0 .error) }
  | some t =>
    if s.busy && !t.readableWhileBusy then
      { s with response := some (.read (Config.freeWord s.draws) .okay), draws := s.draws + 1 }
    else
      let r := s.readTarget t
      { s with response := some (.read r.1 .okay), draws := r.2 }

/-! ## Writes -/

/-- Write lane i of a word write to a byte memory of `size` bytes at index j (R41).  A lane past the last byte
names no byte and stores nothing (DESIGN CHOICE, assumption 6). -/
def writeLane (size j : Nat) (data : Word) (strb : BitVec 4) (m : Memory Byte) (i : Nat) : Memory Byte :=
  if strb.getLsbD i ∧ j + i < size then m.write (j + i) (lane data i) else m

/-- A word write to a byte memory, lane by lane (R41, R43). -/
def writeLanes (size j : Nat) (data : Word) (strb : BitVec 4) (m : Memory Byte) : Memory Byte :=
  [0, 1, 2, 3].foldl (writeLane size j data strb) m

/-- Write lane i of a word write to BITMEM: bit 8i of the data; the lane's other bits are ignored (R44). -/
def writeBitLane (size j : Nat) (data : Word) (strb : BitVec 4) (m : Memory Bool) (i : Nat) : Memory Bool :=
  if strb.getLsbD i ∧ j + i < size then m.write (j + i) (data.getLsbD (8 * i)) else m

/-- A word write to BITMEM, lane by lane (R44). -/
def writeBitLanes (size j : Nat) (data : Word) (strb : BitVec 4) (m : Memory Bool) : Memory Bool :=
  [0, 1, 2, 3].foldl (writeBitLane size j data strb) m

/-- A write to a mapped word that the block does not drop (R41); NODE, CODE and OUT_MEM are read-only (R46). -/
def State.writeTarget (s : State) (t : Target) (data : Word) (strb : BitVec 4) : State :=
  match t with
  | .reg r => s.writeReg r data strb
  | .freq sym => { s with freq := s.freq.set sym.toNat (mergeLanes (freqAt s.freq sym) data strb) }
  | .node _ _ => s
  | .code _ _ => s
  | .inMem j => { s with inMem := writeLanes s.params.bufMax j data strb s.inMem }
  | .outMem _ => s
  | .tokMem j => { s with tokMem := writeLanes (4 * s.params.tokMax) j data strb s.tokMem }
  | .bitMem j => { s with bitMem := writeBitLanes s.params.bitMax j data strb s.bitMem }

/-- A write dropped because the block is BUSY sets OVR and changes no byte (R110). -/
def State.dropWrite (s : State) : State := { s with status := { s.status with ovr := true } }

/-- `MemWrite(addr, 4, data, strb)` (R40): ERROR where nothing is mapped (R42); no effect at all with a zero
strobe (R41); dropped, with OVR set, while BUSY unless it is to CTRL or STATUS (R110); otherwise the write. -/
def State.busWrite (s : State) (addr data : Word) (strb : BitVec 4) : State :=
  match busTarget s.params addr with
  | none => { s with response := some (.write .error) }
  | some t =>
    if strb = 0 then { s with response := some (.write .okay) }
    else if s.busy && !t.writableWhileBusy then { s.dropWrite with response := some (.write .okay) }
    else { s.writeTarget t data strb with response := some (.write .okay) }

/-! ## The reset input -/

/-- `rst` is asserted: everything takes its reset value (R106), a command in flight is abandoned and the four
memories are unwritten again (R107, R39; DEDUCED, assumption 10).  The instance's parameters stay, and draws go on being
fresh. -/
def State.assertReset (s : State) : State :=
  { State.reset with params := s.params, pending := s.pending, draws := s.draws, rst := true }

/-- `rst` is released (R108). -/
def State.releaseReset (s : State) : State := { s with rst := false }

/-- A host transaction: not answered while `rst` is asserted (R108), and then lost (DESIGN CHOICE, assumption 9). -/
def State.hostRead (s : State) (addr : Word) : State :=
  if s.rst then { s with response := none } else s.busRead addr

/-- A host transaction: not answered, and without effect, while `rst` is asserted (R108), and
then lost (DESIGN CHOICE, assumption 9). -/
def State.hostWrite (s : State) (addr data : Word) (strb : BitVec 4) : State :=
  if s.rst then { s with response := none } else s.busWrite addr data strb

end Sys2Proof.Machine
end

