-- ==== Sys2Proof/Machine/Control.lean ====
section
/-! DEFINITION. The control commands (43_control.md): NOP and CLEAR, and the completion of an illegal command
word (30_encoding.md R59). -/

namespace Sys2Proof.Machine

/-- The Operation of NOP: nothing (R87). -/
def nopRule (s : State) : CmdResult := .done s

/-- NOP (R87). -/
def execNop (s : State) : Host.Outcome State Fault Refusal := .next (complete (nopRule s))

/-- The Operation of CLEAR (R88): the tables, their registers, the validity bits and the listed operand
registers take their reset values; CTRL, WINDOW, OVR and the four memories are left. -/
def clearRule (s : State) : CmdResult :=
  .done
    { s with
      freq := noCounts
      code := noCodes
      node := noNodes
      nodeCount := 0
      root := 0
      status := { s.status with treeValid := false, codesValid := false }
      inLen := 0
      outLen := 0
      bitLen := 0
      symCount := 0
      cursor := 0
      token := { offset := 0, length := 0, next := 0 }
      tokBytes := 0 }

/-- CLEAR (R88). -/
def execClear (s : State) : Host.Outcome State Fault Refusal := .next (complete (clearRule s))

/-- An illegal command word completes with ILLEGAL_COMMAND, ERRINFO the word, and changes nothing else (R59). -/
def execIllegal (w : Word) (s : State) : Host.Outcome State Fault Refusal :=
  .next (complete (.raised s (.illegalCommand w)))

end Sys2Proof.Machine
end

