-- ==== Sys2Proof/Machine/HuffmanTree.lean ====
section
/-! DEFINITION. The frequency table, the tree builder and the code assigner (40_huffman_tree.md). -/

namespace Sys2Proof.Machine

/-! ## HFREQ (R68) -/

/-- `FREQ[s] <- FREQ[s] + 1`. -/
def bumpCount (f : Vector Word 256) (sym : Byte) : Vector Word 256 :=
  f.set sym.toNat (freqAt f sym + 1)

/-- The counting loop of R68 over `k` bytes of IN_MEM from index `j`. -/
def countBytes (m : Memory Byte) : (k j : Nat) → Vector Word 256 → (d : Nat) → Vector Word 256 × Nat
  | 0, _, f, d => (f, d)
  | k + 1, j, f, d =>
    let r := readByte m j d
    countBytes m k (j + 1) (bumpCount f r.1) r.2

/-- Checks and Operation of HFREQ (R68). -/
def hfreqRule (s : State) : CmdResult :=
  if s.params.bufMax < s.inLen.toNat then .raised s (.parameter .inLen)
  else if s.inLen = 0 then .raised s .emptyInput
  else
    let r := countBytes s.inMem s.inLen.toNat 0 noCounts s.draws
    .done { s with freq := r.1, draws := r.2 }

/-- HFREQ (R68). -/
def execHfreq (s : State) : Host.Outcome State Fault Refusal := .next (complete (hfreqRule s))

/-! ## HBUILD (R66, R69) -/

/-- The leaves for the counts of symbols `sym`, `sym + 1`, ...: one for each non-zero count, in ascending byte
value (R69). -/
def leavesFrom : (sym : Nat) → List Word → List Node
  | _, [] => []
  | sym, f :: fs =>
    if f = 0 then leavesFrom (sym + 1) fs
    else .leaf (BitVec.ofNat 8 sym) (f.setWidth 40) :: leavesFrom (sym + 1) fs

/-- The frequency of entry i of an arena under construction. -/
def freqOfNode (ns : List Node) (i : Nat) : BitVec 40 := (ns.getD i Node.zero).freq

/-- The extraction order of R66: the key (freq, index), lowest first. -/
def keyLt (ns : List Node) (i j : Nat) : Bool :=
  decide (freqOfNode ns i < freqOfNode ns j) || (freqOfNode ns i == freqOfNode ns j && decide (i < j))

/-- The index with the least key among `best` and the queue `q` (R66). -/
def leastKey (ns : List Node) : (best : Nat) → (q : List Nat) → Nat
  | best, [] => best
  | best, i :: q => leastKey ns (if keyLt ns i best then i else best) q

/-- A pop: the index with the least key and the queue without it; nothing from an empty queue (R66). -/
def popLeast (ns : List Node) : (q : List Nat) → Option (Nat × List Nat)
  | [] => none
  | i :: q =>
    let a := leastKey ns i q
    some (a, (i :: q).erase a)

/-- The merge loop of R69.  `ns` is the arena so far, so its length is `nxt`; the first bound is the number
of passes left, and each pass takes one entry from the queue. -/
def mergeLoop : (passes : Nat) → (q : List Nat) → (ns : List Node) → List Node
  | 0, _, ns => ns
  | passes + 1, q, ns =>
    match popLeast ns q with
    | none => ns
    | some (a, q1) =>
      match popLeast ns q1 with
      | none => ns
      | some (b, q2) =>
        mergeLoop passes (q2 ++ [ns.length])
          (ns ++ [.internal (freqOfNode ns a + freqOfNode ns b) (BitVec.ofNat 9 a) (BitVec.ofNat 9 b)])

/-- The nodes of the tree of a frequency table, leaves first, then merged nodes in creation order (R69). -/
def buildNodes (f : Vector Word 256) : List Node :=
  let ls := leavesFrom 0 f.toList
  mergeLoop ls.length (List.range ls.length) ls

/-- The 511-entry arena that starts with the given nodes; every other entry is zero (R69). -/
def arenaOf (ns : List Node) : Vector Node 511 :=
  ⟨(ns.take 511 ++ List.replicate (511 - ns.length) Node.zero).toArray, by simp; omega⟩

/-- Checks and Operation of HBUILD (R69). -/
def hbuildRule (s : State) : CmdResult :=
  let n := (leavesFrom 0 s.freq.toList).length
  if n = 0 then .raised s .emptyInput
  else
    .done
      { s with
        node := arenaOf (buildNodes s.freq)
        nodeCount := BitVec.ofNat 10 (2 * n - 1)
        root := BitVec.ofNat 9 (2 * n - 2)
        code := noCodes
        status := { s.status with treeValid := true, codesValid := false } }

/-- HBUILD (R69). -/
def execHbuild (s : State) : Host.Outcome State Fault Refusal := .next (complete (hbuildRule s))

/-! ## HASSIGN (R71) -/

/-- `CODE[s] <- path`. -/
def setCode (c : Vector (List Bool) 256) (sym : Byte) (path : List Bool) : Vector (List Bool) 256 :=
  c.set sym.toNat path

/-- `visit(i, path)` of R71: pre-order, left = 0, right = 1.  The first bound is the depth still allowed; in an
arena HBUILD built every child's index is below its parent's, so 511 is never used up (assumption 8). -/
def visit (ns : Vector Node 511) :
    (depth : Nat) → (i : BitVec 9) → (path : List Bool) → Vector (List Bool) 256 → Vector (List Bool) 256
  | 0, _, _, c => c
  | depth + 1, i, path, c =>
    match nodeAt ns i with
    | .leaf sym _ => setCode c sym path
    | .internal _ l r => visit ns depth r (path ++ [true]) (visit ns depth l (path ++ [false]) c)

/-- The code table of the tree at `root` (R71): the one-bit code "0" when the root is a leaf. -/
def assignCodes (ns : Vector Node 511) (root : BitVec 9) : Vector (List Bool) 256 :=
  match nodeAt ns root with
  | .leaf sym _ => setCode noCodes sym [false]
  | .internal _ _ _ => visit ns 511 root [] noCodes

/-- Checks and Operation of HASSIGN (R71). -/
def hassignRule (s : State) : CmdResult :=
  if s.status.treeValid = false then .raised s (.state .tree)
  else
    .done { s with code := assignCodes s.node s.root, status := { s.status with codesValid := true } }

/-- HASSIGN (R71). -/
def execHassign (s : State) : Host.Outcome State Fault Refusal := .next (complete (hassignRule s))

end Sys2Proof.Machine
end

