-- ==== Sys2Proof/Machine/HuffmanBits.lean ====
section
/-! DEFINITION. The Huffman bit stream: HEMIT, HPACK, HUNPACK, HWALK and the composites HENCODE and HDECODE
(41_huffman_bits.md). -/

namespace Sys2Proof.Machine

/-! ## HEMIT (R73) -/

/-- Where the loop of HEMIT stands: the error it raised, if any, the next bit position, BITMEM, the draws. -/
structure Emitted where
  error : Option BlockError
  pos : Nat
  bits : Memory Bool
  draws : Nat
  deriving DecidableEq, Repr

/-- The loop of R73 over `k` input bytes from index `j`, at bit position `p`. -/
def emitLoop (bitMax : Nat) (codes : Vector (List Bool) 256) (m : Memory Byte) :
    (k j p : Nat) → (bits : Memory Bool) → (d : Nat) → Emitted
  | 0, _, p, bits, d => { error := none, pos := p, bits := bits, draws := d }
  | k + 1, j, p, bits, d =>
    let r := readByte m j d
    let c := codeAt codes r.1
    if c.length = 0 then { error := some (.treeMismatch j), pos := p, bits := bits, draws := r.2 }
    else if bitMax < p + c.length then { error := some (.capacity j), pos := p, bits := bits, draws := r.2 }
    else emitLoop bitMax codes m k (j + 1) (p + c.length) (bits.writeList p c) r.2

/-- Checks and Operation of HEMIT (R73); an execution error leaves BIT_LEN = 0 (R92). -/
def hemitRule (s : State) : CmdResult :=
  if s.params.bufMax < s.inLen.toNat then .raised s (.parameter .inLen)
  else if s.status.codesValid = false then .raised s (.state .codes)
  else if s.inLen = 0 then .raised s .emptyInput
  else
    let r := emitLoop s.params.bitMax s.code s.inMem s.inLen.toNat 0 0 s.bitMem s.draws
    match r.error with
    | some e => .raised { s with bitMem := r.bits, draws := r.draws, bitLen := 0 } e
    | none => .done { s with bitMem := r.bits, draws := r.draws, bitLen := BitVec.ofNat 32 r.pos }

/-- HEMIT (R73). -/
def execHemit (s : State) : Host.Outcome State Fault Refusal := .next (complete (hemitRule s))

/-! ## HPACK (R74) -/

/-- Read `k` entries of BITMEM from index `q`, in order. -/
def readBits (bits : Memory Bool) : (k q d : Nat) → List Bool × Nat
  | 0, _, d => ([], d)
  | k + 1, q, d =>
    let r := readBit bits q d
    let rest := readBits bits k (q + 1) r.2
    (r.1 :: rest.1, rest.2)

/-- The loop of R74 over `k` output bytes from index `j`: stream bits at or past BIT_LEN count as 0. -/
def packLoop (bits : Memory Bool) (bitLen : Nat) :
    (k j : Nat) → (out : Memory Byte) → (d : Nat) → Memory Byte × Nat
  | 0, _, out, d => (out, d)
  | k + 1, j, out, d =>
    let r := readBits bits (min 8 (bitLen - 8 * j)) (8 * j) d
    packLoop bits bitLen k (j + 1) (out.write j (packByte (fun m => r.1.getD m false))) r.2

/-- Checks and Operation of HPACK (R74). -/
def hpackRule (s : State) : CmdResult :=
  if s.params.bitMax < s.bitLen.toNat then .raised s (.parameter .bitLen)
  else
    let n := (s.bitLen.toNat + 7) / 8
    let r := packLoop s.bitMem s.bitLen.toNat n 0 s.outMem s.draws
    .done { s with outMem := r.1, draws := r.2, outLen := BitVec.ofNat 32 n }

/-- HPACK (R74). -/
def execHpack (s : State) : Host.Outcome State Fault Refusal := .next (complete (hpackRule s))

/-! ## HUNPACK (R75) -/

/-- The loop of R75 over `k` input bytes from index `j`. -/
def unpackLoop (m : Memory Byte) : (k j : Nat) → (bits : Memory Bool) → (d : Nat) → Memory Bool × Nat
  | 0, _, bits, d => (bits, d)
  | k + 1, j, bits, d =>
    let r := readByte m j d
    unpackLoop m k (j + 1) (bits.writeList (8 * j) (unpackByte r.1)) r.2

/-- Checks and Operation of HUNPACK (R75). -/
def hunpackRule (s : State) : CmdResult :=
  if s.params.bufMax < s.inLen.toNat then .raised s (.parameter .inLen)
  else
    let r := unpackLoop s.inMem s.inLen.toNat 0 s.bitMem s.draws
    .done { s with bitMem := r.1, draws := r.2, bitLen := BitVec.ofNat 32 (8 * s.inLen.toNat) }

/-- HUNPACK (R75). -/
def execHunpack (s : State) : Host.Outcome State Fault Refusal := .next (complete (hunpackRule s))

/-! ## HWALK (R76) -/

/-- Where the walk stands: the error it raised, if any, the next bit position, OUT_MEM, the draws. -/
structure Walked where
  error : Option BlockError
  pos : Nat
  out : Memory Byte
  draws : Nat
  deriving DecidableEq, Repr

/-- The inner loop of R76 from node i with `left` bits unread: the leaf's byte, or nothing when the bits run
out at an internal node; then the bit position and the draws. -/
def walkDown (ns : Vector Node 511) (bits : Memory Bool) :
    (left : Nat) → (i : BitVec 9) → (p d : Nat) → Option Byte × Nat × Nat
  | 0, i, p, d =>
    match nodeAt ns i with
    | .leaf sym _ => (some sym, p, d)
    | .internal _ _ _ => (none, p, d)
  | left + 1, i, p, d =>
    match nodeAt ns i with
    | .leaf sym _ => (some sym, p, d)
    | .internal _ l r =>
      let b := readBit bits p d
      walkDown ns bits left (if b.1 then r else l) (p + 1) b.2

/-- The outer loop of R76 for `k` symbols from symbol `e`, in a tree whose root is internal. -/
def walkSymbols (ns : Vector Node 511) (root : BitVec 9) (bits : Memory Bool) (bitLen : Nat) :
    (k e p : Nat) → (out : Memory Byte) → (d : Nat) → Walked
  | 0, _, p, out, d => { error := none, pos := p, out := out, draws := d }
  | k + 1, e, p, out, d =>
    match walkDown ns bits (bitLen - p) root p d with
    | (some sym, p', d') => walkSymbols ns root bits bitLen k (e + 1) p' (out.write e sym) d'
    | (none, p', d') => { error := some (.corruptStream p'), pos := p', out := out, draws := d' }

/-- The loop of R76 in the degenerate tree: one bit 0 per symbol. -/
def walkOneLeaf (sym : Byte) (bits : Memory Bool) (bitLen : Nat) :
    (k e p : Nat) → (out : Memory Byte) → (d : Nat) → Walked
  | 0, _, p, out, d => { error := none, pos := p, out := out, draws := d }
  | k + 1, e, p, out, d =>
    if p = bitLen then { error := some (.corruptStream p), pos := p, out := out, draws := d }
    else
      let b := readBit bits p d
      if b.1 then { error := some (.treeMismatch p), pos := p, out := out, draws := b.2 }
      else walkOneLeaf sym bits bitLen k (e + 1) (p + 1) (out.write e sym) b.2

/-- Whether one of `k` entries of BITMEM from index `q` is 1, reading in order up to the first that is. -/
def anyOne (bits : Memory Bool) : (k q d : Nat) → Bool × Nat
  | 0, _, d => (false, d)
  | k + 1, q, d =>
    let b := readBit bits q d
    if b.1 then (true, b.2) else anyOne bits k (q + 1) b.2

/-- The end of R76: at most 7 bits may remain, and none of them may be 1. -/
def checkPadding (bits : Memory Bool) (bitLen : Nat) (w : Walked) : Walked :=
  if 7 < bitLen - w.pos then { w with error := some (.corruptStream w.pos) }
  else
    let z := anyOne bits (bitLen - w.pos) w.pos w.draws
    if z.1 then { w with error := some (.corruptStream w.pos), draws := z.2 } else { w with draws := z.2 }

/-- The symbols of R76, by the kind of the root. -/
def walkAll (s : State) : Walked :=
  match nodeAt s.node s.root with
  | .leaf sym _ => walkOneLeaf sym s.bitMem s.bitLen.toNat s.symCount.toNat 0 0 s.outMem s.draws
  | .internal _ _ _ => walkSymbols s.node s.root s.bitMem s.bitLen.toNat s.symCount.toNat 0 0 s.outMem s.draws

/-- The whole Operation of R76: the symbols, then, if none of them raised, the end check. -/
def walkThenCheck (s : State) : Walked :=
  let w := walkAll s
  match w.error with
  | some _ => w
  | none => checkPadding s.bitMem s.bitLen.toNat w

/-- Checks and Operation of HWALK (R76); an execution error leaves OUT_LEN = 0 (R92). -/
def hwalkRule (s : State) : CmdResult :=
  if s.params.bitMax < s.bitLen.toNat then .raised s (.parameter .bitLen)
  else if s.params.bufMax < s.symCount.toNat then .raised s (.parameter .symCount)
  else if s.symCount ≠ 0 ∧ s.status.treeValid = false then .raised s (.state .tree)
  else
    let w := walkThenCheck s
    match w.error with
    | some e => .raised { s with outMem := w.out, draws := w.draws, outLen := 0 } e
    | none => .done { s with outMem := w.out, draws := w.draws, outLen := s.symCount }

/-- HWALK (R76). -/
def execHwalk (s : State) : Host.Outcome State Fault Refusal := .next (complete (hwalkRule s))

/-! ## Composites (R77, R78) -/

/-- The stages of HENCODE in order: HFREQ, HBUILD, HASSIGN, HEMIT, HPACK (R77). -/
def hencodeRule (s : State) : CmdResult :=
  ((((hfreqRule s).andThen hbuildRule).andThen hassignRule).andThen hemitRule).andThen hpackRule

/-- HENCODE (R77). -/
def execHencode (s : State) : Host.Outcome State Fault Refusal := .next (complete (hencodeRule s))

/-- The stages of HDECODE in order: HUNPACK, HWALK (R78). -/
def hdecodeRule (s : State) : CmdResult := (hunpackRule s).andThen hwalkRule

/-- HDECODE (R78). -/
def execHdecode (s : State) : Host.Outcome State Fault Refusal := .next (complete (hdecodeRule s))

end Sys2Proof.Machine
end

