-- ==== Sys2Proof/Machine/Lz77.lean ====
section
/-! DEFINITION. The LZ77 matcher, token encoder and token decoder (42_lz77.md). -/

namespace Sys2Proof.Machine

/-! ## The matcher (R80-R83) -/

/-- The inner loop of R83: extend the match of candidate i at cursor c from length k, at most `room` bytes
more, over an input of n bytes (R81); the length reached and the draws. -/
def matchLength (m : Memory Byte) (n c i : Nat) : (room k d : Nat) → Nat × Nat
  | 0, k, d => (k, d)
  | room + 1, k, d =>
    if c + k + 1 < n then
      let x := readByte m (i + k) d
      let y := readByte m (c + k) x.2
      if x.1 = y.1 then matchLength m n c i room (k + 1) y.2 else (k, y.2)
    else (k, d)

/-- The best match so far: its length and offset, 0 and 0 before any (R82). -/
structure BestMatch where
  length : Nat
  offset : Nat
  deriving DecidableEq, Repr

/-- The scan of R83 over `k` candidates from index i, ascending; a candidate replaces the best only if it is
strictly longer (R82). -/
def scanWindow (m : Memory Byte) (n c : Nat) : (k i : Nat) → BestMatch → (d : Nat) → BestMatch × Nat
  | 0, _, best, d => (best, d)
  | k + 1, i, best, d =>
    let r := matchLength m n c i Config.lenMax 0 d
    scanWindow m n c k (i + 1) (if best.length < r.1 then { length := r.1, offset := c - i } else best) r.2

/-- What one step of the matcher finds: the token and how far the cursor moves. -/
structure Matched where
  token : Token
  cursor : Nat
  draws : Nat
  deriving DecidableEq, Repr

/-- The Operation of R83 at cursor c over an input of n bytes with window size `window`; the window starts at
max(0, c - W), which is `c - window` on naturals (R80). -/
def matchStep (m : Memory Byte) (n window c d : Nat) : Matched :=
  let first := c - window
  let r := scanWindow m n c (c - first) first { length := 0, offset := 0 } d
  let nx := readByte m (c + r.1.length) r.2
  { token := { offset := BitVec.ofNat 16 r.1.offset, length := BitVec.ofNat 8 r.1.length, next := nx.1 }
    cursor := c + r.1.length + 1
    draws := nx.2 }

/-- Checks and Operation of LZMATCH (R83). -/
def lzmatchRule (s : State) : CmdResult :=
  if s.params.bufMax < s.inLen.toNat then .raised s (.parameter .inLen)
  else if s.inLen = 0 then .raised s .emptyInput
  else if s.inLen.toNat ≤ s.cursor.toNat then .raised s (.parameter .cursor)
  else
    let r := matchStep s.inMem s.inLen.toNat s.window.toNat s.cursor.toNat s.draws
    .done { s with token := r.token, cursor := BitVec.ofNat 32 r.cursor, draws := r.draws }

/-- LZMATCH (R83). -/
def execLzmatch (s : State) : Host.Outcome State Fault Refusal := .next (complete (lzmatchRule s))

/-! ## LZENCODE (R84) -/

/-- Where the encoder stands: CURSOR, TOKEN, the number of tokens, TOKMEM, the draws. -/
structure Encoded where
  cursor : Nat
  token : Token
  count : Nat
  toks : Memory Byte
  draws : Nat
  deriving DecidableEq, Repr

/-- The loop of R84 while the cursor is below n; each pass moves the cursor, so `passes` = n is enough. -/
def encodeLoop (m : Memory Byte) (n window : Nat) : (passes : Nat) → Encoded → Encoded
  | 0, e => e
  | passes + 1, e =>
    if e.cursor < n then
      let r := matchStep m n window e.cursor e.draws
      encodeLoop m n window passes
        { cursor := r.cursor
          token := r.token
          count := e.count + 1
          toks := e.toks.writeList (4 * e.count) r.token.bytes
          draws := r.draws }
    else e

/-- Checks and Operation of LZENCODE (R84). -/
def lzencodeRule (s : State) : CmdResult :=
  if s.params.bufMax < s.inLen.toNat then .raised s (.parameter .inLen)
  else if s.inLen = 0 then .raised s .emptyInput
  else
    let r := encodeLoop s.inMem s.inLen.toNat s.window.toNat s.inLen.toNat
      { cursor := 0, token := s.token, count := 0, toks := s.tokMem, draws := s.draws }
    .done
      { s with
        cursor := BitVec.ofNat 32 r.cursor
        token := r.token
        tokMem := r.toks
        tokBytes := BitVec.ofNat 32 (4 * r.count)
        draws := r.draws }

/-- LZENCODE (R84). -/
def execLzencode (s : State) : Host.Outcome State Fault Refusal := .next (complete (lzencodeRule s))

/-! ## LZDECODE (R85) -/

/-- The copy of R85 and R113: byte by byte in ascending order, each byte read after the one before it was
written; then the draws (none are taken on bytes this command wrote). -/
def copyRun (off : Nat) : (len pos : Nat) → (out : Memory Byte) → (d : Nat) → Memory Byte × Nat
  | 0, _, out, d => (out, d)
  | len + 1, pos, out, d =>
    let r := readByte out (pos - off) d
    copyRun off len (pos + 1) (out.write pos r.1) r.2

/-- Where the reconstructor stands: the error it raised, if any, its output length L, OUT_MEM, the draws. -/
structure Reconstructed where
  error : Option BlockError
  length : Nat
  out : Memory Byte
  draws : Nat
  deriving DecidableEq, Repr

/-- The loop of R85 over `k` tokens from token t, with `pos` bytes (L) written so far. -/
def decodeLoop (bufMax : Nat) (toks : Memory Byte) :
    (k t pos : Nat) → (out : Memory Byte) → (d : Nat) → Reconstructed
  | 0, _, pos, out, d => { error := none, length := pos, out := out, draws := d }
  | k + 1, t, pos, out, d =>
    let r := readToken toks t d
    let off := r.1.offset.toNat
    let len := r.1.length.toNat
    if off = 0 ∧ len = 0 then
      if bufMax < pos + 1 then { error := some (.capacity t), length := pos, out := out, draws := r.2 }
      else decodeLoop bufMax toks k (t + 1) (pos + 1) (out.write pos r.1.next) r.2
    else if off = 0 ∨ pos < off then { error := some (.invalidOffset t), length := pos, out := out, draws := r.2 }
    else if bufMax < pos + len + 1 then { error := some (.capacity t), length := pos, out := out, draws := r.2 }
    else
      let c := copyRun off len pos out r.2
      decodeLoop bufMax toks k (t + 1) (pos + len + 1) (c.1.write (pos + len) r.1.next) c.2

/-- Checks and Operation of LZDECODE (R85); an execution error leaves OUT_LEN = 0 (R92). -/
def lzdecodeRule (s : State) : CmdResult :=
  if 4 * s.params.tokMax < s.tokBytes.toNat then .raised s (.parameter .tokBytes)
  else if s.tokBytes.toNat % 4 ≠ 0 then .raised s (.corruptStream s.tokBytes.toNat)
  else
    let r := decodeLoop s.params.bufMax s.tokMem (s.tokBytes.toNat / 4) 0 0 s.outMem s.draws
    match r.error with
    | some e => .raised { s with outMem := r.out, draws := r.draws, outLen := 0 } e
    | none => .done { s with outMem := r.out, draws := r.draws, outLen := BitVec.ofNat 32 r.length }

/-- LZDECODE (R85). -/
def execLzdecode (s : State) : Host.Outcome State Fault Refusal := .next (complete (lzdecodeRule s))

end Sys2Proof.Machine
end

