-- ==== Sys2Proof/Machine/Dispatch.lean ====
section
/-! DEFINITION. The meaning of each command (60_exceptions.md R94: the command's rule, then completion), one arm
per constructor. -/

namespace Sys2Proof.Machine

def exec (i : Instr) (s : State) : Host.Outcome State Fault Refusal :=
  match i with
  -- control (43_control.md)
  | .nop => Sys2Proof.Machine.execNop s
  | .clear => Sys2Proof.Machine.execClear s
  -- Huffman tables (40_huffman_tree.md)
  | .hfreq => Sys2Proof.Machine.execHfreq s
  | .hbuild => Sys2Proof.Machine.execHbuild s
  | .hassign => Sys2Proof.Machine.execHassign s
  -- Huffman bits (41_huffman_bits.md)
  | .hemit => Sys2Proof.Machine.execHemit s
  | .hpack => Sys2Proof.Machine.execHpack s
  | .hunpack => Sys2Proof.Machine.execHunpack s
  | .hwalk => Sys2Proof.Machine.execHwalk s
  | .hencode => Sys2Proof.Machine.execHencode s
  | .hdecode => Sys2Proof.Machine.execHdecode s
  -- LZ77 (42_lz77.md)
  | .lzmatch => Sys2Proof.Machine.execLzmatch s
  | .lzencode => Sys2Proof.Machine.execLzencode s
  | .lzdecode => Sys2Proof.Machine.execLzdecode s

end Sys2Proof.Machine
end

