-- ==== Sys2Proof/Machine/CoreAgent.lean ====
section
/-! DEFINITION. The two agents of the block (20_memory.md R50): what serving one event does, and the core
agent's one step (60_exceptions.md R94). -/

namespace Sys2Proof.Machine

/-- The core agent's step (R94): while a command is in flight, decode the latched word (R60) and perform it,
or complete it with ILLEGAL_COMMAND (R59); otherwise nothing, and nothing while `rst` is asserted (DESIGN CHOICE,
assumption 9). -/
def coreStep (s : State) : Host.Outcome State Fault Refusal :=
  if s.rst then .next s
  else
    match s.inflight with
    | none => .next s
    | some w =>
      match decode w with
      | .command i => exec i s
      | .illegal v _ => execIllegal v s

/-- What one event does (R40, R94, R106, R108). -/
def serve (s : State) : Event → Host.Outcome State Fault Refusal
  | .read addr => .next (s.hostRead addr)
  | .write addr data strb => .next (s.hostWrite addr data strb)
  | .assertReset => .next s.assertReset
  | .releaseReset => .next s.releaseReset
  | .coreTurn => coreStep s

/-- One step of the whole: the next event takes effect wholly (R40, R50); when the host has nothing more to
do, the core agent takes its step, so every accepted command completes (R116). -/
def advance (s : State) : Host.Outcome State Fault Refusal :=
  match s.pending with
  | [] => coreStep s
  | e :: rest => serve { s with pending := rest } e

/-- `s` with command word `w` accepted and the core agent's turn next: what the host's write to CMD brings
about (R93), with `rst` released and everything the host does next left to come after it. -/
def State.issue (s : State) (w : Word) : State :=
  { s.accept w with rst := false, pending := .coreTurn :: s.pending }

end Sys2Proof.Machine
end

