-- ==== Sys2Proof/Machine/Step.lean ====
section
/-! DEFINITION. One step of the machine, and placing a command where the next step runs it. -/

namespace Sys2Proof.Machine

/-- One step (CoreAgent.lean). -/
def step (s : State) : Host.Outcome State Fault Refusal := advance s

/-- The block fetches nothing (R13): a command runs because the host wrote its word to CMD.  This is that
write's effect, so that the very next step runs the command (assumption 5). -/
def State.withFetchWord (s : State) (_nbits w : Nat) : State := s.issue (BitVec.ofNat 32 w)

end Sys2Proof.Machine
end

