-- ==== Sys2Proof/Safety.lean ====
section
/-! DEFINITION. The vocabulary of claims: what a memory holds, how a command ends, what a tree, a code table and
a token are according to the spec's own words (not the commands' algorithms), and the invariants of the block. -/

namespace Sys2Proof.Machine

/-! ## Memories -/

/-- The memory holds the values `vs` from index `a` on. -/
abbrev Memory.Holds {α : Type} (m : Memory α) (a : Nat) (vs : List α) : Prop :=
  ∀ k, (h : k < vs.length) → m.get? (a + k) = some vs[k]

/-- Every element outside `lo .. hi` is as it was in `m`: its value, or that nothing has written it. -/
abbrev Memory.SameOutside {α : Type} (m' m : Memory α) (lo hi : Nat) : Prop :=
  ∀ a, a < lo ∨ hi ≤ a → m'.get? a = m.get? a

/-- The bytes from index 0 are the packed bits: stream bit 8j + m is bit 7 - m of byte j, and the last byte is
filled with zeros (R74). -/
abbrev PackedAs (m : Memory Byte) (bits : List Bool) : Prop :=
  ∀ j, j < (bits.length + 7) / 8 →
    ∃ b, m.get? j = some b ∧ ∀ k, k < 8 → b.getLsbD (7 - k) = bits.getD (8 * j + k) false

/-! ## How a command ends (R94) -/

/-- A command that raised nothing ended. -/
def State.endsWell (s : State) : State :=
  { s with status := { s.status with done := true }, inflight := none }

/-- A command that raised an error with this code and information ended. -/
def State.endsWith (s : State) (code : ErrCode) (info : Word) : State :=
  { s with
    status := { s.status with done := true, err := true, errCode := code }
    errInfo := info
    inflight := none }

/-- Run commands one after another, stopping after the first that raises an error. -/
def runStages : List Instr → State → Option State
  | [], s => some s
  | i :: is, s =>
    match exec i s with
    | .next t => if t.status.err then some t else runStages is t
    | .fault _ => none
    | .refused _ => none

/-! ## The host's side -/

/-- The offsets of the table of R46, the register page's being those of R14. -/
def Mapped (p : Params) (off : Nat) : Prop :=
  (off < 0x3C ∧ off % 4 = 0) ∨
  (0x1000 ≤ off ∧ off ≤ 0x13FF) ∨
  (0x2000 ≤ off ∧ off ≤ 0x3FEF) ∨
  (0x4000 ≤ off ∧ off ≤ 0x7FFF) ∨
  (0x01000000 ≤ off ∧ off < 0x01000000 + p.bufMax) ∨
  (0x02000000 ≤ off ∧ off < 0x02000000 + p.bufMax) ∨
  (0x04000000 ≤ off ∧ off < 0x04000000 + 4 * p.tokMax) ∨
  (0x08000000 ≤ off ∧ off < 0x08000000 + p.bitMax)

/-- The aligned bus address of a mapped offset (R42, R46, R48). -/
def AddressOf (p : Params) (addr : Word) (off : Nat) : Prop :=
  addr.toNat = p.base + off ∧ off % 4 = 0 ∧ Mapped p off

/-- `rst` is low and the host's transaction `e` is served next, with `rest` to come after it (R40, R108). -/
def State.serves (s : State) (e : Event) (rest : List Event) : Prop :=
  s.rst = false ∧ s.pending = e :: rest

/-- The transaction was answered and the rest is to come. -/
def State.answered (s : State) (rest : List Event) (r : BusResponse) : State :=
  { s with pending := rest, response := some r }

/-! ## Trees and codes (R66, R70, R72) -/

/-- The byte values present in a frequency table, ascending (R30, R69). -/
def present (f : Vector Word 256) : List Nat :=
  (List.range 256).filter (fun v => freqAt f (BitVec.ofNat 8 v) ≠ 0)

/-- `NODE[i]` by a natural index. -/
def nodeN (ns : Vector Node 511) (i : Nat) : Node := nodeAt ns (BitVec.ofNat 9 i)

/-- Index i is one of the node's two children. -/
def Node.hasChild (n : Node) (i : Nat) : Prop :=
  match n with
  | .leaf _ _ => False
  | .internal _ l r => l.toNat = i ∨ r.toNat = i

/-- The extraction order of R66: the least key (freq, index) first. -/
def KeyBelow (ns : Vector Node 511) (i j : Nat) : Prop :=
  (nodeN ns i).freq < (nodeN ns j).freq ∨ (nodeN ns i).freq = (nodeN ns j).freq ∧ i < j

/-- Index i is in the priority queue when node k of a tree of n leaves is made: it exists and no node made
before k has taken it as a child (R66, R69). -/
def Waiting (ns : Vector Node 511) (n k i : Nat) : Prop :=
  i < k ∧ ∀ j, n ≤ j → j < k → ¬ (nodeN ns j).hasChild i

/-- Node k merges the two least nodes waiting, first-popped left and second-popped right, with their
frequencies' sum (R66, R69). -/
def MergesTheTwoLeast (ns : Vector Node 511) (n k : Nat) : Prop :=
  ∃ a b : BitVec 9,
    nodeN ns k = .internal ((nodeAt ns a).freq + (nodeAt ns b).freq) a b ∧
    Waiting ns n k a.toNat ∧ Waiting ns n k b.toNat ∧ KeyBelow ns a.toNat b.toNat ∧
    ∀ c, Waiting ns n k c → c ≠ a.toNat → c ≠ b.toNat → KeyBelow ns b.toNat c

/-- A tree of n leaves as R70 describes it. -/
structure TreeOf (ns : Vector Node 511) (n : Nat) : Prop where
  /-- a byte has 256 values -/
  leaves : 1 ≤ n ∧ n ≤ 256
  /-- leaves are 0 .. n-1 -/
  leaf : ∀ i, i < n → ∃ sym f, nodeN ns i = .leaf sym f
  /-- no symbol labels two leaves -/
  distinct : ∀ i j sym f g, i < n → j < n → nodeN ns i = .leaf sym f → nodeN ns j = .leaf sym g → i = j
  /-- internal nodes are n .. 2n-2, with two children below themselves and their frequencies' sum -/
  internal : ∀ i, n ≤ i → i < 2 * n - 1 →
    ∃ l r : BitVec 9, nodeN ns i = .internal ((nodeAt ns l).freq + (nodeAt ns r).freq) l r ∧
      l.toNat < i ∧ r.toNat < i ∧ l ≠ r
  /-- every non-root index is the child of exactly one internal node -/
  owned : ∀ i, i < 2 * n - 2 → ∃ j, (n ≤ j ∧ j < 2 * n - 1 ∧ (nodeN ns j).hasChild i) ∧
    ∀ j', n ≤ j' → j' < 2 * n - 1 → (nodeN ns j').hasChild i → j' = j

/-- The node reached from i by a path of left (0) and right (1) moves, if the path does not leave the tree. -/
def follow (ns : Vector Node 511) : BitVec 9 → List Bool → Option Node
  | i, [] => some (nodeAt ns i)
  | i, b :: bs =>
    match nodeAt ns i with
    | .leaf _ _ => none
    | .internal _ l r => follow ns (if b then r else l) bs

/-- The path leads from `root` to a leaf of symbol `sym`. -/
def LeadsToLeaf (ns : Vector Node 511) (root : BitVec 9) (path : List Bool) (sym : Byte) : Prop :=
  ∃ f, follow ns root path = some (.leaf sym f)

/-- The path leads from `root` to an internal node. -/
def LeadsInside (ns : Vector Node 511) (root : BitVec 9) (path : List Bool) : Prop :=
  ∃ f l r, follow ns root path = some (.internal f l r)

/-- The code a tree gives a symbol (R71, R72): the path from the root to the symbol's leaf, or "0" in the
degenerate tree. -/
def IsCodeOf (ns : Vector Node 511) (root : BitVec 9) (sym : Byte) (c : List Bool) : Prop :=
  (LeadsToLeaf ns root c sym ∧ c ≠ []) ∨ (LeadsToLeaf ns root [] sym ∧ c = [false])

/-- The code table of a tree: an entry is non-empty exactly where the tree gives the symbol that code. -/
def IsCodeTable (ns : Vector Node 511) (root : BitVec 9) (cs : Vector (List Bool) 256) : Prop :=
  ∀ sym c, (codeAt cs sym = c ∧ c ≠ []) ↔ IsCodeOf ns root sym c

/-- Symbols and the bits that encode them under a tree, one code after another (R73, R76). -/
def EncodesTo (ns : Vector Node 511) (root : BitVec 9) : List Byte → List Bool → Prop
  | [], bits => bits = []
  | sym :: syms, bits => ∃ c rest, bits = c ++ rest ∧ IsCodeOf ns root sym c ∧ EncodesTo ns root syms rest

/-! ## Matches and tokens (R80-R82, R85) -/

/-- k bytes match at candidate i and cursor c: (a), (b) and (c) of R81. -/
def Matches (inp : List Byte) (c i k : Nat) : Prop :=
  k ≤ 255 ∧ c + k + 1 ≤ inp.length ∧ ∀ m, m < k → inp[i + m]? = inp[c + m]?

/-- The match length of candidate i at cursor c (R81): the largest such k. -/
def IsMatchLength (inp : List Byte) (c i k : Nat) : Prop :=
  Matches inp c i k ∧ ∀ k', Matches inp c i k' → k' ≤ k

/-- The window of R80: max(0, c - W) <= i < c. -/
def InWindow (w c i : Nat) : Prop := c ≤ i + w ∧ i < c

/-- The match R82 adopts: of the greatest length in the window, and of those the earliest candidate (so the
largest offset); length and offset 0 when no candidate matches a byte. -/
def IsBestMatch (inp : List Byte) (w c len off : Nat) : Prop :=
  (len = 0 ∧ off = 0 ∧ ∀ i k, InWindow w c i → IsMatchLength inp c i k → k = 0) ∨
  (0 < len ∧ ∃ i, off = c - i ∧ InWindow w c i ∧ IsMatchLength inp c i len ∧
    ∀ j k, InWindow w c j → IsMatchLength inp c j k → k ≤ len ∧ (j < i → k < len))

/-- The token of cursor c (R83). -/
def IsTokenAt (inp : List Byte) (w c : Nat) (t : Token) : Prop :=
  IsBestMatch inp w c t.length.toNat t.offset.toNat ∧ inp[c + t.length.toNat]? = some t.next

/-- The tokens from cursor c to the end of the input (R84): after each, the cursor is its length + 1 further. -/
def IsTokenStream (inp : List Byte) (w : Nat) : Nat → List Token → Prop
  | c, [] => c = inp.length
  | c, t :: ts => c < inp.length ∧ IsTokenAt inp w c t ∧ IsTokenStream inp w (c + t.length.toNat + 1) ts

/-- A token appended to an output (R85): literal-only, or a copy from `offset` bytes back in which every byte
equals the one `offset` before it, then the literal. -/
def Appends (out : List Byte) (t : Token) (out' : List Byte) : Prop :=
  ((t.offset.toNat = 0 ∧ t.length.toNat = 0) ∨ (0 < t.offset.toNat ∧ t.offset.toNat ≤ out.length)) ∧
  ∃ run : List Byte, out' = out ++ run ++ [t.next] ∧ run.length = t.length.toNat ∧
    ∀ k, k < run.length → (out ++ run)[out.length + k]? = (out ++ run)[out.length + k - t.offset.toNat]?

/-- Tokens appended one after another. -/
def Reconstructs : List Byte → List Token → List Byte → Prop
  | out, [], out' => out' = out
  | out, t :: ts, out' => ∃ mid, Appends out t mid ∧ Reconstructs mid ts out'

/-! ## Invariants -/

/-- Every memory is in canonical form and within its size (R33-R36). -/
structure MemoriesCanonical (s : State) : Prop where
  inMem : s.inMem.wf ∧ s.inMem.below s.params.bufMax
  outMem : s.outMem.wf ∧ s.outMem.below s.params.bufMax
  tokMem : s.tokMem.wf ∧ s.tokMem.below (4 * s.params.tokMax)
  bitMem : s.bitMem.wf ∧ s.bitMem.below s.params.bitMax

/-- What the status fields always satisfy: nothing is reported while BUSY (R112), a command in flight does not
survive reset (R107), ERR comes with an error code, and OUT_LEN counts bytes of OUT_MEM (R20). -/
structure StatusConsistent (s : State) : Prop where
  busy : s.busy = true →
    s.status.done = false ∧ s.status.err = false ∧ s.status.errCode = .none ∧ s.errInfo = 0
  reset : s.rst = true → s.inflight = none
  error : s.status.err = true → s.status.errCode ≠ .none
  info : s.status.errCode = .none → s.errInfo = 0
  outLen : s.outLen.toNat ≤ s.params.bufMax

/-- What TREE_VALID and CODES_VALID promise (R27, R28, R31, R38). -/
structure TablesConsistent (s : State) : Prop where
  tree : s.status.treeValid = true →
    ∃ n, TreeOf s.node n ∧ s.nodeCount.toNat = 2 * n - 1 ∧ s.root.toNat = 2 * n - 2
  noTree : s.status.treeValid = false → s.nodeCount = 0 ∧ s.root = 0
  unused : ∀ i, s.nodeCount.toNat ≤ i → i < 511 → nodeN s.node i = Node.zero
  codes : s.status.codesValid = true → s.status.treeValid = true ∧ IsCodeTable s.node s.root s.code

end Sys2Proof.Machine
end

