-- ==== Sys2Proof/Certificates/Slice0/Obligations.lean ====
section
/-! DEFINITION. The statements for the provers, from the numbered rules of spec/. -/

open Sys2Proof Sys2Proof.Machine

/-! ## Command words -/

/-- R58, R60: words written out from the opcode table decode to their commands, and some that the table does
not list do not decode. -/
def Obligations.TableWordsDecodeToTheirCommands : Prop :=
  decode 0x00000000 = .command .nop ∧ decode 0x00000001 = .command .clear ∧
  decode 0x00000011 = .command .hbuild ∧ decode 0x00000016 = .command .hwalk ∧
  decode 0x00000018 = .command .hencode ∧ decode 0x00000022 = .command .lzdecode ∧
  decode 0x00000017 = .illegal 0x00000017 .opcodeNotInMap ∧
  decode 0x00000110 = .illegal 0x00000110 .rsvdNotZero

/-- R58, R60: a word decodes to a command exactly when it is that command's word, so no bit of a command word
is ignored and no two words mean the same. -/
def Obligations.OnlyACommandsOwnWordDecodesToIt : Prop :=
  ∀ (w : Word) (i : Instr), decode w = .command i ↔ w = encode i

/-- R59: the words that are no command are exactly those with a non-zero RSVD field or an OPCODE in the listed
ranges; such a word is accepted like any other, and completes with ILLEGAL_COMMAND and the word in ERRINFO. -/
def Obligations.IllegalWordsCompleteWithTheWordInErrinfo : Prop :=
  ∀ w : Word,
    ((¬ ∃ i, decode w = .command i) ↔
      (w.toNat / 256 ≠ 0 ∨ (0x02 ≤ w.toNat % 256 ∧ w.toNat % 256 ≤ 0x0F) ∨ w.toNat % 256 = 0x17 ∨
        (0x1A ≤ w.toNat % 256 ∧ w.toNat % 256 ≤ 0x1F) ∨ (0x23 ≤ w.toNat % 256 ∧ w.toNat % 256 ≤ 0xFF))) ∧
    ((¬ ∃ i, decode w = .command i) → ∀ (s : State) (addr : Word) (rest : List Event),
      s.busy = false → addr.toNat = s.params.base + 0x00C → s.serves (.write addr w 0b1111) (.coreTurn :: rest) →
      ∃ t, step s = .next t ∧ t.busy = true ∧ step t = .next
        { s with
          pending := rest
          response := some (.write .okay)
          status := { s.status with done := true, err := true, errCode := .illegalCommand }
          errInfo := w
          inflight := none })

/-! ## Steps -/

/-- R94: when the latched word decodes to a command and it is the core agent's turn, the step is that command's
meaning; the turn is the next event, or the host has nothing more to do (assumption 3). -/
def Obligations.StepRunsTheDecodedCommand : Prop :=
  ∀ (s : State) (w : Word) (i : Instr), s.rst = false → s.inflight = some w → decode w = .command i →
    (s.pending = [] → step s = exec i s) ∧
    (∀ rest, s.pending = .coreTurn :: rest → step s = exec i { s with pending := rest })

/-- R94: "When it is not BUSY it is idle and changes nothing." -/
def Obligations.IdleCoreChangesNothing : Prop :=
  ∀ s : State, s.busy = false →
    (s.pending = [] → step s = .next s) ∧
    (∀ rest, s.pending = .coreTurn :: rest → step s = .next { s with pending := rest })

/-- R116, R94: every command completes: when the host's events have all been served and the core agent has had
one more turn, no command is in flight (the turns are the model's form of fairness, assumption 3). -/
def Obligations.AcceptedCommandsComplete : Prop :=
  ∀ s : State, StatusConsistent s →
    ∃ t, core.run (s.pending.length + 1) s = .next t ∧ t.inflight = none ∧ t.pending = []

/-- R94: every command, from every state, ends with DONE = 1 and BUSY = 0, and reports an error only by
STATUS. -/
def Obligations.EveryCommandEndsDoneAndNotBusy : Prop :=
  ∀ (i : Instr) (s : State), ∃ t, exec i s = .next t ∧ t.status.done = true ∧ t.busy = false

/-- 93_implementation_defined.md, R90: nothing in the block is stuck and nothing stops it: every step from every
state gives a next state, neither a fault nor a refusal. -/
def Obligations.EveryStepGivesANextState : Prop :=
  ∀ s : State, ∃ t, step s = .next t

/-! ## Host transactions -/

/-- R18, R93: a write to CMD while BUSY = 0, with a strobe that is not all zeros, is accepted: the word is the
data with the lanes the strobe does not enable taken as 0x00.  While BUSY = 1 it is not an issue: the latched word
and what is reported stay as they are. -/
def Obligations.WriteToCmdIsAccepted : Prop :=
  ∀ (s : State) (addr data : Word) (strb : BitVec 4) (rest : List Event),
    strb ≠ 0 → addr.toNat = s.params.base + 0x00C → s.serves (.write addr data strb) rest →
    (s.busy = false → ∃ w : Word,
      (∀ k, k < 4 → lane w k = if strb.getLsbD k then lane data k else 0) ∧
      step s = .next
        { s.answered rest (.write .okay) with
          status := { s.status with done := false, err := false, errCode := .none }
          errInfo := 0
          inflight := some w }) ∧
    (s.busy = true → ∃ t, step s = .next t ∧ t.inflight = s.inflight ∧ t.errInfo = s.errInfo ∧
      t.status.done = s.status.done ∧ t.status.err = s.status.err ∧ t.status.errCode = s.status.errCode)

/-- R42, R46: a transaction is answered ERROR exactly when it is misaligned or its offset is not mapped; then it
has no effect, a read returns 0, and OVR is not set. -/
def Obligations.ErrorResponseExactlyWhenMisalignedOrUnmapped : Prop :=
  ∀ (s : State) (addr data : Word) (strb : BitVec 4) (rest : List Event),
    (s.serves (.read addr) rest →
      ((∀ off, ¬ AddressOf s.params addr off) → step s = .next (s.answered rest (.read 0 .error))) ∧
      ((∃ off, AddressOf s.params addr off) → ∃ t d, step s = .next t ∧ t.response = some (.read d .okay))) ∧
    (s.serves (.write addr data strb) rest →
      ((∀ off, ¬ AddressOf s.params addr off) → step s = .next (s.answered rest (.write .error))) ∧
      ((∃ off, AddressOf s.params addr off) → ∃ t, step s = .next t ∧ t.response = some (.write .okay)))

/-- R41: a write with a zero strobe is answered OKAY and has no effect at all, BUSY or not. -/
def Obligations.ZeroStrobeWriteHasNoEffect : Prop :=
  ∀ (s : State) (addr data : Word) (rest : List Event) (off : Nat),
    AddressOf s.params addr off → s.serves (.write addr data 0) rest →
    step s = .next (s.answered rest (.write .okay))

/-- R47: a read changes nothing but its own answer (and, in the model, how many free values were drawn). -/
def Obligations.ReadsHaveNoSideEffect : Prop :=
  ∀ (s : State) (addr : Word) (rest : List Event), s.serves (.read addr) rest →
    ∃ r d, step s = .next { s.answered rest r with draws := d }

/-- R41: an enabled lane takes the data's byte and any other keeps its own, so two words agree on every lane or
differ. -/
def Obligations.StrobesSelectByteLanes : Prop :=
  ∀ (old data : Word) (strb : BitVec 4),
    (∀ k, k < 4 → lane (mergeLanes old data strb) k = if strb.getLsbD k then lane data k else lane old k) ∧
    (∀ w : Word, (∀ k, k < 4 → lane w k = lane old k) → w = old)

/-- R14, R16, R19, R21-R24, R26, R30, R41: a write to a read-write register or table entry while the block is
not BUSY updates it lane by lane and changes nothing else. -/
def Obligations.WritesUpdateOperandRegistersByLane : Prop :=
  ∀ (s : State) (addr data : Word) (strb : BitVec 4) (rest : List Event) (off : Nat),
    s.busy = false → strb ≠ 0 → addr.toNat = s.params.base + off → s.serves (.write addr data strb) rest →
    let a := s.answered rest (.write .okay)
    (off = 0x004 → step s = .next { a with irqEn := if strb.getLsbD 0 then data.getLsbD 0 else s.irqEn }) ∧
    (off = 0x010 → step s = .next { a with inLen := mergeLanes s.inLen data strb }) ∧
    (off = 0x018 → step s = .next { a with bitLen := mergeLanes s.bitLen data strb }) ∧
    (off = 0x01C → step s = .next { a with symCount := mergeLanes s.symCount data strb }) ∧
    (off = 0x020 → ∃ w, step s = .next { a with window := w } ∧
      w.setWidth 32 = mergeLanes (s.window.setWidth 32) data strb &&& 0xFFFF) ∧
    (off = 0x024 → step s = .next { a with cursor := mergeLanes s.cursor data strb }) ∧
    (off = 0x02C → step s = .next { a with tokBytes := mergeLanes s.tokBytes data strb }) ∧
    (∀ sym : Byte, off = 0x1000 + 4 * sym.toNat → ∃ f, step s = .next { a with freq := f } ∧
      ∀ v, freqAt f v = if v = sym then mergeLanes (freqAt s.freq sym) data strb else freqAt s.freq v)

/-- R41, R46: a write to read-only state while the block is not BUSY is answered OKAY and changes nothing. -/
def Obligations.WritesToReadOnlyStateChangeNothing : Prop :=
  ∀ (s : State) (addr data : Word) (strb : BitVec 4) (rest : List Event) (off : Nat),
    s.busy = false → AddressOf s.params addr off → s.serves (.write addr data strb) rest →
    (off ∈ [0x000, 0x014, 0x028, 0x030, 0x034, 0x038] ∨ (0x2000 ≤ off ∧ off ≤ 0x7FFF) ∨
      (0x02000000 ≤ off ∧ off < 0x04000000)) →
    step s = .next (s.answered rest (.write .okay))

/-- R17: STATUS is the word of its fields, with ERRCODE as R91 numbers it; reserved bits read 0. -/
def Obligations.StatusWordShowsItsFields : Prop :=
  ∀ s : State,
    s.statusWord.getLsbD 0 = s.busy ∧ s.statusWord.getLsbD 1 = s.status.done ∧
    s.statusWord.getLsbD 2 = s.status.err ∧ s.statusWord.getLsbD 3 = s.status.ovr ∧
    s.statusWord.getLsbD 4 = s.status.treeValid ∧ s.statusWord.getLsbD 5 = s.status.codesValid ∧
    s.statusWord.extractLsb' 6 2 = 0 ∧ s.statusWord.extractLsb' 12 20 = 0 ∧
    s.statusWord.extractLsb' 8 4 =
      match s.status.errCode with
      | .none => 0
      | .emptyInput => 1
      | .corruptStream => 2
      | .invalidOffset => 3
      | .treeMismatch => 4
      | .illegalCommand => 8
      | .parameter => 9
      | .state => 10
      | .capacity => 11

/-- R17, R98, R112: a write to STATUS, BUSY or not, clears exactly the DONE, ERR and OVR bits written with 1 in
an enabled lane; ERRCODE, ERRINFO and everything else stay. -/
def Obligations.StatusWriteClearsTheBitsWrittenWithOne : Prop :=
  ∀ (s : State) (addr data : Word) (strb : BitVec 4) (rest : List Event),
    addr.toNat = s.params.base + 0x008 → s.serves (.write addr data strb) rest →
    step s = .next
      { s.answered rest (.write .okay) with
        status :=
          { s.status with
            done := s.status.done && !(strb.getLsbD 0 && data.getLsbD 1)
            err := s.status.err && !(strb.getLsbD 0 && data.getLsbD 2)
            ovr := s.status.ovr && !(strb.getLsbD 0 && data.getLsbD 3) } }

/-- R14-R29: reading a register while the block is not BUSY gives its value, reserved bits 0; ID, CTRL and
STATUS read so while BUSY too (R112), and CMD reads 0 (R18). -/
def Obligations.RegistersReadAsTheirValues : Prop :=
  ∀ (s : State) (addr : Word) (rest : List Event) (off : Nat),
    addr.toNat = s.params.base + off → s.serves (.read addr) rest →
    let reads (w : Word) : Prop := step s = .next (s.answered rest (.read w .okay))
    (off = 0x000 → reads 0x485A4301) ∧
    (off = 0x004 → reads (if s.irqEn then 1 else 0)) ∧
    (off = 0x008 → reads s.statusWord) ∧
    (s.busy = false →
      (off = 0x00C → reads 0) ∧
      (off = 0x010 → reads s.inLen) ∧
      (off = 0x014 → reads s.outLen) ∧
      (off = 0x018 → reads s.bitLen) ∧
      (off = 0x01C → reads s.symCount) ∧
      (off = 0x020 → reads (s.window.setWidth 32)) ∧
      (off = 0x024 → reads s.cursor) ∧
      (off = 0x028 → reads (s.token.next ++ s.token.length ++ s.token.offset)) ∧
      (off = 0x02C → reads s.tokBytes) ∧
      (off = 0x030 → reads (s.nodeCount.setWidth 32)) ∧
      (off = 0x034 → reads (s.root.setWidth 32)) ∧
      (off = 0x038 → reads s.errInfo) ∧
      (∀ sym : Byte, off = 0x1000 + 4 * sym.toNat → reads (freqAt s.freq sym)))

/-- R31: the host view of a node entry. -/
def Obligations.NodeEntriesReadAsLaidOut : Prop :=
  ∀ (s : State) (addr : Word) (rest : List Event) (i k : Nat),
    i < 511 → k < 4 → s.busy = false → addr.toNat = s.params.base + 0x2000 + 16 * i + 4 * k →
    s.serves (.read addr) rest →
    ∃ w, step s = .next (s.answered rest (.read w .okay)) ∧
      (k = 0 → w = (nodeN s.node i).freq.setWidth 32) ∧
      (k = 1 → w.toNat = (nodeN s.node i).freq.toNat / 2 ^ 32) ∧
      (k = 2 → match nodeN s.node i with
        | .leaf _ _ => w = 0
        | .internal _ l r => w.toNat = l.toNat + 2 ^ 16 * r.toNat) ∧
      (k = 3 → match nodeN s.node i with
        | .leaf sym _ => w.toNat = 2 ^ 8 * sym.toNat
        | .internal _ _ _ => w = 1)

/-- R32: the host view of a code entry: its length in the low byte of word 0, its bits from byte 0x20 first bit
first and most significant first in each byte, 0 everywhere else. -/
def Obligations.CodeEntriesReadAsLaidOut : Prop :=
  ∀ (s : State) (addr : Word) (rest : List Event) (sym : Byte) (k : Nat),
    k < 16 → s.busy = false → (codeAt s.code sym).length ≤ 255 →
    addr.toNat = s.params.base + 0x4000 + 64 * sym.toNat + 4 * k → s.serves (.read addr) rest →
    ∃ w, step s = .next (s.answered rest (.read w .okay)) ∧
      (k = 0 → w.toNat = (codeAt s.code sym).length) ∧
      (0 < k → k < 8 → w = 0) ∧
      (8 ≤ k → ∀ i m, i < 4 → m < 8 →
        w.getLsbD (8 * i + (7 - m)) = (codeAt s.code sym).getD (8 * (4 * (k - 8) + i) + m) false)

/-- R43, R39: a word read of IN_MEM, OUT_MEM or TOKMEM while the block is not BUSY holds in lane i the byte at
offset + i, wherever something has written it. -/
def Obligations.MemoryWordsReadLittleEndian : Prop :=
  ∀ (s : State) (addr : Word) (rest : List Event) (off j : Nat),
    s.busy = false → addr.toNat = s.params.base + off → s.serves (.read addr) rest → j % 4 = 0 →
    let reads (m : Memory Byte) : Prop :=
      ∃ w d, step s = .next { s.answered rest (.read w .okay) with draws := d } ∧
        (∀ k b, k < 4 → m.get? (j + k) = some b → lane w k = b) ∧
        ((∀ k, k < 4 → m.get? (j + k) ≠ none) → d = s.draws)
    (off = 0x01000000 + j → j < s.params.bufMax → reads s.inMem) ∧
    (off = 0x02000000 + j → j < s.params.bufMax → reads s.outMem) ∧
    (off = 0x04000000 + j → j < 4 * s.params.tokMax → reads s.tokMem)

/-- R44: a word read of BITMEM while the block is not BUSY holds in lane i 0x00 or 0x01, the entry at offset + i
wherever something has written it. -/
def Obligations.BitMemoryReadsOneEntryALane : Prop :=
  ∀ (s : State) (addr : Word) (rest : List Event) (j : Nat),
    s.busy = false → addr.toNat = s.params.base + 0x08000000 + j → s.serves (.read addr) rest → j % 4 = 0 →
    j < s.params.bitMax →
    ∃ w d, step s = .next { s.answered rest (.read w .okay) with draws := d } ∧
      (∀ k, k < 4 → lane w k = 0 ∨ lane w k = 1) ∧
      (∀ k b, k < 4 → s.bitMem.get? (j + k) = some b → lane w k = if b then 1 else 0)

/-- R41, R43: a word write to IN_MEM or TOKMEM while the block is not BUSY stores each enabled lane's byte at
offset + lane and leaves every other byte and everything else.  That a lane past the last byte of IN_MEM stores
nothing is the model's choice (assumption 6). -/
def Obligations.MemoryWritesStoreTheEnabledLanes : Prop :=
  ∀ (s : State) (addr data : Word) (strb : BitVec 4) (rest : List Event) (off j : Nat),
    s.busy = false → addr.toNat = s.params.base + off → s.serves (.write addr data strb) rest → j % 4 = 0 →
    let stores (size : Nat) (m m' : Memory Byte) : Prop :=
      (∀ k, k < 4 → strb.getLsbD k = true → j + k < size → m'.get? (j + k) = some (lane data k)) ∧
      (∀ a, (∀ k, k < 4 → strb.getLsbD k = true → j + k < size → a ≠ j + k) → m'.get? a = m.get? a)
    (off = 0x01000000 + j → j < s.params.bufMax →
      ∃ m', step s = .next { s.answered rest (.write .okay) with inMem := m' } ∧
        stores s.params.bufMax s.inMem m') ∧
    (off = 0x04000000 + j → j < 4 * s.params.tokMax →
      ∃ m', step s = .next { s.answered rest (.write .okay) with tokMem := m' } ∧
        stores (4 * s.params.tokMax) s.tokMem m')

/-- R44: a word write to BITMEM while the block is not BUSY stores bit 8i of the data in the entry at
offset + i for each enabled lane i, and leaves every other entry and everything else. -/
def Obligations.BitMemoryWritesStoreBitZeroOfEachLane : Prop :=
  ∀ (s : State) (addr data : Word) (strb : BitVec 4) (rest : List Event) (j : Nat),
    s.busy = false → addr.toNat = s.params.base + 0x08000000 + j → s.serves (.write addr data strb) rest →
    j % 4 = 0 → j < s.params.bitMax →
    ∃ m', step s = .next { s.answered rest (.write .okay) with bitMem := m' } ∧
      (∀ k, k < 4 → strb.getLsbD k = true → m'.get? (j + k) = some (data.getLsbD (8 * k))) ∧
      (∀ a, (∀ k, k < 4 → strb.getLsbD k = true → a ≠ j + k) → m'.get? a = s.bitMem.get? a)

/-- R110: while BUSY, a write with a non-zero strobe to anything mapped but CTRL and STATUS is answered OKAY and
dropped, with OVR set (ID included, assumption 7); to CTRL it has its normal effect (to STATUS: the statement about
STATUS writes). -/
def Obligations.BusyWritesAreDroppedAndSetOvr : Prop :=
  ∀ (s : State) (addr data : Word) (strb : BitVec 4) (rest : List Event) (off : Nat),
    s.busy = true → strb ≠ 0 → AddressOf s.params addr off → s.serves (.write addr data strb) rest →
    (off ≠ 0x004 → off ≠ 0x008 →
      step s = .next { s.answered rest (.write .okay) with status := { s.status with ovr := true } }) ∧
    (off = 0x004 → step s = .next
      { s.answered rest (.write .okay) with irqEn := if strb.getLsbD 0 then data.getLsbD 0 else s.irqEn })

/-- R111: while BUSY, a read answered OKAY of anything but ID, CTRL and STATUS returns a free value, a new one each
time (assumption 2), changes nothing else and does not set OVR. -/
def Obligations.BusyReadsReturnAFreeValue : Prop :=
  ∀ (s : State) (addr : Word) (rest : List Event) (off : Nat),
    s.busy = true → AddressOf s.params addr off → off ∉ [0x000, 0x004, 0x008] → s.serves (.read addr) rest →
    step s = .next { s.answered rest (.read (Config.freeWord s.draws) .okay) with draws := s.draws + 1 }

/-- R112: while BUSY, STATUS reads BUSY = 1 and DONE, ERR and ERRCODE 0, in every state that keeps the status
invariant. -/
def Obligations.StatusWhileBusyReportsNothing : Prop :=
  ∀ (s : State) (addr : Word) (rest : List Event),
    StatusConsistent s → s.busy = true → addr.toNat = s.params.base + 0x008 → s.serves (.read addr) rest →
    ∃ w, step s = .next (s.answered rest (.read w .okay)) ∧ w.getLsbD 0 = true ∧ w.getLsbD 1 = false ∧
      w.getLsbD 2 = false ∧ w.extractLsb' 8 4 = 0 ∧ w.getLsbD 3 = s.status.ovr ∧
      w.getLsbD 4 = s.status.treeValid ∧ w.getLsbD 5 = s.status.codesValid

/-- R53: what the host does while BUSY can disturb no command: it changes CTRL, the bits of STATUS the host may clear,
OVR, its own answer and the count of draws, and leaves everything a command reads or writes. -/
def Obligations.HostCannotDisturbACommandInFlight : Prop :=
  ∀ (s : State) (e : Event) (rest : List Event), s.busy = true → s.serves e rest →
    ((∃ addr, e = .read addr) ∨ ∃ addr data strb, e = .write addr data strb) →
    ∃ irqEn done err ovr r d, step s = .next
      { s.answered rest r with
        irqEn := irqEn, status := { s.status with done := done, err := err, ovr := ovr }, draws := d }

/-- R110, R17, R107: OVR is sticky: the one step that clears it is a host write of 1 to it, or reset. -/
def Obligations.OvrIsClearedOnlyByTheHostOrReset : Prop :=
  ∀ s t : State, s.status.ovr = true → step s = .next t → t.status.ovr = false →
    (∃ rest, s.pending = .assertReset :: rest) ∨
    (∃ addr data strb rest, s.serves (.write addr data strb) rest ∧ addr.toNat = s.params.base + 0x008 ∧
      strb.getLsbD 0 = true ∧ data.getLsbD 3 = true)

/-- R97: irq is high exactly while IRQ_EN and (DONE or ERR), so OVR does not raise it: every completion raises it if
enabled, acceptance lowers it, clearing DONE and ERR lowers it, and writing IRQ_EN = 0 masks it, with DONE and ERR left
as they are. -/
def Obligations.IrqFollowsDoneAndErrWhenEnabled : Prop :=
  (∀ (i : Instr) (s : State), ∃ t, exec i s = .next t ∧ t.irq = s.irqEn) ∧
  (∀ (s : State) (w : Word), (s.accept w).irq = false) ∧
  (∀ (s : State) (data : Word) (strb : BitVec 4), strb.getLsbD 0 = true → data.getLsbD 1 = true →
    data.getLsbD 2 = true → (s.acknowledge data strb).irq = false) ∧
  (∀ (s : State) (data : Word) (strb : BitVec 4), strb.getLsbD 0 = true → data.getLsbD 0 = false →
    (s.writeReg .ctrl data strb).irq = false ∧ (s.writeReg .ctrl data strb).status = s.status) ∧
  (∀ s : State, s.irq = true ↔ s.irqEn = true ∧ (s.status.done = true ∨ s.status.err = true))

/-! ## Reset -/

/-- R106: the state after reset: ID reads its constant, every other register reads 0, the three tables are
empty, and irq is low.  (The model's own fields are outside the rule.) -/
def Obligations.ResetLeavesTheStatedValues : Prop :=
  (∀ r : Reg, State.reset.regWord r = if r = .id then 0x485A4301 else 0) ∧
  (∀ sym, freqAt State.reset.freq sym = 0 ∧ codeAt State.reset.code sym = []) ∧
  (∀ i, nodeN State.reset.node i = .leaf 0 0) ∧
  State.reset.busy = false ∧ State.reset.irq = false ∧
  (∀ a, State.reset.inMem.get? a = none ∧ State.reset.outMem.get? a = none ∧
    State.reset.tokMem.get? a = none ∧ State.reset.bitMem.get? a = none)

/-- R106, R107: asserting rst, BUSY or not, gives the reset state of the same instance and abandons a command in
flight; nothing in the four memories counts as written (assumption 10). -/
def Obligations.AssertingResetAbandonsTheCommand : Prop :=
  ∀ (s : State) (rest : List Event), s.pending = .assertReset :: rest →
    step s = .next
      { State.reset with params := s.params, pending := rest, draws := s.draws, rst := true }

/-- R108: no host transaction is answered while rst is asserted.  That such a transaction is lost, and that the core
agent takes no step, whatever the state, are the model's choices (assumption 9). -/
def Obligations.NothingIsAnsweredDuringReset : Prop :=
  ∀ (s : State) (rest : List Event), s.rst = true →
    (∀ addr, s.pending = .read addr :: rest → step s = .next { s with pending := rest, response := none }) ∧
    (∀ addr data strb, s.pending = .write addr data strb :: rest →
      step s = .next { s with pending := rest, response := none }) ∧
    (s.pending = .coreTurn :: rest → step s = .next { s with pending := rest }) ∧
    (s.pending = .releaseReset :: rest → step s = .next { s with pending := rest, rst := false })

/-! ## Control commands -/

/-- R87, R94: NOP does nothing but complete. -/
def Obligations.NopOnlyCompletes : Prop :=
  decode 0x00000000 = .command .nop ∧ ∀ s : State, exec .nop s = .next s.endsWell

/-- R88: CLEAR gives the listed items their reset values and leaves CTRL, WINDOW, OVR and the four memories. -/
def Obligations.ClearResetsTheDatapath : Prop :=
  decode 0x00000001 = .command .clear ∧ ∀ s : State, ∃ f n c, exec .clear s = .next
    { s with
      freq := f, node := n, code := c, nodeCount := 0, root := 0
      status := { s.status with treeValid := false, codesValid := false, done := true }
      inLen := 0, outLen := 0, bitLen := 0, symCount := 0, cursor := 0
      token := { offset := 0, length := 0, next := 0 }
      tokBytes := 0
      inflight := none } ∧
    (∀ sym, freqAt f sym = 0 ∧ codeAt c sym = []) ∧ (∀ i, nodeN n i = .leaf 0 0)

/-! ## The Huffman tables -/

/-- R68: HFREQ. -/
def Obligations.HfreqCountsTheInputBytes : Prop :=
  decode 0x00000010 = .command .hfreq ∧ ∀ s : State,
    (s.params.bufMax < s.inLen.toNat → exec .hfreq s = .next (s.endsWith .parameter 0x010)) ∧
    (s.inLen = 0 → exec .hfreq s = .next (s.endsWith .emptyInput 0)) ∧
    (0 < s.inLen.toNat → s.inLen.toNat ≤ s.params.bufMax →
      ∃ f d, exec .hfreq s = .next { s.endsWell with freq := f, draws := d } ∧
        (f.toList.map BitVec.toNat).sum = s.inLen.toNat ∧
        ∀ inp : List Byte, inp.length = s.inLen.toNat → s.inMem.Holds 0 inp →
          d = s.draws ∧ ∀ sym, (freqAt f sym).toNat = inp.count sym)

/-- R66, R69: HBUILD: the leaves in ascending byte value, then one node per merge of the two least nodes
waiting, and zero entries above. -/
def Obligations.HbuildMergesTheTwoLeastNodes : Prop :=
  decode 0x00000011 = .command .hbuild ∧ ∀ s : State,
    (present s.freq = [] → exec .hbuild s = .next (s.endsWith .emptyInput 0)) ∧
    (present s.freq ≠ [] →
      let syms := present s.freq
      let n := syms.length
      ∃ ns c, exec .hbuild s = .next
        { s with
          node := ns, code := c
          nodeCount := BitVec.ofNat 10 (2 * n - 1)
          root := BitVec.ofNat 9 (2 * n - 2)
          status := { s.status with treeValid := true, codesValid := false, done := true }
          inflight := none } ∧
        (∀ sym, codeAt c sym = []) ∧
        (∀ k, (h : k < n) → nodeN ns k =
          .leaf (BitVec.ofNat 8 syms[k]) ((freqAt s.freq (BitVec.ofNat 8 syms[k])).setWidth 40)) ∧
        (∀ k, n ≤ k → k < 2 * n - 1 → MergesTheTwoLeast ns n k) ∧
        (∀ k, 2 * n - 1 ≤ k → k < 511 → nodeN ns k = .leaf 0 0))

/-- R70: the tree HBUILD builds: its shape, its root's frequency (IN_LEN after HFREQ), and its depth. -/
def Obligations.HbuildBuildsATreeOfItsTable : Prop :=
  ∀ s : State, present s.freq ≠ [] →
    let n := (present s.freq).length
    ∃ t, exec .hbuild s = .next t ∧ t.root.toNat = 2 * n - 2 ∧ TreeOf t.node n ∧
      (nodeAt t.node t.root).freq.toNat = (s.freq.toList.map BitVec.toNat).sum ∧
      (∀ r : State, exec .hfreq r = .next s → s.status.err = false →
        (nodeAt t.node t.root).freq.toNat = s.inLen.toNat) ∧
      ∀ path sym, LeadsToLeaf t.node t.root path sym → path.length ≤ n - 1

/-- R71: HASSIGN gives every symbol of the tree its path, or "0" in the degenerate tree, and no other symbol an
entry.  That the arena holds a tree is the invariant of TablesConsistent. -/
def Obligations.HassignGivesEachSymbolItsPath : Prop :=
  decode 0x00000012 = .command .hassign ∧ ∀ s : State,
    (s.status.treeValid = false → exec .hassign s = .next (s.endsWith .state 1)) ∧
    (s.status.treeValid = true →
      ∃ c, exec .hassign s = .next
        { s with code := c, status := { s.status with codesValid := true, done := true }, inflight := none } ∧
        (TablesConsistent s → IsCodeTable s.node s.root c))

/-- R72: HBUILD then HASSIGN: one code per present symbol, prefix-free, of length 1 to 255, each the path to its
leaf; and the same FREQ gives the same arena and the same table. -/
def Obligations.CodesArePrefixFreeAndDeterministic : Prop :=
  ∀ s : State, present s.freq ≠ [] →
    ∃ t u, exec .hbuild s = .next t ∧ exec .hassign t = .next u ∧
      (∀ sym, codeAt u.code sym ≠ [] ↔ freqAt s.freq sym ≠ 0) ∧
      (∀ x y, x ≠ y → codeAt u.code x ≠ [] → ¬ codeAt u.code x <+: codeAt u.code y) ∧
      (∀ sym, codeAt u.code sym ≠ [] →
        1 ≤ (codeAt u.code sym).length ∧ (codeAt u.code sym).length ≤ 255 ∧
        IsCodeOf u.node u.root sym (codeAt u.code sym)) ∧
      (∀ s' t' u', s'.freq = s.freq → exec .hbuild s' = .next t' → exec .hassign t' = .next u' →
        t'.node = t.node ∧ u'.code = u.code)

/-! ## The Huffman bit stream -/

/-- R73: HEMIT concatenates the codes of the input bytes in order; it stops at the first byte that has no code,
or whose code does not fit, with the earlier codes written and BIT_LEN = 0. -/
def Obligations.HemitConcatenatesTheCodes : Prop :=
  decode 0x00000013 = .command .hemit ∧ ∀ s : State,
    (s.params.bufMax < s.inLen.toNat → exec .hemit s = .next (s.endsWith .parameter 0x010)) ∧
    (s.inLen.toNat ≤ s.params.bufMax → s.status.codesValid = false →
      exec .hemit s = .next (s.endsWith .state 2)) ∧
    (s.status.codesValid = true → s.inLen = 0 → exec .hemit s = .next (s.endsWith .emptyInput 0)) ∧
    (0 < s.inLen.toNat → s.inLen.toNat ≤ s.params.bufMax → s.status.codesValid = true →
      ∀ inp : List Byte, inp.length = s.inLen.toNat → s.inMem.Holds 0 inp →
        let codes (l : List Byte) : List Bool := l.flatMap (codeAt s.code)
        let wrote (bits : Memory Bool) (l : List Byte) : Prop :=
          bits.Holds 0 (codes l) ∧ bits.SameOutside s.bitMem 0 (codes l).length
        ((∀ b ∈ inp, codeAt s.code b ≠ []) → (codes inp).length ≤ s.params.bitMax →
          ∃ bits, exec .hemit s = .next
              { s.endsWell with bitMem := bits, bitLen := BitVec.ofNat 32 (codes inp).length } ∧
            wrote bits inp) ∧
        (∀ pre b post, inp = pre ++ b :: post → (∀ x ∈ pre, codeAt s.code x ≠ []) →
          (codes pre).length ≤ s.params.bitMax →
          (codeAt s.code b = [] → ∃ bits, exec .hemit s = .next
              { s.endsWith .treeMismatch (BitVec.ofNat 32 pre.length) with bitMem := bits, bitLen := 0 } ∧
            wrote bits pre) ∧
          (codeAt s.code b ≠ [] → s.params.bitMax < (codes pre).length + (codeAt s.code b).length →
            ∃ bits, exec .hemit s = .next
                { s.endsWith .capacity (BitVec.ofNat 32 pre.length) with bitMem := bits, bitLen := 0 } ∧
              wrote bits pre)))

/-- R74: HPACK packs the bits most significant first and fills the last byte with zeros. -/
def Obligations.HpackPacksTheBits : Prop :=
  decode 0x00000014 = .command .hpack ∧ ∀ s : State,
    (s.params.bitMax < s.bitLen.toNat → exec .hpack s = .next (s.endsWith .parameter 0x018)) ∧
    (s.bitLen.toNat ≤ s.params.bitMax →
      let n := (s.bitLen.toNat + 7) / 8
      ∃ out d, exec .hpack s = .next
          { s.endsWell with outMem := out, draws := d, outLen := BitVec.ofNat 32 n } ∧
        out.SameOutside s.outMem 0 n ∧
        ∀ bits : List Bool, bits.length = s.bitLen.toNat → s.bitMem.Holds 0 bits →
          d = s.draws ∧ PackedAs out bits)

/-- R75: HUNPACK expands every byte to its eight bits, most significant first; HPACK after it reproduces the bytes. -/
def Obligations.HunpackExpandsTheBytes : Prop :=
  decode 0x00000015 = .command .hunpack ∧ ∀ s : State,
    (s.params.bufMax < s.inLen.toNat → exec .hunpack s = .next (s.endsWith .parameter 0x010)) ∧
    (s.inLen.toNat ≤ s.params.bufMax →
      ∃ bits d, exec .hunpack s = .next
          { s.endsWell with bitMem := bits, draws := d, bitLen := BitVec.ofNat 32 (8 * s.inLen.toNat) } ∧
        bits.SameOutside s.bitMem 0 (8 * s.inLen.toNat) ∧
        ∀ inp : List Byte, inp.length = s.inLen.toNat → s.inMem.Holds 0 inp →
          d = s.draws ∧
          (∀ j m, (h : j < inp.length) → m < 8 → bits.get? (8 * j + m) = some (inp[j].getLsbD (7 - m))) ∧
          ∃ t u, exec .hunpack s = .next t ∧ exec .hpack t = .next u ∧ u.outMem.Holds 0 inp ∧ u.outLen = s.inLen)

/-- R76, the successful walks: SYM_COUNT symbols' codes and at most 7 zero bits decode to the symbols. -/
def Obligations.HwalkDecodesTheSymbols : Prop :=
  ∀ (s : State) (syms : List Byte) (bits pad : List Bool),
    s.bitLen.toNat ≤ s.params.bitMax → s.symCount.toNat ≤ s.params.bufMax →
    (s.symCount ≠ 0 → s.status.treeValid = true) →
    syms.length = s.symCount.toNat → EncodesTo s.node s.root syms bits →
    s.bitLen.toNat = bits.length + pad.length → s.bitMem.Holds 0 (bits ++ pad) →
    pad.length ≤ 7 → true ∉ pad →
    ∃ out, exec .hwalk s = .next { s.endsWell with outMem := out, outLen := s.symCount } ∧
      out.Holds 0 syms ∧ out.SameOutside s.outMem 0 syms.length

/-- R76, the errors: the three checks in order; bits that run out; bits left over; a 1 under a one-leaf tree.
Each execution error leaves the symbols decoded so far and OUT_LEN = 0. -/
def Obligations.HwalkErrorsKeepTheSymbolsSoFar : Prop :=
  decode 0x00000016 = .command .hwalk ∧ ∀ s : State,
    (s.params.bitMax < s.bitLen.toNat → exec .hwalk s = .next (s.endsWith .parameter 0x018)) ∧
    (s.bitLen.toNat ≤ s.params.bitMax → s.params.bufMax < s.symCount.toNat →
      exec .hwalk s = .next (s.endsWith .parameter 0x01C)) ∧
    (s.bitLen.toNat ≤ s.params.bitMax → s.symCount.toNat ≤ s.params.bufMax → s.symCount ≠ 0 →
      s.status.treeValid = false → exec .hwalk s = .next (s.endsWith .state 1)) ∧
    (s.bitLen.toNat ≤ s.params.bitMax → s.symCount.toNat ≤ s.params.bufMax →
      (s.symCount ≠ 0 → s.status.treeValid = true) →
      ∀ (syms : List Byte) (bits rest : List Bool),
        EncodesTo s.node s.root syms bits → s.bitMem.Holds 0 (bits ++ rest) →
        s.bitLen.toNat = bits.length + rest.length →
        let fails (code : ErrCode) (p : Nat) : Prop :=
          ∃ out, exec .hwalk s = .next
              { s.endsWith code (BitVec.ofNat 32 p) with outMem := out, outLen := 0 } ∧
            out.Holds 0 syms ∧ out.SameOutside s.outMem 0 syms.length
        (syms.length < s.symCount.toNat → LeadsInside s.node s.root rest →
          fails .corruptStream (bits.length + rest.length)) ∧
        (syms.length < s.symCount.toNat → (∃ sym, LeadsToLeaf s.node s.root [] sym) → rest = [] →
          fails .corruptStream bits.length) ∧
        (syms.length < s.symCount.toNat → (∃ sym, LeadsToLeaf s.node s.root [] sym) → rest.head? = some true →
          fails .treeMismatch bits.length) ∧
        (syms.length = s.symCount.toNat → (7 < rest.length ∨ true ∈ rest) →
          fails .corruptStream bits.length))

/-- R77, R78: a composite is its stages run in order, ending with the first error; STATUS sees one completion. -/
def Obligations.CompositesRunTheirStagesInOrder : Prop :=
  decode 0x00000018 = .command .hencode ∧ decode 0x00000019 = .command .hdecode ∧
  ∀ s : State, s.status.err = false →
    (∃ t, runStages [.hfreq, .hbuild, .hassign, .hemit, .hpack] s = some t ∧ exec .hencode s = .next t) ∧
    (∃ t, runStages [.hunpack, .hwalk] s = some t ∧ exec .hdecode s = .next t)

/-- R77: HENCODE of a non-empty input that fits completes without an error: the counts, the codes, the bit
string and the packed stream are the input's own. -/
def Obligations.HencodeEncodesItsInput : Prop :=
  ∀ (s : State) (inp : List Byte),
    0 < s.inLen.toNat → s.inLen.toNat ≤ s.params.bufMax → inp.length = s.inLen.toNat → s.inMem.Holds 0 inp →
    ∃ f ns c bits out nc rt,
      let stream := inp.flatMap (codeAt c)
      exec .hencode s = .next
        { s with
          freq := f, node := ns, code := c, nodeCount := nc, root := rt
          bitMem := bits, bitLen := BitVec.ofNat 32 stream.length
          outMem := out, outLen := BitVec.ofNat 32 ((stream.length + 7) / 8)
          status := { s.status with treeValid := true, codesValid := true, done := true }
          inflight := none } ∧
      (∀ sym, (freqAt f sym).toNat = inp.count sym) ∧ IsCodeTable ns rt c ∧
      EncodesTo ns rt inp stream ∧ stream.length ≤ 8 * inp.length ∧
      bits.Holds 0 stream ∧ bits.SameOutside s.bitMem 0 stream.length ∧
      PackedAs out stream ∧ out.SameOutside s.outMem 0 ((stream.length + 7) / 8)

/-- R78: HDECODE of a packed stream gives the SYM_COUNT symbols it encodes under the tree the block holds. -/
def Obligations.HdecodeDecodesItsInput : Prop :=
  ∀ (s : State) (inp syms : List Byte) (bits pad : List Bool),
    s.inLen.toNat ≤ s.params.bufMax → inp.length = s.inLen.toNat → s.inMem.Holds 0 inp →
    (∀ j m, (h : j < inp.length) → m < 8 → (bits ++ pad)[8 * j + m]? = some (inp[j].getLsbD (7 - m))) →
    (bits ++ pad).length = 8 * inp.length → pad.length ≤ 7 → true ∉ pad →
    s.symCount.toNat ≤ s.params.bufMax → syms.length = s.symCount.toNat →
    (s.symCount ≠ 0 → s.status.treeValid = true) → EncodesTo s.node s.root syms bits →
    ∃ mem out, exec .hdecode s = .next
        { s.endsWell with
          bitMem := mem, bitLen := BitVec.ofNat 32 (8 * inp.length), outMem := out, outLen := s.symCount } ∧
      out.Holds 0 syms ∧ out.SameOutside s.outMem 0 syms.length

/-- R79: the Huffman round trip: HDECODE of what HENCODE packed, under the tree HENCODE left, gives the input. -/
def Obligations.HuffmanRoundTripReturnsTheInput : Prop :=
  ∀ (s : State) (inp : List Byte),
    0 < s.inLen.toNat → s.inLen.toNat ≤ s.params.bufMax → inp.length = s.inLen.toNat → s.inMem.Holds 0 inp →
    ∃ t, exec .hencode s = .next t ∧ t.status.err = s.status.err ∧
      ∀ packed : List Byte, packed.length = t.outLen.toNat → t.outMem.Holds 0 packed →
        ∀ u : State, u.params = t.params → u.node = t.node → u.root = t.root → u.status.treeValid = true →
          u.inMem.Holds 0 packed → u.inLen = t.outLen → u.symCount = s.inLen →
          ∃ v, exec .hdecode u = .next v ∧ v.status.err = u.status.err ∧ v.outMem.Holds 0 inp ∧
            v.outLen = s.inLen

/-! ## LZ77 -/

/-- R80-R83: LZMATCH finds the longest match in the window, of equal ones the earliest (the largest offset), and
moves the cursor past it and its literal. -/
def Obligations.LzmatchFindsTheLongestEarliestMatch : Prop :=
  decode 0x00000020 = .command .lzmatch ∧ ∀ s : State,
    (s.params.bufMax < s.inLen.toNat → exec .lzmatch s = .next (s.endsWith .parameter 0x010)) ∧
    (s.inLen = 0 → exec .lzmatch s = .next (s.endsWith .emptyInput 0)) ∧
    (0 < s.inLen.toNat → s.inLen.toNat ≤ s.params.bufMax → s.inLen.toNat ≤ s.cursor.toNat →
      exec .lzmatch s = .next (s.endsWith .parameter 0x024)) ∧
    (s.inLen.toNat ≤ s.params.bufMax → s.cursor.toNat < s.inLen.toNat →
      ∃ tok d, exec .lzmatch s = .next
          { s.endsWell with
            token := tok, draws := d
            cursor := BitVec.ofNat 32 (s.cursor.toNat + tok.length.toNat + 1) } ∧
        ∀ inp : List Byte, inp.length = s.inLen.toNat → s.inMem.Holds 0 inp →
          d = s.draws ∧ IsTokenAt inp s.window.toNat s.cursor.toNat tok)

/-- R84: LZENCODE tokenises the whole input from left to right and stores the records. -/
def Obligations.LzencodeTokenisesTheInput : Prop :=
  decode 0x00000021 = .command .lzencode ∧ ∀ s : State,
    (s.params.bufMax < s.inLen.toNat → exec .lzencode s = .next (s.endsWith .parameter 0x010)) ∧
    (s.inLen = 0 → exec .lzencode s = .next (s.endsWith .emptyInput 0)) ∧
    (0 < s.inLen.toNat → s.inLen.toNat ≤ s.params.bufMax →
      ∃ (toks : List Token) (last : Token) (mem : Memory Byte) (d : Nat), exec .lzencode s = .next
          { s.endsWell with
            cursor := s.inLen, token := last, tokMem := mem, draws := d
            tokBytes := BitVec.ofNat 32 (4 * toks.length) } ∧
        0 < toks.length ∧ toks.length ≤ s.inLen.toNat ∧ toks.getLast? = some last ∧
        mem.Holds 0 (toks.flatMap (fun t =>
          [t.offset.extractLsb' 0 8, t.offset.extractLsb' 8 8, t.length, t.next])) ∧
        mem.SameOutside s.tokMem 0 (4 * toks.length) ∧
        ∀ inp : List Byte, inp.length = s.inLen.toNat → s.inMem.Holds 0 inp →
          d = s.draws ∧ IsTokenStream inp s.window.toNat 0 toks)

/-- R85, R113: LZDECODE appends the tokens of the stream one after another, copies byte by byte. -/
def Obligations.LzdecodeReconstructsTheOutput : Prop :=
  ∀ (s : State) (toks : List Token) (out : List Byte),
    toks.length ≤ s.params.tokMax → s.tokBytes.toNat = 4 * toks.length →
    s.tokMem.Holds 0 (toks.flatMap (fun t =>
      [t.offset.extractLsb' 0 8, t.offset.extractLsb' 8 8, t.length, t.next])) →
    Reconstructs [] toks out → out.length ≤ s.params.bufMax →
    ∃ mem, exec .lzdecode s = .next
        { s.endsWell with outMem := mem, outLen := BitVec.ofNat 32 out.length } ∧
      mem.Holds 0 out ∧ mem.SameOutside s.outMem 0 out.length

/-- R85, the errors: the two checks in order; then the first token whose offset reaches before the output, or is
0 with a length, or which would pass BUF_MAX.  An execution error leaves the bytes of the earlier tokens. -/
def Obligations.LzdecodeErrorsKeepTheBytesSoFar : Prop :=
  decode 0x00000022 = .command .lzdecode ∧ ∀ s : State,
    (4 * s.params.tokMax < s.tokBytes.toNat → exec .lzdecode s = .next (s.endsWith .parameter 0x02C)) ∧
    (s.tokBytes.toNat ≤ 4 * s.params.tokMax → s.tokBytes.toNat % 4 ≠ 0 →
      exec .lzdecode s = .next (s.endsWith .corruptStream s.tokBytes)) ∧
    (∀ (pre : List Token) (t : Token) (post : List Token) (out : List Byte),
      s.tokBytes.toNat = 4 * (pre ++ t :: post).length → (pre ++ t :: post).length ≤ s.params.tokMax →
      s.tokMem.Holds 0 ((pre ++ t :: post).flatMap (fun t =>
        [t.offset.extractLsb' 0 8, t.offset.extractLsb' 8 8, t.length, t.next])) →
      Reconstructs [] pre out → out.length ≤ s.params.bufMax →
      let fails (code : ErrCode) : Prop :=
        ∃ mem, exec .lzdecode s = .next
            { s.endsWith code (BitVec.ofNat 32 pre.length) with outMem := mem, outLen := 0 } ∧
          mem.Holds 0 out ∧ mem.SameOutside s.outMem 0 out.length
      let literal := t.offset.toNat = 0 ∧ t.length.toNat = 0
      (literal → s.params.bufMax < out.length + 1 → fails .capacity) ∧
      (¬ literal → (t.offset.toNat = 0 ∨ out.length < t.offset.toNat) → fails .invalidOffset) ∧
      (¬ literal → 0 < t.offset.toNat → t.offset.toNat ≤ out.length →
        s.params.bufMax < out.length + t.length.toNat + 1 → fails .capacity))

/-- R86: the LZ77 round trip, for every window size: LZDECODE of what LZENCODE left gives the input back. -/
def Obligations.LzRoundTripReturnsTheInput : Prop :=
  ∀ (s : State) (inp : List Byte),
    0 < s.inLen.toNat → s.inLen.toNat ≤ s.params.bufMax → inp.length = s.inLen.toNat → s.inMem.Holds 0 inp →
    ∃ t u, exec .lzencode s = .next t ∧ exec .lzdecode t = .next u ∧
      u.status.err = s.status.err ∧ u.outMem.Holds 0 inp ∧ u.outLen = s.inLen

/-! ## Whole-machine rules -/

/-- R57, R33, R115: what a command does not write, it leaves: only the listed commands write each item, no
command writes IN_MEM, CTRL, WINDOW or OVR, and none reaches outside the block's own state. -/
def Obligations.CommandsWriteOnlyTheirOwnState : Prop :=
  ∀ (i : Instr) (s t : State), exec i s = .next t →
    (t.params = s.params ∧ t.irqEn = s.irqEn ∧ t.window = s.window ∧ t.status.ovr = s.status.ovr ∧
      t.inMem = s.inMem ∧ t.rst = s.rst ∧ t.response = s.response ∧ t.pending = s.pending) ∧
    (i ∉ [.clear, .hfreq, .hencode] → t.freq = s.freq) ∧
    (i ∉ [.clear, .hbuild, .hencode] →
      t.node = s.node ∧ t.nodeCount = s.nodeCount ∧ t.root = s.root ∧ t.status.treeValid = s.status.treeValid) ∧
    (i ∉ [.clear, .hbuild, .hassign, .hencode] →
      t.code = s.code ∧ t.status.codesValid = s.status.codesValid) ∧
    (i ∉ [.hemit, .hunpack, .hencode, .hdecode] → t.bitMem = s.bitMem) ∧
    (i ∉ [.clear, .hemit, .hunpack, .hencode, .hdecode] → t.bitLen = s.bitLen) ∧
    (i ∉ [.hpack, .hwalk, .hencode, .hdecode, .lzdecode] → t.outMem = s.outMem) ∧
    (i ∉ [.clear, .hpack, .hwalk, .hencode, .hdecode, .lzdecode] → t.outLen = s.outLen) ∧
    (i ≠ .lzencode → t.tokMem = s.tokMem) ∧
    (i ∉ [.clear, .lzencode] → t.tokBytes = s.tokBytes) ∧
    (i ∉ [.clear, .lzmatch, .lzencode] → t.token = s.token ∧ t.cursor = s.cursor) ∧
    (i ≠ .clear → t.inLen = s.inLen ∧ t.symCount = s.symCount)

/-- R33-R36, R39: every step keeps each memory in canonical form and within its size. -/
def Obligations.StepsKeepMemoriesCanonical : Prop :=
  ∀ s t : State, MemoriesCanonical s → step s = .next t → MemoriesCanonical t

/-- R20, R93, R107, R112: every step keeps the status fields consistent. -/
def Obligations.StepsKeepStatusConsistent : Prop :=
  ∀ s t : State, StatusConsistent s → step s = .next t → StatusConsistent t

/-- R38: every step keeps what TREE_VALID and CODES_VALID promise. -/
def Obligations.StepsKeepTablesConsistent : Prop :=
  ∀ s t : State, TablesConsistent s → step s = .next t → TablesConsistent t

/-- The three invariants hold right after reset. -/
def Obligations.ResetMeetsTheInvariants : Prop :=
  MemoriesCanonical State.reset ∧ StatusConsistent State.reset ∧ TablesConsistent State.reset
end

