-- ==== Sys2Proof/Laws/Memory.lean ====
section
/-! SUPPORT. The laws of the internal memories (10_state.md R39): what a read finds after a write, that every
operation keeps the canonical form, and that equal memories are equal data. -/

namespace Sys2Proof.Machine

variable {α : Type}

/-! ## Reading after writing -/

@[simp] theorem Memory.get?_nil (a : Nat) : Memory.get? ([] : Memory α) a = none := rfl

theorem Memory.get?_cons (b : Nat) (u : α) (m : Memory α) (a : Nat) :
    Memory.get? ((b, u) :: m) a = if a = b then some u else Memory.get? m a := rfl

/-- A read after a write to the same element gives the value written; any other element is left alone. -/
theorem Memory.get?_write (m : Memory α) (a : Nat) (v : α) (b : Nat) :
    (m.write a v).get? b = if b = a then some v else m.get? b := by
  induction m with
  | nil => simp [Memory.write, Memory.get?_cons]
  | cons c m ih =>
    obtain ⟨k, u⟩ := c
    simp only [Memory.write]
    split
    · rfl
    · split
      · subst_vars; simp only [Memory.get?_cons]; split <;> rfl
      · simp only [Memory.get?_cons, ih]; split_ifs <;> simp_all

@[simp] theorem Memory.get?_write_self (m : Memory α) (a : Nat) (v : α) : (m.write a v).get? a = some v := by
  simp [Memory.get?_write]

theorem Memory.get?_write_ne (m : Memory α) {a b : Nat} (v : α) (h : b ≠ a) : (m.write a v).get? b = m.get? b := by
  simp [Memory.get?_write, h]

/-- What a read finds after a run of writes. -/
theorem Memory.get?_writeList (m : Memory α) (a : Nat) (vs : List α) (b : Nat) :
    (m.writeList a vs).get? b = if a ≤ b ∧ b < a + vs.length then vs[b - a]? else m.get? b := by
  induction vs generalizing m a with
  | nil => rw [if_neg (fun h => by simp at h; omega)]; rfl
  | cons v vs ih =>
    simp only [Memory.writeList, ih, Memory.get?_write, List.length_cons]
    rcases Nat.lt_trichotomy b a with h | h | h
    · rw [if_neg (by omega), if_neg (by omega), if_neg (by omega)]
    · subst h; simp
    · by_cases h2 : b < a + (vs.length + 1)
      · rw [if_pos (by omega), if_pos (by omega), show b - a = (b - (a + 1)) + 1 by omega, List.getElem?_cons_succ]
      · rw [if_neg (by omega), if_neg (by omega), if_neg (by omega)]

/-! ## Runs of values -/

theorem Memory.writeList_append (m : Memory α) (a : Nat) (vs ws : List α) :
    m.writeList a (vs ++ ws) = (m.writeList a vs).writeList (a + vs.length) ws := by
  induction vs generalizing m a with
  | nil => rfl
  | cons v vs ih =>
    simp only [List.cons_append, Memory.writeList, List.length_cons, ih]
    rw [show a + 1 + vs.length = a + (vs.length + 1) by omega]

theorem Memory.Holds.get? {m : Memory α} {a : Nat} {vs : List α} (h : m.Holds a vs) {k : Nat} (hk : k < vs.length) :
    m.get? (a + k) = some vs[k] := h k hk

/-- A run of writes leaves the memory holding what was written, and everything else as it was. -/
theorem Memory.holds_writeList (m : Memory α) (a : Nat) (vs : List α) : (m.writeList a vs).Holds a vs := by
  intro k hk
  rw [Memory.get?_writeList, if_pos (by omega), show a + k - a = k by omega, List.getElem?_eq_getElem hk]

theorem Memory.sameOutside_writeList (m : Memory α) (a : Nat) (vs : List α) :
    (m.writeList a vs).SameOutside m a (a + vs.length) := by
  intro b hb
  rw [Memory.get?_writeList, if_neg (by omega)]

theorem Memory.SameOutside.refl (m : Memory α) (lo hi : Nat) : m.SameOutside m lo hi := fun _ _ => rfl

theorem Memory.SameOutside.trans {m1 m2 m3 : Memory α} {lo hi : Nat} (h : m3.SameOutside m2 lo hi)
    (h' : m2.SameOutside m1 lo hi) : m3.SameOutside m1 lo hi :=
  fun a ha => (h a ha).trans (h' a ha)

theorem Memory.SameOutside.mono {m m' : Memory α} {lo hi lo' hi' : Nat} (h : m'.SameOutside m lo hi)
    (hl : lo' ≤ lo) (hh : hi ≤ hi') : m'.SameOutside m lo' hi' :=
  fun a ha => h a (by omega)

theorem Memory.sameOutside_write (m : Memory α) {a lo hi : Nat} (v : α) (h : lo ≤ a) (h' : a < hi) :
    (m.write a v).SameOutside m lo hi :=
  fun b hb => Memory.get?_write_ne m v (by omega)

theorem Memory.holds_nil (m : Memory α) (a : Nat) : m.Holds a [] := fun k hk => absurd hk (by simp)

theorem Memory.holds_cons {m : Memory α} {a : Nat} {v : α} {vs : List α} :
    m.Holds a (v :: vs) ↔ m.get? a = some v ∧ m.Holds (a + 1) vs := by
  constructor
  · intro h
    refine ⟨h 0 (by simp), fun k hk => ?_⟩
    have := h (k + 1) (by simpa using hk)
    simpa [Nat.add_assoc, Nat.add_comm 1 k] using this
  · rintro ⟨h0, h⟩ k hk
    cases k with
    | zero => simpa using h0
    | succ k =>
      have := h k (by simpa using hk)
      simpa [Nat.add_assoc, Nat.add_comm 1 k] using this

theorem Memory.holds_append {m : Memory α} {a : Nat} {vs ws : List α} :
    m.Holds a (vs ++ ws) ↔ m.Holds a vs ∧ m.Holds (a + vs.length) ws := by
  induction vs generalizing a with
  | nil => simpa using fun _ => Memory.holds_nil m a
  | cons v vs ih =>
    rw [List.cons_append, Memory.holds_cons, ih, Memory.holds_cons, and_assoc, List.length_cons,
      show a + 1 + vs.length = a + (vs.length + 1) by omega]

/-- Two runs of one length that one memory holds at one place are the same. -/
theorem Memory.Holds.unique {m : Memory α} {a : Nat} {vs ws : List α} (h : m.Holds a vs) (h' : m.Holds a ws)
    (hl : vs.length = ws.length) : vs = ws := by
  refine List.ext_getElem hl (fun k hk hk' => ?_)
  have := (h k hk).symm.trans (h' k hk')
  simpa using this

theorem Memory.Holds.congr {m m' : Memory α} {a : Nat} {vs : List α} (h : m.Holds a vs)
    (hm : ∀ k, k < vs.length → m'.get? (a + k) = m.get? (a + k)) : m'.Holds a vs :=
  fun k hk => (hm k hk).trans (h k hk)

/-! ## Free values -/

/-- A read of an element something has written gives its value and draws nothing. -/
theorem Memory.fetch_of_get? {free : Nat → α} {m : Memory α} {a d : Nat} {v : α} (h : m.get? a = some v) :
    m.fetch free a d = (v, d) := by
  simp [Memory.fetch, h]

/-- A read of an element nothing has written is one fresh draw. -/
theorem Memory.fetch_of_none {free : Nat → α} {m : Memory α} {a d : Nat} (h : m.get? a = none) :
    m.fetch free a d = (free d, d + 1) := by
  simp [Memory.fetch, h]

theorem readByte_of_get? {m : Memory Byte} {a d : Nat} {v : Byte} (h : m.get? a = some v) : readByte m a d = (v, d) :=
  Memory.fetch_of_get? h

theorem readBit_of_get? {m : Memory Bool} {a d : Nat} {v : Bool} (h : m.get? a = some v) : readBit m a d = (v, d) :=
  Memory.fetch_of_get? h

/-! ## The canonical form -/

theorem Memory.keys_write (m : Memory α) (a : Nat) (v : α) (k : Nat) :
    k ∈ (m.write a v).map Prod.fst ↔ k = a ∨ k ∈ m.map Prod.fst := by
  induction m with
  | nil => simp [Memory.write]
  | cons c m ih =>
    obtain ⟨b, u⟩ := c
    simp only [Memory.write]
    split
    · simp
    · split
      · subst_vars; simp
      · simp only [List.map_cons, List.mem_cons, ih]; tauto

theorem Memory.wf_write {m : Memory α} (h : m.wf) (a : Nat) (v : α) : (m.write a v).wf := by
  induction m with
  | nil => simp [Memory.write, Memory.wf]
  | cons c m ih =>
    obtain ⟨b, u⟩ := c
    simp only [Memory.wf, List.map_cons, List.pairwise_cons] at h ih
    simp only [Memory.write]
    split
    · rename_i hab
      simp only [Memory.wf, List.map_cons, List.pairwise_cons, List.mem_cons]
      exact ⟨by rintro k (rfl | hk); exacts [hab, hab.trans (h.1 k hk)], h⟩
    · split
      · subst_vars; simpa only [Memory.wf, List.map_cons, List.pairwise_cons] using h
      · simp only [Memory.wf, List.map_cons, List.pairwise_cons]
        refine ⟨fun k hk => ?_, ih h.2⟩
        rcases (Memory.keys_write m a v k).1 hk with rfl | hk
        · omega
        · exact h.1 k hk

theorem Memory.below_iff (m : Memory α) (n : Nat) : m.below n ↔ ∀ k ∈ m.map Prod.fst, k < n := by
  simp only [Memory.below, List.mem_map]
  constructor
  · rintro h k ⟨c, hc, rfl⟩; exact h c hc
  · exact fun h c hc => h c.1 ⟨c, hc, rfl⟩

theorem Memory.below_write {m : Memory α} {n a : Nat} (h : m.below n) (ha : a < n) (v : α) : (m.write a v).below n := by
  rw [Memory.below_iff] at *
  intro k hk
  rcases (Memory.keys_write m a v k).1 hk with rfl | hk
  exacts [ha, h k hk]

theorem Memory.wf_writeList {m : Memory α} (h : m.wf) (a : Nat) (vs : List α) : (m.writeList a vs).wf := by
  induction vs generalizing m a with
  | nil => exact h
  | cons v vs ih => exact ih (Memory.wf_write h a v) (a + 1)

theorem Memory.below_writeList {m : Memory α} {n a : Nat} (h : m.below n) (vs : List α) (ha : a + vs.length ≤ n) :
    (m.writeList a vs).below n := by
  induction vs generalizing m a with
  | nil => exact h
  | cons v vs ih =>
    simp only [List.length_cons] at ha
    exact ih (Memory.below_write h (by omega) v) (by omega)

/-- Nothing is listed at or above the bound. -/
theorem Memory.get?_of_below {m : Memory α} {n : Nat} (h : m.below n) {a : Nat} (ha : n ≤ a) : m.get? a = none := by
  induction m with
  | nil => rfl
  | cons c m ih =>
    obtain ⟨b, u⟩ := c
    have hb : b < n := h (b, u) (by simp)
    rw [Memory.get?_cons, if_neg (by omega)]
    exact ih (fun c hc => h c (List.mem_cons_of_mem _ hc))

theorem Memory.get?_eq_none_of_lt {b : Nat} {m : Memory α} (h : ∀ k ∈ m.map Prod.fst, b < k) {a : Nat} (ha : a ≤ b) :
    m.get? a = none := by
  induction m with
  | nil => rfl
  | cons c m ih =>
    obtain ⟨k, u⟩ := c
    have := h k (by simp)
    rw [Memory.get?_cons, if_neg (by omega)]
    exact ih (fun k hk => h k (List.mem_cons_of_mem _ hk))

/-- Equal memories are equal data: two canonical memories that read the same are the same list. -/
theorem Memory.ext {m m' : Memory α} (h : m.wf) (h' : m'.wf) (hm : ∀ a, m.get? a = m'.get? a) : m = m' := by
  induction m generalizing m' with
  | nil =>
    cases m' with
    | nil => rfl
    | cons c m' => obtain ⟨b, u⟩ := c; simpa [Memory.get?_cons] using hm b
  | cons c m ih =>
    obtain ⟨a, v⟩ := c
    cases m' with
    | nil => simpa [Memory.get?_cons] using hm a
    | cons c' m' =>
      obtain ⟨b, u⟩ := c'
      simp only [Memory.wf, List.map_cons, List.pairwise_cons] at h h'
      have hab : a = b := by
        rcases Nat.lt_trichotomy a b with hlt | heq | hlt
        · have := hm a
          rw [Memory.get?_cons, if_pos rfl, Memory.get?_cons, if_neg (by omega),
            Memory.get?_eq_none_of_lt (b := b) h'.1 (by omega)] at this
          simp at this
        · exact heq
        · have := hm b
          rw [Memory.get?_cons, if_neg (by omega), Memory.get?_cons, if_pos rfl,
            Memory.get?_eq_none_of_lt (b := a) h.1 (by omega)] at this
          simp at this
      subst hab
      have hv : v = u := by simpa [Memory.get?_cons] using hm a
      subst hv
      have : m = m' := by
        refine ih h.2 h'.2 (fun k => ?_)
        by_cases hk : k = a
        · subst hk
          rw [Memory.get?_eq_none_of_lt h.1 le_rfl, Memory.get?_eq_none_of_lt h'.1 le_rfl]
        · simpa [Memory.get?_cons, hk] using hm k
      rw [this]

end Sys2Proof.Machine
end

