-- ==== Sys2Proof/Laws/Frequency.lean ====
section
/-! SUPPORT. The counting loop of HFREQ (40_huffman_tree.md R68): what it counts, and that the counts add up. -/

namespace Sys2Proof.Machine

@[simp] theorem freqAt_noCounts (sym : Byte) : freqAt noCounts sym = 0 := by simp [freqAt, noCounts]

@[simp] theorem codeAt_noCodes (sym : Byte) : codeAt noCodes sym = [] := by simp [codeAt, noCodes]

/-- Counting a byte adds one to its entry and leaves the others. -/
theorem freqAt_bumpCount (f : Vector Word 256) (sym v : Byte) :
    freqAt (bumpCount f sym) v = if v = sym then freqAt f sym + 1 else freqAt f v := by
  simp only [freqAt, bumpCount, Vector.getElem_set]
  by_cases h : v = sym
  · simp [h]
  · rw [if_neg (fun h' => h (BitVec.eq_of_toNat_eq h'.symm)), if_neg h]

/-- Over written bytes the loop is a fold over those bytes, and draws nothing. -/
theorem countBytes_of_holds {m : Memory Byte} {inp : List Byte} {j : Nat} (h : m.Holds j inp)
    (f : Vector Word 256) (d : Nat) : countBytes m inp.length j f d = (inp.foldl bumpCount f, d) := by
  induction inp generalizing j f with
  | nil => rfl
  | cons b inp ih =>
    obtain ⟨hb, h⟩ := Memory.holds_cons.1 h
    simp only [List.length_cons, countBytes, readByte_of_get? hb, List.foldl_cons]
    exact ih h _

theorem freqAt_foldl_bumpCount (inp : List Byte) (f : Vector Word 256) (v : Byte) :
    freqAt (inp.foldl bumpCount f) v = freqAt f v + BitVec.ofNat 32 (inp.count v) := by
  induction inp generalizing f with
  | nil => simp
  | cons b inp ih =>
    rw [List.foldl_cons, ih, freqAt_bumpCount, List.count_cons]
    by_cases h : v = b
    · simp only [h, if_true, beq_self_eq_true, BitVec.ofNat_add]
      rw [BitVec.add_assoc, BitVec.add_comm 1]; rfl
    · rw [if_neg h, if_neg (by simpa using Ne.symm h), Nat.add_zero]

/-- The counts of a fresh table over an input that fits the count's width. -/
theorem freqAt_count (inp : List Byte) (h : inp.length < 2 ^ 32) (v : Byte) :
    (freqAt (inp.foldl bumpCount noCounts) v).toNat = inp.count v := by
  have := List.count_le_length (a := v) (l := inp)
  rw [freqAt_foldl_bumpCount, freqAt_noCounts, show (0 : Word) = 0#32 from rfl, BitVec.zero_add, BitVec.toNat_ofNat, Nat.mod_eq_of_lt (by omega)]

/-! ## The sum of the counts -/

/-- The sum of a frequency table. -/
def tableSum (f : Vector Word 256) : Nat := (f.toList.map BitVec.toNat).sum

theorem sum_map_set (l : List Word) {i : Nat} (hi : i < l.length) (x : Word) :
    ((l.set i x).map BitVec.toNat).sum + l[i].toNat = (l.map BitVec.toNat).sum + x.toNat := by
  induction l generalizing i with
  | nil => simp at hi
  | cons a l ih =>
    cases i with
    | zero => simp only [List.set_cons_zero, List.map_cons, List.sum_cons, List.getElem_cons_zero]; omega
    | succ i =>
      have := ih (i := i) (by simpa using hi)
      simp only [List.set_cons_succ, List.map_cons, List.sum_cons, List.getElem_cons_succ]
      omega

theorem getElem_le_sum (l : List Word) {i : Nat} (hi : i < l.length) : l[i].toNat ≤ (l.map BitVec.toNat).sum := by
  induction l generalizing i with
  | nil => simp at hi
  | cons a l ih =>
    cases i with
    | zero => simp
    | succ i => have := ih (i := i) (by simpa using hi); simp only [List.map_cons, List.sum_cons, List.getElem_cons_succ]; omega

theorem tableSum_bumpCount (f : Vector Word 256) (sym : Byte) (h : tableSum f + 1 < 2 ^ 32) :
    tableSum (bumpCount f sym) = tableSum f + 1 := by
  have hi : sym.toNat < f.toList.length := by simpa using sym.isLt
  have h1 := sum_map_set f.toList hi (freqAt f sym + 1)
  have h2 := getElem_le_sum f.toList hi
  have h3 : f.toList[sym.toNat] = freqAt f sym := by simp [freqAt]
  have h4 : (freqAt f sym + 1).toNat = (freqAt f sym).toNat + 1 := by
    rw [BitVec.toNat_add]
    simp only [tableSum] at h
    rw [h3] at h2
    exact Nat.mod_eq_of_lt (by have : (1 : Word).toNat = 1 := rfl; omega)
  have h5 : (bumpCount f sym).toList = f.toList.set sym.toNat (freqAt f sym + 1) := rfl
  simp only [tableSum, h5]
  rw [h3, h4] at h1
  omega

/-- The counts add up to the number of bytes counted, written or not (R68, R38). -/
theorem tableSum_countBytes (m : Memory Byte) (k j : Nat) (f : Vector Word 256) (d : Nat)
    (h : tableSum f + k < 2 ^ 32) : tableSum (countBytes m k j f d).1 = tableSum f + k := by
  induction k generalizing j f d with
  | zero => rfl
  | succ k ih =>
    simp only [countBytes]
    have hb := tableSum_bumpCount f (readByte m j d).1 (by omega)
    rw [ih _ _ _ (by omega), hb]
    omega

theorem tableSum_noCounts : tableSum noCounts = 0 := by
  have : noCounts.toList = List.replicate 256 0 := rfl
  rw [tableSum, this, List.map_replicate, List.sum_replicate]; rfl

end Sys2Proof.Machine
end

