-- ==== Sys2Proof/Laws/TreeBuild.lean ====
section
/-! SUPPORT. The leaves and the merge loop of HBUILD (40_huffman_tree.md R66, R69): what a pop takes, what every
pass leaves, and the arena's shape at the end (R70). -/

namespace Sys2Proof.Machine

/-! ## Extraction order (R66) -/

/-- Entry i of an arena under construction. -/
def nodeL (ns : List Node) (i : Nat) : Node := ns.getD i Node.zero

/-- Its frequency as a number. -/
def weightL (ns : List Node) (i : Nat) : Nat := (nodeL ns i).freq.toNat

theorem keyLt_iff (ns : List Node) (i j : Nat) :
    keyLt ns i j = true ↔ weightL ns i < weightL ns j ∨ (weightL ns i = weightL ns j ∧ i < j) := by
  simp only [keyLt, freqOfNode, weightL, nodeL, Bool.or_eq_true, Bool.and_eq_true, decide_eq_true_eq, beq_iff_eq,
    BitVec.lt_def, BitVec.toNat_inj]

/-- The index `leastKey` picks is in the queue and below every other. -/
theorem leastKey_spec (ns : List Node) (best : Nat) (q : List Nat) :
    leastKey ns best q ∈ best :: q ∧
    ∀ c ∈ best :: q, c ≠ leastKey ns best q → keyLt ns (leastKey ns best q) c = true := by
  induction q generalizing best with
  | nil => simp [leastKey]
  | cons i q ih =>
    obtain ⟨hm, hl⟩ := ih (if keyLt ns i best = true then i else best)
    have he : leastKey ns best (i :: q) = leastKey ns (if keyLt ns i best = true then i else best) q := rfl
    rw [he]
    set r := leastKey ns (if keyLt ns i best = true then i else best) q with hr
    clear_value r
    by_cases h : keyLt ns i best = true
    · simp only [h, if_true] at hm hl
      refine ⟨by simp only [List.mem_cons] at hm ⊢; tauto, fun c hc hne => ?_⟩
      simp only [List.mem_cons] at hc
      rcases hc with rfl | rfl | hc
      · by_cases hri : r = i
        · exact hri ▸ h
        · have h1 := (keyLt_iff ns r i).1 (hl i (by simp) (Ne.symm hri))
          have h2 := (keyLt_iff ns i c).1 h
          exact (keyLt_iff ns r c).2 (by omega)
      · exact hl c (by simp) hne
      · exact hl c (by simp [hc]) hne
    · rw [if_neg h] at hm hl
      refine ⟨by simp only [List.mem_cons] at hm ⊢; tauto, fun c hc hne => ?_⟩
      simp only [List.mem_cons] at hc
      rcases hc with rfl | rfl | hc
      · exact hl c (by simp) hne
      · rw [keyLt_iff] at h ⊢
        by_cases hrb : r = best
        · subst hrb; omega
        · have h1 := (keyLt_iff ns r best).1 (hl best (by simp) (Ne.symm hrb))
          omega
      · exact hl c (by simp [hc]) hne

/-- A pop of a non-empty queue takes its least index out (R66). -/
theorem popLeast_spec {ns : List Node} {q : List Nat} {a : Nat} {q' : List Nat} (h : popLeast ns q = some (a, q')) :
    a ∈ q ∧ q' = q.erase a ∧ ∀ c ∈ q, c ≠ a → keyLt ns a c = true := by
  cases q with
  | nil => simp [popLeast] at h
  | cons i q =>
    simp only [popLeast, Option.some.injEq, Prod.mk.injEq] at h
    obtain ⟨rfl, rfl⟩ := h
    exact ⟨(leastKey_spec ns i q).1, rfl, (leastKey_spec ns i q).2⟩

theorem popLeast_eq_none {ns : List Node} {q : List Nat} : popLeast ns q = none ↔ q = [] := by
  cases q <;> simp [popLeast]

/-! ## The leaves (R69) -/

theorem leavesFrom_eq (sym : Nat) (l : List Word) :
    leavesFrom sym l = ((List.range l.length).filter (fun k => l.getD k 0 ≠ 0)).map
      (fun k => Node.leaf (BitVec.ofNat 8 (sym + k)) ((l.getD k 0).setWidth 40)) := by
  induction l generalizing sym with
  | nil => rfl
  | cons f l ih =>
    have hs : ∀ k, sym + 1 + k = sym + (k + 1) := by intro k; omega
    simp only [leavesFrom, List.length_cons, List.range_succ_eq_map, List.filter_cons, List.getD_cons_zero,
      List.filter_map, ih]
    by_cases h : f = 0
    · simp [h, List.map_map, Function.comp_def, hs]
    · have h' : ¬ f = 0#32 := h
      simp [h', List.map_map, Function.comp_def, hs]

/-- One leaf per present symbol, ascending (R69). -/
theorem leaves_eq (f : Vector Word 256) :
    leavesFrom 0 f.toList = (present f).map
      (fun v => Node.leaf (BitVec.ofNat 8 v) ((freqAt f (BitVec.ofNat 8 v)).setWidth 40)) := by
  have hg : ∀ v, v < 256 → f.toList.getD v 0 = freqAt f (BitVec.ofNat 8 v) := by
    intro v hv
    have : v % 256 = v := Nat.mod_eq_of_lt hv
    simp [freqAt, List.getD_eq_getElem?_getD, hv, this]
  rw [leavesFrom_eq, present]
  simp only [Vector.length_toList, Nat.zero_add]
  have h1 : (List.range 256).filter (fun k => decide (f.toList.getD k 0 ≠ 0)) =
      (List.range 256).filter (fun v => decide (freqAt f (BitVec.ofNat 8 v) ≠ 0)) :=
    List.filter_congr (fun v hv => by rw [hg v (List.mem_range.1 hv)])
  rw [h1]
  apply List.map_congr_left
  intro v hv
  have hv : v < 256 := List.mem_range.1 (List.mem_filter.1 hv).1
  rw [hg v hv]

theorem present_length_le (f : Vector Word 256) : (present f).length ≤ 256 := by
  have := List.length_filter_le (fun v => decide (freqAt f (BitVec.ofNat 8 v) ≠ 0)) (List.range 256)
  simpa [present] using this

theorem leaves_length (f : Vector Word 256) : (leavesFrom 0 f.toList).length = (present f).length := by
  simp [leaves_eq]

/-! ## The merge loop (R69) -/

/-- `Waiting` on an arena under construction. -/
def WaitL (ns : List Node) (n k i : Nat) : Prop := i < k ∧ ∀ j, n ≤ j → j < k → ¬ (nodeL ns j).hasChild i

/-- `MergesTheTwoLeast` on an arena under construction. -/
def MergesL (ns : List Node) (n k : Nat) : Prop :=
  ∃ a b, nodeL ns k = .internal (freqOfNode ns a + freqOfNode ns b) (BitVec.ofNat 9 a) (BitVec.ofNat 9 b) ∧
    WaitL ns n k a ∧ WaitL ns n k b ∧ keyLt ns a b = true ∧
    ∀ c, WaitL ns n k c → c ≠ a → c ≠ b → keyLt ns b c = true

theorem nodeL_append_left {ns ms : List Node} {i : Nat} (h : i < ns.length) : nodeL (ns ++ ms) i = nodeL ns i := by
  simp [nodeL, List.getD_eq_getElem?_getD, List.getElem?_append_left h]

theorem nodeL_append_self (ns : List Node) (x : Node) : nodeL (ns ++ [x]) ns.length = x := by
  simp [nodeL, List.getD_eq_getElem?_getD]

theorem weightL_append_left {ns ms : List Node} {i : Nat} (h : i < ns.length) :
    weightL (ns ++ ms) i = weightL ns i := by
  rw [weightL, nodeL_append_left h, weightL]

theorem keyLt_append {ns ms : List Node} {i j : Nat} (hi : i < ns.length) (hj : j < ns.length) :
    keyLt (ns ++ ms) i j = keyLt ns i j := by
  rw [Bool.eq_iff_iff, keyLt_iff, keyLt_iff, weightL_append_left hi, weightL_append_left hj]

theorem waitL_append {ns ms : List Node} {n k i : Nat} (hk : k ≤ ns.length) :
    WaitL (ns ++ ms) n k i ↔ WaitL ns n k i := by
  unfold WaitL
  constructor
  · rintro ⟨h1, h2⟩
    exact ⟨h1, fun j h3 h4 => by have := h2 j h3 h4; rwa [nodeL_append_left (by omega)] at this⟩
  · rintro ⟨h1, h2⟩
    exact ⟨h1, fun j h3 h4 => by rw [nodeL_append_left (by omega)]; exact h2 j h3 h4⟩

theorem mergesL_append {ns ms : List Node} {n k : Nat} (hk : k < ns.length) (h : MergesL ns n k) :
    MergesL (ns ++ ms) n k := by
  obtain ⟨a, b, h1, h2, h3, h4, h5⟩ := h
  have ha : a < ns.length := h2.1.trans hk
  have hb : b < ns.length := h3.1.trans hk
  refine ⟨a, b, ?_, (waitL_append hk.le).2 h2, (waitL_append hk.le).2 h3, by rwa [keyLt_append ha hb], ?_⟩
  · rw [nodeL_append_left hk, h1]
    simp only [freqOfNode]
    have e : ∀ i, i < ns.length → (ns ++ ms).getD i Node.zero = ns.getD i Node.zero :=
      fun i hi => nodeL_append_left hi
    rw [e a ha, e b hb]
  · intro c hc hca hcb
    have hc' := (waitL_append hk.le).1 hc
    rw [keyLt_append hb (hc'.1.trans hk)]
    exact h5 c hc' hca hcb

/-- What holds before every pass of the merge loop over n leaves with total frequency w. -/
structure Merging (n w : Nat) (q : List Nat) (ns : List Node) : Prop where
  size : 1 ≤ n ∧ n ≤ 256
  length : n ≤ ns.length ∧ ns.length + q.length = 2 * n ∧ 1 ≤ q.length
  nodup : q.Nodup
  waiting : ∀ i, i ∈ q ↔ WaitL ns n ns.length i
  leaf : ∀ i, i < n → ∃ sym f, nodeL ns i = .leaf sym f
  merges : ∀ k, n ≤ k → k < ns.length → MergesL ns n k
  total : (q.map (weightL ns)).sum = w ∧ w < 2 ^ 40

theorem hasChild_internal_ofNat {f : BitVec 40} {a b i : Nat} (ha : a < 512) (hb : b < 512) :
    (Node.internal f (BitVec.ofNat 9 a) (BitVec.ofNat 9 b)).hasChild i ↔ a = i ∨ b = i := by
  simp only [Node.hasChild, BitVec.toNat_ofNat, Nat.reducePow, Nat.mod_eq_of_lt ha, Nat.mod_eq_of_lt hb]

theorem sum_map_erase (f : Nat → Nat) {q : List Nat} {a : Nat} (h : a ∈ q) :
    f a + ((q.erase a).map f).sum = (q.map f).sum := by
  have := (List.perm_cons_erase h).map f
  simpa using this.sum_eq.symm

/-- A pass takes the two least indices and appends their merge (R69). -/
theorem Merging.pass {n w : Nat} {q : List Nat} {ns : List Node} (h : Merging n w q ns) {a b : Nat}
    {q1 q2 : List Nat} (h1 : popLeast ns q = some (a, q1)) (h2 : popLeast ns q1 = some (b, q2)) :
    Merging n w (q2 ++ [ns.length])
      (ns ++ [.internal (freqOfNode ns a + freqOfNode ns b) (BitVec.ofNat 9 a) (BitVec.ofNat 9 b)]) ∧
    a ∈ q ∧ b ∈ q ∧ a ≠ b ∧ q2 = (q.erase a).erase b ∧ (∀ c ∈ q, weightL ns a ≤ weightL ns c) ∧
    (∀ c ∈ q, c ≠ a → weightL ns b ≤ weightL ns c) ∧
    (freqOfNode ns a + freqOfNode ns b).toNat = weightL ns a + weightL ns b := by
  obtain ⟨haq, rfl, hla⟩ := popLeast_spec h1
  obtain ⟨hb1, rfl, hlb⟩ := popLeast_spec h2
  have hbq : b ∈ q := List.mem_of_mem_erase hb1
  have hba : b ≠ a := (h.nodup.mem_erase_iff.1 hb1).1
  have hwa := (h.waiting a).1 haq
  have hwb := (h.waiting b).1 hbq
  have hlen := h.length
  have hsz := h.size
  have hq2 : ((q.erase a).erase b).length + 2 = q.length := by
    have e1 := List.length_erase_of_mem haq
    have e2 := List.length_erase_of_mem hb1
    have := List.length_pos_of_mem haq
    have := List.length_pos_of_mem hb1
    omega
  have hlt : ns.length < 511 := by omega
  have ha : a < ns.length := hwa.1
  have hb : b < ns.length := hwb.1
  have hsum := sum_map_erase (weightL ns) haq
  have hsum2 := sum_map_erase (weightL ns) hb1
  have hadd : (freqOfNode ns a + freqOfNode ns b).toNat = weightL ns a + weightL ns b := by
    rw [BitVec.toNat_add]
    have := h.total
    have e : ∀ i, (freqOfNode ns i).toNat = weightL ns i := fun _ => rfl
    rw [e, e]
    exact Nat.mod_eq_of_lt (by omega)
  set x : Node := .internal (freqOfNode ns a + freqOfNode ns b) (BitVec.ofNat 9 a) (BitVec.ofNat 9 b) with hx
  have hxc : ∀ i, x.hasChild i ↔ a = i ∨ b = i := fun i => hasChild_internal_ofNat (by omega) (by omega)
  have hchild : ∀ j, n ≤ j → j < ns.length → ¬ (nodeL ns j).hasChild ns.length := by
    intro j hj hj' hc
    obtain ⟨a', b', e, w1, w2, -⟩ := h.merges j hj hj'
    have w1 := w1.1
    have w2 := w2.1
    rw [e, hasChild_internal_ofNat (by omega) (by omega)] at hc
    omega
  refine ⟨?_, haq, hbq, Ne.symm hba, rfl, ?_, ?_, hadd⟩
  · refine ⟨h.size, ?_, ?_, ?_, ?_, ?_, ?_⟩
    · simp only [List.length_append, List.length_singleton]; omega
    · rw [List.nodup_append]
      refine ⟨(h.nodup.erase a).erase b, by simp, ?_⟩
      intro i hi j hj hij
      simp only [List.mem_singleton] at hj
      have hi := List.mem_of_mem_erase (List.mem_of_mem_erase hi)
      have := ((h.waiting i).1 hi).1
      omega
    · intro i
      rw [List.mem_append, List.mem_singleton, (h.nodup.erase a).mem_erase_iff, h.nodup.mem_erase_iff, h.waiting]
      simp only [WaitL, List.length_append, List.length_singleton]
      constructor
      · rintro (⟨h3, h4, h5, h6⟩ | rfl)
        · refine ⟨by omega, fun j hj hj' => ?_⟩
          rcases Nat.lt_or_ge j ns.length with hlt | hge
          · rw [nodeL_append_left hlt]; exact h6 j hj hlt
          · rw [show j = ns.length by omega, nodeL_append_self, hxc]
            rintro (rfl | rfl) <;> contradiction
        · refine ⟨by omega, fun j hj hj' => ?_⟩
          rcases Nat.lt_or_ge j ns.length with hlt | hge
          · rw [nodeL_append_left hlt]; exact hchild j hj hlt
          · rw [show j = ns.length by omega, nodeL_append_self, hxc]
            omega
      · rintro ⟨h3, h4⟩
        rcases Nat.lt_or_ge i ns.length with hlt | hge
        · left
          have h5 := h4 ns.length (by omega) (by omega)
          rw [nodeL_append_self, hxc] at h5
          refine ⟨fun e => h5 (Or.inr e.symm), fun e => h5 (Or.inl e.symm), hlt, fun j hj hj' => ?_⟩
          have := h4 j hj (by omega)
          rwa [nodeL_append_left hj'] at this
        · right; omega
    · intro i hi
      rw [nodeL_append_left (by omega)]
      exact h.leaf i hi
    · intro k hk hk'
      simp only [List.length_append, List.length_singleton] at hk'
      rcases Nat.lt_or_ge k ns.length with hlt | hge
      · exact mergesL_append hlt (h.merges k hk hlt)
      · have hk : k = ns.length := by omega
        subst hk
        refine ⟨a, b, ?_, (waitL_append le_rfl).2 hwa, (waitL_append le_rfl).2 hwb, ?_, ?_⟩
        · rw [nodeL_append_self, hx]
          have e : ∀ i, i < ns.length → freqOfNode (ns ++ [x]) i = freqOfNode ns i := by
            intro i hi
            have := nodeL_append_left (ms := [x]) hi
            simp only [nodeL] at this
            simp only [freqOfNode, this]
          rw [e a ha, e b hb]
        · rw [keyLt_append ha hb]; exact hla b hbq hba
        · intro c hc hca hcb
          have hc := (waitL_append le_rfl).1 hc
          rw [keyLt_append hb hc.1]
          exact hlb c (h.nodup.mem_erase_iff.2 ⟨hca, (h.waiting c).2 hc⟩) hcb
    · refine ⟨?_, h.total.2⟩
      have e : ((q.erase a).erase b).map (weightL (ns ++ [x])) = ((q.erase a).erase b).map (weightL ns) := by
        apply List.map_congr_left
        intro i hi
        exact weightL_append_left ((h.waiting i).1 (List.mem_of_mem_erase (List.mem_of_mem_erase hi))).1
      have e2 : weightL (ns ++ [x]) ns.length = weightL ns a + weightL ns b := by
        rw [weightL, nodeL_append_self]; exact hadd
      rw [List.map_append, List.sum_append, e, List.map_singleton, List.sum_singleton, e2]
      have := h.total.1
      omega
  · intro c hc
    by_cases hca : c = a
    · rw [hca]
    · have := (keyLt_iff ns a c).1 (hla c hc hca); omega
  · intro c hc hca
    by_cases hcb : c = b
    · rw [hcb]
    · have := (keyLt_iff ns b c).1 (hlb c (h.nodup.mem_erase_iff.2 ⟨hca, hc⟩) hcb); omega

theorem mergeLoop_stop {passes : Nat} {q : List Nat} {ns : List Node} {a : Nat} {q1 : List Nat}
    (h1 : popLeast ns q = some (a, q1)) (h2 : popLeast ns q1 = none) : mergeLoop (passes + 1) q ns = ns := by
  simp [mergeLoop, h1, h2]

theorem mergeLoop_pass {passes : Nat} {q : List Nat} {ns : List Node} {a b : Nat} {q1 q2 : List Nat}
    (h1 : popLeast ns q = some (a, q1)) (h2 : popLeast ns q1 = some (b, q2)) :
    mergeLoop (passes + 1) q ns = mergeLoop passes (q2 ++ [ns.length])
      (ns ++ [.internal (freqOfNode ns a + freqOfNode ns b) (BitVec.ofNat 9 a) (BitVec.ofNat 9 b)]) := by
  simp [mergeLoop, h1, h2]

/-- The invariant carried through the loop, for any further property every pass keeps. -/
theorem Merging.loop {n w : Nat} {P : List Nat → List Node → Prop}
    (hP : ∀ q ns a b q1 q2, Merging n w q ns → P q ns → popLeast ns q = some (a, q1) → popLeast ns q1 = some (b, q2) →
      P (q2 ++ [ns.length])
        (ns ++ [.internal (freqOfNode ns a + freqOfNode ns b) (BitVec.ofNat 9 a) (BitVec.ofNat 9 b)]))
    (passes : Nat) {q : List Nat} {ns : List Node} (h : Merging n w q ns) (hp : P q ns) (hl : q.length ≤ passes) :
    ∃ r, Merging n w [r] (mergeLoop passes q ns) ∧ P [r] (mergeLoop passes q ns) ∧
      (ns <+: mergeLoop passes q ns) := by
  induction passes generalizing q ns with
  | zero => have := h.length; omega
  | succ passes ih =>
    cases h1 : popLeast ns q with
    | none => rw [popLeast_eq_none] at h1; have := h.length; simp [h1] at this
    | some p =>
      obtain ⟨a, q1⟩ := p
      cases h2 : popLeast ns q1 with
      | none =>
        rw [mergeLoop_stop h1 h2]
        rw [popLeast_eq_none] at h2
        obtain ⟨haq, rfl, -⟩ := popLeast_spec h1
        have : q.length = 1 := by
          have e := List.length_erase_of_mem haq
          have := List.length_pos_of_mem haq
          rw [h2] at e; simp at e; omega
        obtain ⟨r, rfl⟩ := List.length_eq_one_iff.1 this
        exact ⟨r, h, hp, List.prefix_refl _⟩
      | some p' =>
        obtain ⟨b, q2⟩ := p'
        rw [mergeLoop_pass h1 h2]
        have hpass := h.pass h1 h2
        obtain ⟨r, hr, hpr, hpre⟩ := ih hpass.1 (hP q ns a b q1 q2 h hp h1 h2) (by
          have := hpass.1.length
          simp only [List.length_append, List.length_singleton] at this ⊢
          have := h.length; omega)
        exact ⟨r, hr, hpr, (List.prefix_append _ _).trans hpre⟩

end Sys2Proof.Machine
end

