-- ==== Sys2Proof/Laws/Arena.lean ====
section
/-! SUPPORT. The node arena HBUILD writes (10_state.md R31, 40_huffman_tree.md R69, R70): its entries, that it is a
tree, and what following a path in a tree does (R71, R72). -/

namespace Sys2Proof.Machine

/-! ## From the list of nodes to the arena -/

theorem arenaOf_getElem? (ns : List Node) (h : ns.length ≤ 511) {i : Nat} (hi : i < 511) :
    (arenaOf ns)[i]? = some (nodeL ns i) := by
  have h1 : (arenaOf ns).toList = ns ++ List.replicate (511 - ns.length) Node.zero := by
    have : (arenaOf ns).toList = ns.take 511 ++ List.replicate (511 - ns.length) Node.zero := rfl
    rw [this, List.take_of_length_le h]
  have h2 : (arenaOf ns)[i]? = (arenaOf ns).toList[i]? := by simp
  rw [h2, h1, nodeL, List.getD_eq_getElem?_getD]
  rcases Nat.lt_or_ge i ns.length with hlt | hge
  · rw [List.getElem?_append_left hlt, List.getElem?_eq_getElem hlt]; rfl
  · rw [List.getElem?_append_right hge, List.getElem?_eq_none hge, List.getElem?_replicate, if_pos (by omega)]; rfl

/-- Entry i of the arena is node i of the list, and zero past its end. -/
theorem nodeN_arenaOf (ns : List Node) (h : ns.length ≤ 511) {i : Nat} (hi : i < 512) :
    nodeN (arenaOf ns) i = nodeL ns i := by
  have hm : (BitVec.ofNat 9 i).toNat = i := by simp [Nat.mod_eq_of_lt hi]
  rw [nodeN, nodeAt, hm]
  rcases Nat.lt_or_ge i 511 with hlt | hge
  · rw [arenaOf_getElem? ns h hlt]; rfl
  · have : (arenaOf ns)[i]? = none := by simp; omega
    rw [this, nodeL, List.getD_eq_getElem?_getD, List.getElem?_eq_none (by omega)]

theorem nodeAt_eq_nodeN (ns : Vector Node 511) (i : BitVec 9) : nodeAt ns i = nodeN ns i.toNat := by
  simp [nodeN]

theorem nodeAt_arenaOf (ns : List Node) (h : ns.length ≤ 511) (i : BitVec 9) :
    nodeAt (arenaOf ns) i = nodeL ns i.toNat := by
  rw [nodeAt_eq_nodeN, nodeN_arenaOf ns h i.isLt]

/-! ## The tree HBUILD builds -/

theorem sum_leavesFrom (sym : Nat) (l : List Word) :
    ((leavesFrom sym l).map (fun n => n.freq.toNat)).sum = (l.map BitVec.toNat).sum := by
  induction l generalizing sym with
  | nil => rfl
  | cons f l ih =>
    simp only [leavesFrom]
    split
    · rename_i h; simp [h, ih]
    · have : f.toNat % 2 ^ 40 = f.toNat := Nat.mod_eq_of_lt (by omega)
      rw [List.map_cons, List.sum_cons, ih, List.map_cons, List.sum_cons]
      simp [Node.freq]; omega

theorem map_weightL_range (ns : List Node) :
    (List.range ns.length).map (weightL ns) = ns.map (fun n => n.freq.toNat) := by
  apply List.ext_getElem
  · simp
  · intro i hi hi'
    simp only [List.length_map, List.length_range] at hi
    simp [weightL, nodeL, List.getD_eq_getElem?_getD, hi]

theorem tableSum_lt (f : Vector Word 256) : tableSum f < 2 ^ 40 := by
  have h : ∀ l : List Word, (l.map BitVec.toNat).sum ≤ l.length * (2 ^ 32 - 1) := by
    intro l
    induction l with
    | nil => simp
    | cons a l ih =>
      have := a.isLt
      simp only [List.map_cons, List.sum_cons, List.length_cons]
      omega
  have := h f.toList
  simp only [Vector.length_toList] at this
  rw [tableSum]; omega

/-- The leaves' frequencies add up to the table's sum, which fits 40 bits. -/
theorem leaves_total (f : Vector Word 256) :
    ((List.range (present f).length).map (weightL (leavesFrom 0 f.toList))).sum = tableSum f ∧ tableSum f < 2 ^ 40 := by
  rw [← leaves_length f, map_weightL_range, sum_leavesFrom]
  exact ⟨rfl, tableSum_lt f⟩

/-- What is known of the nodes HBUILD builds from a table with a present symbol. -/
theorem buildNodes_spec (f : Vector Word 256) (h : present f ≠ []) {P : List Nat → List Node → Prop}
    (h0 : P (List.range (present f).length) (leavesFrom 0 f.toList))
    (hP : ∀ q ns a b q1 q2, Merging (present f).length (tableSum f) q ns → P q ns →
      popLeast ns q = some (a, q1) → popLeast ns q1 = some (b, q2) →
      P (q2 ++ [ns.length])
        (ns ++ [.internal (freqOfNode ns a + freqOfNode ns b) (BitVec.ofNat 9 a) (BitVec.ofNat 9 b)])) :
    ∃ r, Merging (present f).length (tableSum f) [r] (buildNodes f) ∧ P [r] (buildNodes f) ∧
      (leavesFrom 0 f.toList <+: buildNodes f) := by
  have hl := leaves_length f
  have hn := present_length_le f
  have hpos : 1 ≤ (present f).length := List.length_pos_iff.2 h
  have hleaf : ∀ i, i < (present f).length → ∃ sym g, nodeL (leavesFrom 0 f.toList) i = .leaf sym g := by
    intro i hi
    rw [nodeL, leaves_eq, List.getD_eq_getElem?_getD, List.getElem?_map, List.getElem?_eq_getElem hi]
    exact ⟨_, _, rfl⟩
  have hstart : Merging (present f).length (tableSum f) (List.range (present f).length) (leavesFrom 0 f.toList) := by
    refine ⟨⟨hpos, hn⟩, ?_, List.nodup_range, ?_, hleaf, ?_, ?_⟩
    · rw [hl, List.length_range]; omega
    · intro i
      rw [List.mem_range, WaitL, hl]
      exact ⟨fun h => ⟨h, fun j _ _ => by omega⟩, fun h => h.1⟩
    · intro k hk hk'; omega
    · exact leaves_total f
  unfold buildNodes
  simp only [hl]
  exact Merging.loop hP _ hstart h0 (by simp)

/-- The arena of a finished merge is a tree whose root carries the whole weight (R70). -/
theorem Merging.finished {n w r : Nat} {ns : List Node} (h : Merging n w [r] ns) :
    ns.length = 2 * n - 1 ∧ r = 2 * n - 2 ∧ weightL ns (2 * n - 2) = w := by
  have hl := h.length
  have hs := h.size
  simp only [List.length_singleton] at hl
  have hr : r = 2 * n - 2 := by
    have h1 := (h.waiting r).1 (by simp)
    have h2 : 2 * n - 2 ∈ [r] := by
      rw [h.waiting]
      refine ⟨by omega, fun j hj hj' hc => ?_⟩
      obtain ⟨a, b, e, w1, w2, -⟩ := h.merges j hj hj'
      have w1 := w1.1
      have w2 := w2.1
      rw [e, hasChild_internal_ofNat (by omega) (by omega)] at hc
      omega
    exact (List.mem_singleton.1 h2).symm
  have := h.total.1
  simp only [List.map_singleton, List.sum_singleton, hr] at this
  exact ⟨by omega, hr, this⟩

theorem waiting_arenaOf {ns : List Node} (hl : ns.length ≤ 511) {n k i : Nat} (hk : k ≤ 511) :
    Waiting (arenaOf ns) n k i ↔ WaitL ns n k i := by
  unfold Waiting WaitL
  refine and_congr_right fun _ => forall_congr' fun j => imp_congr_right fun _ => imp_congr_right fun hj => ?_
  rw [nodeN_arenaOf ns hl (by omega)]

theorem keyBelow_arenaOf {ns : List Node} (hl : ns.length ≤ 511) {i j : Nat} (hi : i < 512) (hj : j < 512) :
    KeyBelow (arenaOf ns) i j ↔ keyLt ns i j = true := by
  rw [KeyBelow, keyLt_iff, nodeN_arenaOf ns hl hi, nodeN_arenaOf ns hl hj, weightL, weightL, BitVec.lt_def,
    BitVec.toNat_inj]

/-- Every merged node of the arena merges the two least nodes waiting (R66, R69). -/
theorem Merging.mergesTheTwoLeast {n w r : Nat} {ns : List Node} (h : Merging n w [r] ns) {k : Nat} (hk : n ≤ k)
    (hk' : k < 2 * n - 1) : MergesTheTwoLeast (arenaOf ns) n k := by
  obtain ⟨hlen, -, -⟩ := h.finished
  have hs := h.size
  have hl : ns.length ≤ 511 := by omega
  obtain ⟨a, b, e, wa, wb, kab, hc⟩ := h.merges k hk (by omega)
  have ha := wa.1
  have hb := wb.1
  have ma : (BitVec.ofNat 9 a).toNat = a := by simp [Nat.mod_eq_of_lt (show a < 512 by omega)]
  have mb : (BitVec.ofNat 9 b).toNat = b := by simp [Nat.mod_eq_of_lt (show b < 512 by omega)]
  refine ⟨BitVec.ofNat 9 a, BitVec.ofNat 9 b, ?_, ?_, ?_, ?_, ?_⟩
  · rw [nodeN_arenaOf ns hl (by omega), nodeAt_arenaOf ns hl, nodeAt_arenaOf ns hl, ma, mb, e]; rfl
  · rwa [ma, waiting_arenaOf hl (by omega)]
  · rwa [mb, waiting_arenaOf hl (by omega)]
  · rwa [ma, mb, keyBelow_arenaOf hl (by omega) (by omega)]
  · intro c wc hca hcb
    rw [waiting_arenaOf hl (by omega)] at wc
    rw [ma] at hca
    rw [mb] at hcb
    rw [mb, keyBelow_arenaOf hl (by omega) (by have := wc.1; omega)]
    exact hc c wc hca hcb

/-- A finished merge over leaves of distinct symbols is a tree (R70). -/
theorem Merging.treeOf {n w r : Nat} {ns : List Node} (h : Merging n w [r] ns)
    (hd : ∀ i j sym f g, i < n → j < n → nodeL ns i = .leaf sym f → nodeL ns j = .leaf sym g → i = j) :
    TreeOf (arenaOf ns) n := by
  obtain ⟨hlen, hr, -⟩ := h.finished
  have hs := h.size
  have hl : ns.length ≤ 511 := by omega
  have hN : ∀ i, i < 2 * n - 1 → nodeN (arenaOf ns) i = nodeL ns i :=
    fun i hi => nodeN_arenaOf ns hl (by omega)
  refine ⟨hs, ?_, ?_, ?_, ?_⟩
  · intro i hi; rw [hN i (by omega)]; exact h.leaf i hi
  · intro i j sym f g hi hj e1 e2
    rw [hN i (by omega)] at e1
    rw [hN j (by omega)] at e2
    exact hd i j sym f g hi hj e1 e2
  · intro i hi hi'
    obtain ⟨a, b, e, wa, wb, kab, -⟩ := h.mergesTheTwoLeast hi hi'
    refine ⟨a, b, e, wa.1, wb.1, ?_⟩
    rintro rfl
    rcases kab with hk | hk
    · exact absurd hk (by rw [BitVec.lt_def]; omega)
    · omega
  · intro i hi
    have hex : ∃ j, n ≤ j ∧ j < 2 * n - 1 ∧ (nodeL ns j).hasChild i := by
      by_contra hno
      have : i ∈ [r] := by
        rw [h.waiting]
        exact ⟨by omega, fun j hj hj' hc => hno ⟨j, hj, by omega, hc⟩⟩
      simp only [List.mem_singleton] at this
      omega
    obtain ⟨j, hj, hj', hc⟩ := hex
    have huniq : ∀ j j', n ≤ j → j < j' → j' < 2 * n - 1 → (nodeL ns j).hasChild i →
        ¬ (nodeL ns j').hasChild i := by
      intro j j' h1 h2 h3 h4 h5
      obtain ⟨a, b, e, wa, wb, -⟩ := h.merges j' (by omega) (by omega)
      have ha := wa.1
      have hb := wb.1
      rw [e, hasChild_internal_ofNat (by omega) (by omega)] at h5
      rcases h5 with rfl | rfl
      · exact wa.2 j h1 h2 h4
      · exact wb.2 j h1 h2 h4
    refine ⟨j, ⟨hj, hj', by rwa [hN j hj']⟩, fun j' h1 h2 h3 => ?_⟩
    rw [hN j' h2] at h3
    rcases Nat.lt_trichotomy j j' with hlt | rfl | hlt
    · exact absurd h3 (huniq j j' hj hlt h2 hc)
    · rfl
    · exact absurd hc (huniq j' j h1 hlt hj' h3)

theorem leaf_of_present (f : Vector Word 256) {ns : List Node} (hpre : leavesFrom 0 f.toList <+: ns) {k : Nat}
    (hk : k < (present f).length) :
    nodeL ns k = .leaf (BitVec.ofNat 8 (present f)[k]) ((freqAt f (BitVec.ofNat 8 (present f)[k])).setWidth 40) := by
  obtain ⟨t, rfl⟩ := hpre
  rw [nodeL_append_left (by rw [leaves_length]; exact hk), nodeL, leaves_eq, List.getD_eq_getElem?_getD,
    List.getElem?_map, List.getElem?_eq_getElem hk]
  rfl

theorem present_lt (f : Vector Word 256) {v : Nat} (h : v ∈ present f) : v < 256 :=
  List.mem_range.1 (List.mem_filter.1 h).1

theorem present_nodup (f : Vector Word 256) : (present f).Nodup := List.nodup_range.filter _

/-- No symbol labels two leaves (R69). -/
theorem leaves_distinct (f : Vector Word 256) {ns : List Node} (hpre : leavesFrom 0 f.toList <+: ns) (i j : Nat)
    (sym : Byte) (g g' : BitVec 40) (hi : i < (present f).length) (hj : j < (present f).length)
    (e1 : nodeL ns i = .leaf sym g) (e2 : nodeL ns j = .leaf sym g') : i = j := by
  rw [leaf_of_present f hpre hi] at e1
  rw [leaf_of_present f hpre hj] at e2
  have h1 := (Node.leaf.inj e1).1
  have h2 := (Node.leaf.inj e2).1
  have b1 := present_lt f (List.getElem_mem hi)
  have b2 := present_lt f (List.getElem_mem hj)
  have : (present f)[i] = (present f)[j] := by
    have := congrArg BitVec.toNat (h1.trans h2.symm)
    simpa [Nat.mod_eq_of_lt b1, Nat.mod_eq_of_lt b2] using this
  exact (List.Nodup.getElem_inj_iff (present_nodup f)).1 this

/-- HBUILD's arena: the tree, its leaves, its merges, its root's weight, and zeros above (R69, R70). -/
theorem buildNodes_arena (f : Vector Word 256) (h : present f ≠ []) :
    let n := (present f).length
    let ns := arenaOf (buildNodes f)
    TreeOf ns n ∧
    (∀ k, (hk : k < n) → nodeN ns k =
      .leaf (BitVec.ofNat 8 (present f)[k]) ((freqAt f (BitVec.ofNat 8 (present f)[k])).setWidth 40)) ∧
    (∀ k, n ≤ k → k < 2 * n - 1 → MergesTheTwoLeast ns n k) ∧
    (∀ k, 2 * n - 1 ≤ k → k < 511 → nodeN ns k = .leaf 0 0) ∧
    (nodeN ns (2 * n - 2)).freq.toNat = tableSum f := by
  intro n ns
  obtain ⟨r, hm, -, hpre⟩ := buildNodes_spec f h (P := fun _ _ => True) trivial (fun _ _ _ _ _ _ _ _ _ _ => trivial)
  obtain ⟨hlen, -, hw⟩ := hm.finished
  have hs := hm.size
  have hl : (buildNodes f).length ≤ 511 := by omega
  refine ⟨hm.treeOf (leaves_distinct f hpre), ?_, fun k hk hk' => hm.mergesTheTwoLeast hk hk', ?_, ?_⟩
  · intro k hk
    rw [nodeN_arenaOf _ hl (by omega), leaf_of_present f hpre hk]
  · intro k hk hk'
    rw [nodeN_arenaOf _ hl (by omega), nodeL, List.getD_eq_getElem?_getD, List.getElem?_eq_none (by omega)]; rfl
  · rw [nodeN_arenaOf _ hl (by omega)]; exact hw

/-- HBUILD raises exactly on a table with no present symbol (R69). -/
theorem hbuildRule_eq (s : State) :
    hbuildRule s = if present s.freq = [] then .raised s .emptyInput else
      .done
        { s with
          node := arenaOf (buildNodes s.freq)
          nodeCount := BitVec.ofNat 10 (2 * (present s.freq).length - 1)
          root := BitVec.ofNat 9 (2 * (present s.freq).length - 2)
          code := noCodes
          status := { s.status with treeValid := true, codesValid := false } } := by
  simp only [hbuildRule, leaves_length, List.length_eq_zero_iff]

/-! ## Following a path (R71, R72) -/

/-- The index a path leads to from i, if it does not leave the tree. -/
def followIdx (ns : Vector Node 511) : BitVec 9 → List Bool → Option (BitVec 9)
  | i, [] => some i
  | i, b :: bs =>
    match nodeAt ns i with
    | .leaf _ _ => none
    | .internal _ l r => followIdx ns (if b then r else l) bs

theorem follow_eq (ns : Vector Node 511) (i : BitVec 9) (p : List Bool) :
    follow ns i p = (followIdx ns i p).map (nodeAt ns) := by
  induction p generalizing i with
  | nil => rfl
  | cons b p ih =>
    simp only [follow, followIdx]
    cases nodeAt ns i with
    | leaf _ _ => rfl
    | internal _ l r => exact ih _

theorem followIdx_append (ns : Vector Node 511) (i : BitVec 9) (p q : List Bool) :
    followIdx ns i (p ++ q) = (followIdx ns i p).bind (fun j => followIdx ns j q) := by
  induction p generalizing i with
  | nil => rfl
  | cons b p ih =>
    simp only [List.cons_append, followIdx]
    cases nodeAt ns i with
    | leaf _ _ => rfl
    | internal _ l r => exact ih _

/-- The child a move takes from an internal node. -/
theorem followIdx_singleton (ns : Vector Node 511) (i : BitVec 9) (b : Bool) (j : BitVec 9) :
    followIdx ns i [b] = some j ↔ ∃ f l r, nodeAt ns i = .internal f l r ∧ j = if b then r else l := by
  simp only [followIdx]
  cases nodeAt ns i with
  | leaf _ _ => simp
  | internal f l r => simp [eq_comm]

section
variable {ns : Vector Node 511} {n : Nat}

/-- A node of a tree is a leaf exactly below index n (R70). -/
theorem TreeOf.isLeaf (h : TreeOf ns n) {i : BitVec 9} (hi : i.toNat < 2 * n - 1) {sym : Byte} {f : BitVec 40}
    (e : nodeAt ns i = .leaf sym f) : i.toNat < n := by
  by_contra hge
  obtain ⟨l, r, e', -⟩ := h.internal i.toNat (by omega) hi
  rw [← nodeAt_eq_nodeN, e] at e'
  cases e'

theorem TreeOf.isInternal (h : TreeOf ns n) {i : BitVec 9} (hi : i.toNat < 2 * n - 1) {f : BitVec 40}
    {l r : BitVec 9} (e : nodeAt ns i = .internal f l r) :
    n ≤ i.toNat ∧ l.toNat < i.toNat ∧ r.toNat < i.toNat ∧ l ≠ r := by
  have hn : n ≤ i.toNat := by
    by_contra hlt
    obtain ⟨sym, g, e'⟩ := h.leaf i.toNat (by omega)
    rw [← nodeAt_eq_nodeN, e] at e'
    cases e'
  obtain ⟨l', r', e', h1, h2, h3⟩ := h.internal i.toNat hn hi
  rw [← nodeAt_eq_nodeN, e] at e'
  cases e'
  exact ⟨hn, h1, h2, h3⟩

/-- A path stays in the tree. -/
theorem TreeOf.followIdx_lt (h : TreeOf ns n) {i j : BitVec 9} (hi : i.toNat < 2 * n - 1) {p : List Bool}
    (hp : followIdx ns i p = some j) : j.toNat ≤ i.toNat ∧ (p ≠ [] → j.toNat < i.toNat) := by
  induction p generalizing i with
  | nil => simp only [followIdx, Option.some.injEq] at hp; simp [hp]
  | cons b p ih =>
    simp only [followIdx] at hp
    cases e : nodeAt ns i with
    | leaf _ _ => simp [e] at hp
    | internal f l r =>
      simp only [e] at hp
      obtain ⟨-, hl, hr, -⟩ := h.isInternal hi e
      have hc : (if b then r else l).toNat < i.toNat := by split <;> assumption
      have := ih (by omega) hp
      exact ⟨by omega, fun _ => by omega⟩

/-- The last move into a node is determined by the node: its parent and its side (R70). -/
theorem TreeOf.parent_unique (h : TreeOf ns n) {i i' j : BitVec 9} (hi : i.toNat < 2 * n - 1)
    (hi' : i'.toNat < 2 * n - 1) {b b' : Bool} (e : followIdx ns i [b] = some j)
    (e' : followIdx ns i' [b'] = some j) : i = i' ∧ b = b' := by
  obtain ⟨f, l, r, e1, rfl⟩ := (followIdx_singleton ns i b j).1 e
  obtain ⟨f', l', r', e2, hj⟩ := (followIdx_singleton ns i' b' _).1 e'
  obtain ⟨hn, hl, hr, hne⟩ := h.isInternal hi e1
  obtain ⟨hn', hl', hr', hne'⟩ := h.isInternal hi' e2
  have hc : (nodeN ns i.toNat).hasChild (if b then r else l).toNat := by
    rw [← nodeAt_eq_nodeN, e1]; cases b <;> simp [Node.hasChild]
  have hc' : (nodeN ns i'.toNat).hasChild (if b then r else l).toNat := by
    rw [← nodeAt_eq_nodeN, e2, hj]; cases b' <;> simp [Node.hasChild]
  have hlt : (if b then r else l).toNat < 2 * n - 2 := by
    have : (if b then r else l).toNat < i.toNat := by split <;> assumption
    omega
  obtain ⟨k, -, hk⟩ := h.owned _ hlt
  have k1 := hk _ hn hi hc
  have k2 := hk _ hn' hi' hc'
  have hii : i = i' := BitVec.eq_of_toNat_eq (k1.trans k2.symm)
  subst hii
  rw [e1] at e2
  cases e2
  refine ⟨rfl, ?_⟩
  cases b <;> cases b' <;> simp_all

/-- Two paths from one node to one node are the same path. -/
theorem TreeOf.path_unique (h : TreeOf ns n) {i j : BitVec 9} (hi : i.toNat < 2 * n - 1) {p p' : List Bool}
    (e : followIdx ns i p = some j) (e' : followIdx ns i p' = some j) : p = p' := by
  induction p using List.reverseRecOn generalizing j p' with
  | nil =>
    simp only [followIdx, Option.some.injEq] at e
    subst e
    by_contra hne
    have := (h.followIdx_lt hi e').2 (Ne.symm hne)
    omega
  | append_singleton p b ih =>
    rcases List.eq_nil_or_concat p' with rfl | ⟨p', b', rfl⟩
    · simp only [followIdx, Option.some.injEq] at e'
      subst e'
      have := (h.followIdx_lt hi e).2 (by simp)
      omega
    · rw [List.concat_eq_append] at e' ⊢
      rw [followIdx_append] at e e'
      obtain ⟨k, hk, ek⟩ := Option.bind_eq_some_iff.1 e
      obtain ⟨k', hk', ek'⟩ := Option.bind_eq_some_iff.1 e'
      have b1 := (h.followIdx_lt hi hk).1
      have b2 := (h.followIdx_lt hi hk').1
      obtain ⟨rfl, rfl⟩ := h.parent_unique (by omega) (by omega) ek ek'
      rw [ih hk hk']

/-- A symbol has at most one path from a node. -/
theorem TreeOf.leads_unique (h : TreeOf ns n) {i : BitVec 9} (hi : i.toNat < 2 * n - 1) {p p' : List Bool}
    {sym : Byte} (e : LeadsToLeaf ns i p sym) (e' : LeadsToLeaf ns i p' sym) : p = p' := by
  obtain ⟨f, e⟩ := e
  obtain ⟨f', e'⟩ := e'
  rw [follow_eq, Option.map_eq_some_iff] at e e'
  obtain ⟨j, hj, ej⟩ := e
  obtain ⟨j', hj', ej'⟩ := e'
  have b1 := (h.followIdx_lt hi hj).1
  have b2 := (h.followIdx_lt hi hj').1
  have l1 := h.isLeaf (by omega) ej
  have l2 := h.isLeaf (by omega) ej'
  rw [nodeAt_eq_nodeN] at ej ej'
  have := h.distinct _ _ sym f f' l1 l2 ej ej'
  have : j = j' := BitVec.eq_of_toNat_eq this
  subst this
  exact h.path_unique hi hj hj'

/-- A leaf is no deeper than the number of merges above it (R70). -/
theorem TreeOf.depth_le (h : TreeOf ns n) {i : BitVec 9} (hi : i.toNat < 2 * n - 1) {p : List Bool} {sym : Byte}
    (e : LeadsToLeaf ns i p sym) : p.length ≤ i.toNat + 1 - n := by
  induction p generalizing i with
  | nil => simp
  | cons b p ih =>
    obtain ⟨f, e⟩ := e
    simp only [follow] at e
    cases en : nodeAt ns i with
    | leaf _ _ => simp [en] at e
    | internal g l r =>
      simp only [en] at e
      obtain ⟨hn, hl, hr, -⟩ := h.isInternal hi en
      have hc : (if b then r else l).toNat < i.toNat := by split <;> assumption
      have := ih (i := if b then r else l) (by omega) ⟨f, e⟩
      simp only [List.length_cons]
      omega

theorem leadsToLeaf_cons {i : BitVec 9} {b : Bool} {p : List Bool} {sym : Byte} {f : BitVec 40} {l r : BitVec 9}
    (e : nodeAt ns i = .internal f l r) :
    LeadsToLeaf ns i (b :: p) sym ↔ LeadsToLeaf ns (if b then r else l) p sym := by
  simp only [LeadsToLeaf, follow, e]

theorem leadsToLeaf_nil {i : BitVec 9} {sym : Byte} : LeadsToLeaf ns i [] sym ↔ ∃ f, nodeAt ns i = .leaf sym f := by
  simp only [LeadsToLeaf, follow, Option.some.injEq]

theorem leadsToLeaf_of_leaf {i : BitVec 9} {p : List Bool} {sym sym' : Byte} {f : BitVec 40}
    (e : nodeAt ns i = .leaf sym' f) : LeadsToLeaf ns i p sym ↔ p = [] ∧ sym = sym' := by
  cases p with
  | nil => rw [leadsToLeaf_nil, e]; simp [eq_comm]
  | cons b p => simp [LeadsToLeaf, follow, e]

theorem leadsToLeaf_internal {i : BitVec 9} {p : List Bool} {sym : Byte} {f : BitVec 40} {l r : BitVec 9}
    (e : nodeAt ns i = .internal f l r) :
    LeadsToLeaf ns i p sym ↔ ∃ b q, p = b :: q ∧ LeadsToLeaf ns (if b then r else l) q sym := by
  cases p with
  | nil => rw [leadsToLeaf_nil, e]; simp
  | cons b p => rw [leadsToLeaf_cons e]; simp

/-- From every node of a tree some path leads to a leaf, and every leaf below it is reached by one: the indices
that no path from the root reaches are none (R70). -/
theorem TreeOf.reached (h : TreeOf ns n) {root : BitVec 9} (hr : root.toNat = 2 * n - 2) (i : BitVec 9)
    (hi : i.toNat < 2 * n - 1) : ∃ p, followIdx ns root p = some i := by
  have hs := h.leaves
  induction hk : 2 * n - 2 - i.toNat using Nat.strongRecOn generalizing i with
  | _ k ih =>
    rcases Nat.lt_or_ge i.toNat (2 * n - 2) with hlt | hge
    · obtain ⟨j, ⟨hj, hj', hc⟩, -⟩ := h.owned i.toNat hlt
      have mj : (BitVec.ofNat 9 j).toNat = j := by simp [Nat.mod_eq_of_lt (show j < 512 by omega)]
      obtain ⟨l, r, e, hl, hr', -⟩ := h.internal j hj hj'
      have e' : nodeAt ns (BitVec.ofNat 9 j) = .internal ((nodeAt ns l).freq + (nodeAt ns r).freq) l r := by
        rw [nodeAt_eq_nodeN, mj, e]
      rw [e] at hc
      have hij : i.toNat < j := by rcases hc with h1 | h1 <;> omega
      obtain ⟨p, hp⟩ := ih (2 * n - 2 - j) (by omega) (BitVec.ofNat 9 j) (by omega) (by omega)
      rcases hc with h1 | h1
      · refine ⟨p ++ [false], ?_⟩
        rw [followIdx_append, hp, Option.bind_some, followIdx_singleton]
        exact ⟨_, l, r, e', by simpa using BitVec.eq_of_toNat_eq h1.symm⟩
      · refine ⟨p ++ [true], ?_⟩
        rw [followIdx_append, hp, Option.bind_some, followIdx_singleton]
        exact ⟨_, l, r, e', by simpa using BitVec.eq_of_toNat_eq h1.symm⟩
    · exact ⟨[], by simp only [followIdx, Option.some.injEq]; exact BitVec.eq_of_toNat_eq (by omega)⟩

end

end Sys2Proof.Machine
end

