-- ==== Sys2Proof/Laws/Bits.lean ====
section
/-! SUPPORT. Byte lanes (20_memory.md R41, R43), packed bytes (R45), token records (30_encoding.md R62) and the
command word's fields (R56). -/

namespace Sys2Proof.Machine

/-! ## Lanes -/

theorem lane_getLsbD (w : Word) (i k : Nat) : (lane w i).getLsbD k = (decide (k < 8) && w.getLsbD (8 * i + k)) := by
  simp [lane]

theorem lane_ofLanes (l0 l1 l2 l3 : Byte) :
    lane (ofLanes l0 l1 l2 l3) 0 = l0 ∧ lane (ofLanes l0 l1 l2 l3) 1 = l1 ∧
    lane (ofLanes l0 l1 l2 l3) 2 = l2 ∧ lane (ofLanes l0 l1 l2 l3) 3 = l3 := by
  refine ⟨?_, ?_, ?_, ?_⟩ <;>
    (apply BitVec.eq_of_getLsbD_eq; intro i hi; simp only [lane_getLsbD, ofLanes, BitVec.getLsbD_append]
     split_ifs <;> first | omega | (simp only [hi, decide_true, Bool.true_and]; congr 1; omega))

/-- Two words with the same lanes are the same word. -/
theorem word_ext_lanes {w w' : Word} (h : ∀ k, k < 4 → lane w k = lane w' k) : w = w' := by
  apply BitVec.eq_of_getLsbD_eq
  intro i hi
  have := congrArg (fun b => b.getLsbD (i % 8)) (h (i / 8) (by omega))
  simp only [lane_getLsbD, show i % 8 < 8 by omega, decide_true, Bool.true_and,
    show 8 * (i / 8) + i % 8 = i by omega] at this
  exact this

/-- An enabled lane comes from the data, any other from the old word (R41). -/
theorem lane_mergeLanes (old data : Word) (strb : BitVec 4) {k : Nat} (hk : k < 4) :
    lane (mergeLanes old data strb) k = if strb.getLsbD k then lane data k else lane old k := by
  have h := lane_ofLanes (if strb.getLsbD 0 then lane data 0 else lane old 0)
    (if strb.getLsbD 1 then lane data 1 else lane old 1) (if strb.getLsbD 2 then lane data 2 else lane old 2)
    (if strb.getLsbD 3 then lane data 3 else lane old 3)
  have hk : k = 0 ∨ k = 1 ∨ k = 2 ∨ k = 3 := by omega
  rcases hk with rfl | rfl | rfl | rfl
  exacts [h.1, h.2.1, h.2.2.1, h.2.2.2]

theorem lane_zero (k : Nat) : lane 0 k = 0 := by simp [lane]

/-- A concatenation as a number. -/
theorem toNat_append_add {n m : Nat} (x : BitVec n) (y : BitVec m) : (x ++ y).toNat = x.toNat * 2 ^ m + y.toNat := by
  rw [BitVec.toNat_append, ← Nat.shiftLeft_add_eq_or_of_lt y.isLt, Nat.shiftLeft_eq]

/-! ## Packed bytes -/

/-- Stream bit m of a packed byte is bit m of what was packed (R32, R74). -/
theorem packByte_getLsbD (bit : Nat → Bool) {m : Nat} (hm : m < 8) : (packByte bit).getLsbD (7 - m) = bit m := by
  have h : m = 0 ∨ m = 1 ∨ m = 2 ∨ m = 3 ∨ m = 4 ∨ m = 5 ∨ m = 6 ∨ m = 7 := by omega
  rcases h with rfl | rfl | rfl | rfl | rfl | rfl | rfl | rfl <;>
    (simp only [packByte]
     generalize bit 0 = b0, bit 1 = b1, bit 2 = b2, bit 3 = b3, bit 4 = b4, bit 5 = b5, bit 6 = b6, bit 7 = b7
     revert b0 b1 b2 b3 b4 b5 b6 b7; decide)

theorem streamBit_packByte (bit : Nat → Bool) {m : Nat} (hm : m < 8) : streamBit (packByte bit) m = bit m :=
  packByte_getLsbD bit hm

/-- A byte is the packing of its stream bits. -/
theorem byte_ext_stream {b b' : Byte} (h : ∀ m, m < 8 → b.getLsbD (7 - m) = b'.getLsbD (7 - m)) : b = b' := by
  apply BitVec.eq_of_getLsbD_eq
  intro i hi
  simpa [show 7 - (7 - i) = i by omega] using h (7 - i) (by omega)

@[simp] theorem unpackByte_length (b : Byte) : (unpackByte b).length = 8 := by simp [unpackByte]

theorem unpackByte_getElem (b : Byte) {m : Nat} (hm : m < 8) : (unpackByte b)[m]? = some (b.getLsbD (7 - m)) := by
  simp [unpackByte, streamBit, hm]

/-! ## Token records -/

@[simp] theorem Token.bytes_length (t : Token) : t.bytes.length = 4 := rfl

/-- Reading a stored record gives the token back and draws nothing. -/
theorem readToken_of_holds {m : Memory Byte} {t : Nat} {tok : Token} (h : m.Holds (4 * t) tok.bytes) (d : Nat) :
    readToken m t d = (tok, d) := by
  have h0 := h 0 (by simp)
  have h1 := h 1 (by simp)
  have h2 := h 2 (by simp)
  have h3 := h 3 (by simp)
  simp only [Token.bytes, Nat.add_zero, List.getElem_cons_zero, List.getElem_cons_succ] at h0 h1 h2 h3
  simp only [readToken, readByte_of_get? h0, readByte_of_get? h1, readByte_of_get? h2, readByte_of_get? h3]
  obtain ⟨off, len, nx⟩ := tok
  have : off.extractLsb' 8 8 ++ off.extractLsb' 0 8 = off := by
    apply BitVec.eq_of_getLsbD_eq
    intro i hi
    simp only [BitVec.getLsbD_append, BitVec.getLsbD_extractLsb']
    split_ifs with hlt
    · simp [hlt]
    · simp [show i - 8 < 8 by omega, show 8 + (i - 8) = i by omega]
  simp [this]

/-! ## Command words -/

theorem Cmd32.toWord_ofWord (w : Word) : (Cmd32.ofWord w).toWord = w := by
  apply BitVec.eq_of_getLsbD_eq
  intro i hi
  simp only [Cmd32.ofWord, Cmd32.toWord, BitVec.getLsbD_append, BitVec.getLsbD_extractLsb']
  split_ifs with h
  · simp [h]
  · simp [show i - 8 < 24 by omega, show 8 + (i - 8) = i by omega]

theorem Cmd32.ofWord_toWord (c : Cmd32) : Cmd32.ofWord c.toWord = c := by
  obtain ⟨r, o⟩ := c
  simp only [Cmd32.ofWord, Cmd32.toWord, Cmd32.mk.injEq]
  constructor <;>
    (apply BitVec.eq_of_getLsbD_eq; intro i hi
     simp only [BitVec.getLsbD_append, BitVec.getLsbD_extractLsb', hi, decide_true, Bool.true_and])
  · simp [show ¬ 8 + i < 8 by omega]
  · simp [hi]

/-- The opcode map and its inverse (R58, R60). -/
theorem decodeOpcode_eq_some (op : BitVec 8) (i : Instr) : decodeOpcode op = some i ↔ op = opcodeOf i := by
  cases i <;> revert op <;> decide

end Sys2Proof.Machine
end

