-- ==== Sys2Proof/Laws/State.lean ====
section
/-! SUPPORT. What each named update of the state does to each field, so that no proof unfolds one, and how a
command ends (60_exceptions.md R94). -/

namespace Sys2Proof.Machine

/-! ## `finish` -/

section
variable (s : State)

@[simp] theorem State.finish_params : s.finish.params = s.params := rfl
@[simp] theorem State.finish_irqEn : s.finish.irqEn = s.irqEn := rfl
@[simp] theorem State.finish_status : s.finish.status = { s.status with done := true } := rfl
@[simp] theorem State.finish_inflight : s.finish.inflight = none := rfl
@[simp] theorem State.finish_inLen : s.finish.inLen = s.inLen := rfl
@[simp] theorem State.finish_outLen : s.finish.outLen = s.outLen := rfl
@[simp] theorem State.finish_bitLen : s.finish.bitLen = s.bitLen := rfl
@[simp] theorem State.finish_symCount : s.finish.symCount = s.symCount := rfl
@[simp] theorem State.finish_window : s.finish.window = s.window := rfl
@[simp] theorem State.finish_cursor : s.finish.cursor = s.cursor := rfl
@[simp] theorem State.finish_token : s.finish.token = s.token := rfl
@[simp] theorem State.finish_tokBytes : s.finish.tokBytes = s.tokBytes := rfl
@[simp] theorem State.finish_nodeCount : s.finish.nodeCount = s.nodeCount := rfl
@[simp] theorem State.finish_root : s.finish.root = s.root := rfl
@[simp] theorem State.finish_errInfo : s.finish.errInfo = s.errInfo := rfl
@[simp] theorem State.finish_freq : s.finish.freq = s.freq := rfl
@[simp] theorem State.finish_node : s.finish.node = s.node := rfl
@[simp] theorem State.finish_code : s.finish.code = s.code := rfl
@[simp] theorem State.finish_inMem : s.finish.inMem = s.inMem := rfl
@[simp] theorem State.finish_outMem : s.finish.outMem = s.outMem := rfl
@[simp] theorem State.finish_tokMem : s.finish.tokMem = s.tokMem := rfl
@[simp] theorem State.finish_bitMem : s.finish.bitMem = s.bitMem := rfl
@[simp] theorem State.finish_rst : s.finish.rst = s.rst := rfl
@[simp] theorem State.finish_response : s.finish.response = s.response := rfl
@[simp] theorem State.finish_pending : s.finish.pending = s.pending := rfl
@[simp] theorem State.finish_draws : s.finish.draws = s.draws := rfl

end

/-! ## `recordError` -/

section
variable (s : State) (e : BlockError)

@[simp] theorem State.recordError_params : (s.recordError e).params = s.params := rfl
@[simp] theorem State.recordError_irqEn : (s.recordError e).irqEn = s.irqEn := rfl
@[simp] theorem State.recordError_status : (s.recordError e).status = { s.status with err := true, errCode := e.code } := rfl
@[simp] theorem State.recordError_inflight : (s.recordError e).inflight = s.inflight := rfl
@[simp] theorem State.recordError_inLen : (s.recordError e).inLen = s.inLen := rfl
@[simp] theorem State.recordError_outLen : (s.recordError e).outLen = s.outLen := rfl
@[simp] theorem State.recordError_bitLen : (s.recordError e).bitLen = s.bitLen := rfl
@[simp] theorem State.recordError_symCount : (s.recordError e).symCount = s.symCount := rfl
@[simp] theorem State.recordError_window : (s.recordError e).window = s.window := rfl
@[simp] theorem State.recordError_cursor : (s.recordError e).cursor = s.cursor := rfl
@[simp] theorem State.recordError_token : (s.recordError e).token = s.token := rfl
@[simp] theorem State.recordError_tokBytes : (s.recordError e).tokBytes = s.tokBytes := rfl
@[simp] theorem State.recordError_nodeCount : (s.recordError e).nodeCount = s.nodeCount := rfl
@[simp] theorem State.recordError_root : (s.recordError e).root = s.root := rfl
@[simp] theorem State.recordError_errInfo : (s.recordError e).errInfo = e.info := rfl
@[simp] theorem State.recordError_freq : (s.recordError e).freq = s.freq := rfl
@[simp] theorem State.recordError_node : (s.recordError e).node = s.node := rfl
@[simp] theorem State.recordError_code : (s.recordError e).code = s.code := rfl
@[simp] theorem State.recordError_inMem : (s.recordError e).inMem = s.inMem := rfl
@[simp] theorem State.recordError_outMem : (s.recordError e).outMem = s.outMem := rfl
@[simp] theorem State.recordError_tokMem : (s.recordError e).tokMem = s.tokMem := rfl
@[simp] theorem State.recordError_bitMem : (s.recordError e).bitMem = s.bitMem := rfl
@[simp] theorem State.recordError_rst : (s.recordError e).rst = s.rst := rfl
@[simp] theorem State.recordError_response : (s.recordError e).response = s.response := rfl
@[simp] theorem State.recordError_pending : (s.recordError e).pending = s.pending := rfl
@[simp] theorem State.recordError_draws : (s.recordError e).draws = s.draws := rfl

end

/-! ## `accept` -/

section
variable (s : State) (w : Word)

@[simp] theorem State.accept_params : (s.accept w).params = s.params := rfl
@[simp] theorem State.accept_irqEn : (s.accept w).irqEn = s.irqEn := rfl
@[simp] theorem State.accept_status : (s.accept w).status = { s.status with done := false, err := false, errCode := .none } := rfl
@[simp] theorem State.accept_inflight : (s.accept w).inflight = some w := rfl
@[simp] theorem State.accept_inLen : (s.accept w).inLen = s.inLen := rfl
@[simp] theorem State.accept_outLen : (s.accept w).outLen = s.outLen := rfl
@[simp] theorem State.accept_bitLen : (s.accept w).bitLen = s.bitLen := rfl
@[simp] theorem State.accept_symCount : (s.accept w).symCount = s.symCount := rfl
@[simp] theorem State.accept_window : (s.accept w).window = s.window := rfl
@[simp] theorem State.accept_cursor : (s.accept w).cursor = s.cursor := rfl
@[simp] theorem State.accept_token : (s.accept w).token = s.token := rfl
@[simp] theorem State.accept_tokBytes : (s.accept w).tokBytes = s.tokBytes := rfl
@[simp] theorem State.accept_nodeCount : (s.accept w).nodeCount = s.nodeCount := rfl
@[simp] theorem State.accept_root : (s.accept w).root = s.root := rfl
@[simp] theorem State.accept_errInfo : (s.accept w).errInfo = 0 := rfl
@[simp] theorem State.accept_freq : (s.accept w).freq = s.freq := rfl
@[simp] theorem State.accept_node : (s.accept w).node = s.node := rfl
@[simp] theorem State.accept_code : (s.accept w).code = s.code := rfl
@[simp] theorem State.accept_inMem : (s.accept w).inMem = s.inMem := rfl
@[simp] theorem State.accept_outMem : (s.accept w).outMem = s.outMem := rfl
@[simp] theorem State.accept_tokMem : (s.accept w).tokMem = s.tokMem := rfl
@[simp] theorem State.accept_bitMem : (s.accept w).bitMem = s.bitMem := rfl
@[simp] theorem State.accept_rst : (s.accept w).rst = s.rst := rfl
@[simp] theorem State.accept_response : (s.accept w).response = s.response := rfl
@[simp] theorem State.accept_pending : (s.accept w).pending = s.pending := rfl
@[simp] theorem State.accept_draws : (s.accept w).draws = s.draws := rfl

end

/-! ## `acknowledge` -/

section
variable (s : State) (data : Word) (strb : BitVec 4)

@[simp] theorem State.acknowledge_params : (s.acknowledge data strb).params = s.params := rfl
@[simp] theorem State.acknowledge_irqEn : (s.acknowledge data strb).irqEn = s.irqEn := rfl
@[simp] theorem State.acknowledge_status : (s.acknowledge data strb).status = s.status.writeOneToClear data strb := rfl
@[simp] theorem State.acknowledge_inflight : (s.acknowledge data strb).inflight = s.inflight := rfl
@[simp] theorem State.acknowledge_inLen : (s.acknowledge data strb).inLen = s.inLen := rfl
@[simp] theorem State.acknowledge_outLen : (s.acknowledge data strb).outLen = s.outLen := rfl
@[simp] theorem State.acknowledge_bitLen : (s.acknowledge data strb).bitLen = s.bitLen := rfl
@[simp] theorem State.acknowledge_symCount : (s.acknowledge data strb).symCount = s.symCount := rfl
@[simp] theorem State.acknowledge_window : (s.acknowledge data strb).window = s.window := rfl
@[simp] theorem State.acknowledge_cursor : (s.acknowledge data strb).cursor = s.cursor := rfl
@[simp] theorem State.acknowledge_token : (s.acknowledge data strb).token = s.token := rfl
@[simp] theorem State.acknowledge_tokBytes : (s.acknowledge data strb).tokBytes = s.tokBytes := rfl
@[simp] theorem State.acknowledge_nodeCount : (s.acknowledge data strb).nodeCount = s.nodeCount := rfl
@[simp] theorem State.acknowledge_root : (s.acknowledge data strb).root = s.root := rfl
@[simp] theorem State.acknowledge_errInfo : (s.acknowledge data strb).errInfo = s.errInfo := rfl
@[simp] theorem State.acknowledge_freq : (s.acknowledge data strb).freq = s.freq := rfl
@[simp] theorem State.acknowledge_node : (s.acknowledge data strb).node = s.node := rfl
@[simp] theorem State.acknowledge_code : (s.acknowledge data strb).code = s.code := rfl
@[simp] theorem State.acknowledge_inMem : (s.acknowledge data strb).inMem = s.inMem := rfl
@[simp] theorem State.acknowledge_outMem : (s.acknowledge data strb).outMem = s.outMem := rfl
@[simp] theorem State.acknowledge_tokMem : (s.acknowledge data strb).tokMem = s.tokMem := rfl
@[simp] theorem State.acknowledge_bitMem : (s.acknowledge data strb).bitMem = s.bitMem := rfl
@[simp] theorem State.acknowledge_rst : (s.acknowledge data strb).rst = s.rst := rfl
@[simp] theorem State.acknowledge_response : (s.acknowledge data strb).response = s.response := rfl
@[simp] theorem State.acknowledge_pending : (s.acknowledge data strb).pending = s.pending := rfl
@[simp] theorem State.acknowledge_draws : (s.acknowledge data strb).draws = s.draws := rfl

end

/-! ## `dropWrite` -/

section
variable (s : State)

@[simp] theorem State.dropWrite_params : s.dropWrite.params = s.params := rfl
@[simp] theorem State.dropWrite_irqEn : s.dropWrite.irqEn = s.irqEn := rfl
@[simp] theorem State.dropWrite_status : s.dropWrite.status = { s.status with ovr := true } := rfl
@[simp] theorem State.dropWrite_inflight : s.dropWrite.inflight = s.inflight := rfl
@[simp] theorem State.dropWrite_inLen : s.dropWrite.inLen = s.inLen := rfl
@[simp] theorem State.dropWrite_outLen : s.dropWrite.outLen = s.outLen := rfl
@[simp] theorem State.dropWrite_bitLen : s.dropWrite.bitLen = s.bitLen := rfl
@[simp] theorem State.dropWrite_symCount : s.dropWrite.symCount = s.symCount := rfl
@[simp] theorem State.dropWrite_window : s.dropWrite.window = s.window := rfl
@[simp] theorem State.dropWrite_cursor : s.dropWrite.cursor = s.cursor := rfl
@[simp] theorem State.dropWrite_token : s.dropWrite.token = s.token := rfl
@[simp] theorem State.dropWrite_tokBytes : s.dropWrite.tokBytes = s.tokBytes := rfl
@[simp] theorem State.dropWrite_nodeCount : s.dropWrite.nodeCount = s.nodeCount := rfl
@[simp] theorem State.dropWrite_root : s.dropWrite.root = s.root := rfl
@[simp] theorem State.dropWrite_errInfo : s.dropWrite.errInfo = s.errInfo := rfl
@[simp] theorem State.dropWrite_freq : s.dropWrite.freq = s.freq := rfl
@[simp] theorem State.dropWrite_node : s.dropWrite.node = s.node := rfl
@[simp] theorem State.dropWrite_code : s.dropWrite.code = s.code := rfl
@[simp] theorem State.dropWrite_inMem : s.dropWrite.inMem = s.inMem := rfl
@[simp] theorem State.dropWrite_outMem : s.dropWrite.outMem = s.outMem := rfl
@[simp] theorem State.dropWrite_tokMem : s.dropWrite.tokMem = s.tokMem := rfl
@[simp] theorem State.dropWrite_bitMem : s.dropWrite.bitMem = s.bitMem := rfl
@[simp] theorem State.dropWrite_rst : s.dropWrite.rst = s.rst := rfl
@[simp] theorem State.dropWrite_response : s.dropWrite.response = s.response := rfl
@[simp] theorem State.dropWrite_pending : s.dropWrite.pending = s.pending := rfl
@[simp] theorem State.dropWrite_draws : s.dropWrite.draws = s.draws := rfl

end

/-! ## `releaseReset` -/

section
variable (s : State)

@[simp] theorem State.releaseReset_params : s.releaseReset.params = s.params := rfl
@[simp] theorem State.releaseReset_irqEn : s.releaseReset.irqEn = s.irqEn := rfl
@[simp] theorem State.releaseReset_status : s.releaseReset.status = s.status := rfl
@[simp] theorem State.releaseReset_inflight : s.releaseReset.inflight = s.inflight := rfl
@[simp] theorem State.releaseReset_inLen : s.releaseReset.inLen = s.inLen := rfl
@[simp] theorem State.releaseReset_outLen : s.releaseReset.outLen = s.outLen := rfl
@[simp] theorem State.releaseReset_bitLen : s.releaseReset.bitLen = s.bitLen := rfl
@[simp] theorem State.releaseReset_symCount : s.releaseReset.symCount = s.symCount := rfl
@[simp] theorem State.releaseReset_window : s.releaseReset.window = s.window := rfl
@[simp] theorem State.releaseReset_cursor : s.releaseReset.cursor = s.cursor := rfl
@[simp] theorem State.releaseReset_token : s.releaseReset.token = s.token := rfl
@[simp] theorem State.releaseReset_tokBytes : s.releaseReset.tokBytes = s.tokBytes := rfl
@[simp] theorem State.releaseReset_nodeCount : s.releaseReset.nodeCount = s.nodeCount := rfl
@[simp] theorem State.releaseReset_root : s.releaseReset.root = s.root := rfl
@[simp] theorem State.releaseReset_errInfo : s.releaseReset.errInfo = s.errInfo := rfl
@[simp] theorem State.releaseReset_freq : s.releaseReset.freq = s.freq := rfl
@[simp] theorem State.releaseReset_node : s.releaseReset.node = s.node := rfl
@[simp] theorem State.releaseReset_code : s.releaseReset.code = s.code := rfl
@[simp] theorem State.releaseReset_inMem : s.releaseReset.inMem = s.inMem := rfl
@[simp] theorem State.releaseReset_outMem : s.releaseReset.outMem = s.outMem := rfl
@[simp] theorem State.releaseReset_tokMem : s.releaseReset.tokMem = s.tokMem := rfl
@[simp] theorem State.releaseReset_bitMem : s.releaseReset.bitMem = s.bitMem := rfl
@[simp] theorem State.releaseReset_rst : s.releaseReset.rst = false := rfl
@[simp] theorem State.releaseReset_response : s.releaseReset.response = s.response := rfl
@[simp] theorem State.releaseReset_pending : s.releaseReset.pending = s.pending := rfl
@[simp] theorem State.releaseReset_draws : s.releaseReset.draws = s.draws := rfl

end

/-! ## `assertReset` -/

section
variable (s : State)

@[simp] theorem State.assertReset_params : s.assertReset.params = s.params := rfl
@[simp] theorem State.assertReset_irqEn : s.assertReset.irqEn = State.reset.irqEn := rfl
@[simp] theorem State.assertReset_status : s.assertReset.status = State.reset.status := rfl
@[simp] theorem State.assertReset_inflight : s.assertReset.inflight = State.reset.inflight := rfl
@[simp] theorem State.assertReset_inLen : s.assertReset.inLen = State.reset.inLen := rfl
@[simp] theorem State.assertReset_outLen : s.assertReset.outLen = State.reset.outLen := rfl
@[simp] theorem State.assertReset_bitLen : s.assertReset.bitLen = State.reset.bitLen := rfl
@[simp] theorem State.assertReset_symCount : s.assertReset.symCount = State.reset.symCount := rfl
@[simp] theorem State.assertReset_window : s.assertReset.window = State.reset.window := rfl
@[simp] theorem State.assertReset_cursor : s.assertReset.cursor = State.reset.cursor := rfl
@[simp] theorem State.assertReset_token : s.assertReset.token = State.reset.token := rfl
@[simp] theorem State.assertReset_tokBytes : s.assertReset.tokBytes = State.reset.tokBytes := rfl
@[simp] theorem State.assertReset_nodeCount : s.assertReset.nodeCount = State.reset.nodeCount := rfl
@[simp] theorem State.assertReset_root : s.assertReset.root = State.reset.root := rfl
@[simp] theorem State.assertReset_errInfo : s.assertReset.errInfo = State.reset.errInfo := rfl
@[simp] theorem State.assertReset_freq : s.assertReset.freq = State.reset.freq := rfl
@[simp] theorem State.assertReset_node : s.assertReset.node = State.reset.node := rfl
@[simp] theorem State.assertReset_code : s.assertReset.code = State.reset.code := rfl
@[simp] theorem State.assertReset_inMem : s.assertReset.inMem = State.reset.inMem := rfl
@[simp] theorem State.assertReset_outMem : s.assertReset.outMem = State.reset.outMem := rfl
@[simp] theorem State.assertReset_tokMem : s.assertReset.tokMem = State.reset.tokMem := rfl
@[simp] theorem State.assertReset_bitMem : s.assertReset.bitMem = State.reset.bitMem := rfl
@[simp] theorem State.assertReset_rst : s.assertReset.rst = true := rfl
@[simp] theorem State.assertReset_response : s.assertReset.response = State.reset.response := rfl
@[simp] theorem State.assertReset_pending : s.assertReset.pending = s.pending := rfl
@[simp] theorem State.assertReset_draws : s.assertReset.draws = s.draws := rfl

end

/-! ## How a command ends (R94) -/

/-- The state a command's rule leaves, before completion. -/
def CmdResult.state : CmdResult → State
  | .done s => s
  | .raised s _ => s

@[simp] theorem CmdResult.state_done (s : State) : (CmdResult.done s).state = s := rfl
@[simp] theorem CmdResult.state_raised (s : State) (e : BlockError) : (CmdResult.raised s e).state = s := rfl

/-- The error a command's rule raised, if any. -/
def CmdResult.error : CmdResult → Option BlockError
  | .done _ => none
  | .raised _ e => some e

@[simp] theorem CmdResult.error_done (s : State) : (CmdResult.done s).error = none := rfl
@[simp] theorem CmdResult.error_raised (s : State) (e : BlockError) : (CmdResult.raised s e).error = some e := rfl

/-- A rule that raises nothing ends well. -/
theorem complete_done (s : State) : complete (.done s) = s.endsWell := rfl

/-- A rule that raises ends with the error's code and information. -/
theorem complete_raised (s : State) (e : BlockError) : complete (.raised s e) = s.endsWith e.code e.info := rfl

section
variable (r : CmdResult)

@[simp] theorem complete_params : (complete r).params = r.state.params := by cases r <;> rfl
@[simp] theorem complete_irqEn : (complete r).irqEn = r.state.irqEn := by cases r <;> rfl
@[simp] theorem complete_inLen : (complete r).inLen = r.state.inLen := by cases r <;> rfl
@[simp] theorem complete_outLen : (complete r).outLen = r.state.outLen := by cases r <;> rfl
@[simp] theorem complete_bitLen : (complete r).bitLen = r.state.bitLen := by cases r <;> rfl
@[simp] theorem complete_symCount : (complete r).symCount = r.state.symCount := by cases r <;> rfl
@[simp] theorem complete_window : (complete r).window = r.state.window := by cases r <;> rfl
@[simp] theorem complete_cursor : (complete r).cursor = r.state.cursor := by cases r <;> rfl
@[simp] theorem complete_token : (complete r).token = r.state.token := by cases r <;> rfl
@[simp] theorem complete_tokBytes : (complete r).tokBytes = r.state.tokBytes := by cases r <;> rfl
@[simp] theorem complete_nodeCount : (complete r).nodeCount = r.state.nodeCount := by cases r <;> rfl
@[simp] theorem complete_root : (complete r).root = r.state.root := by cases r <;> rfl
@[simp] theorem complete_freq : (complete r).freq = r.state.freq := by cases r <;> rfl
@[simp] theorem complete_node : (complete r).node = r.state.node := by cases r <;> rfl
@[simp] theorem complete_code : (complete r).code = r.state.code := by cases r <;> rfl
@[simp] theorem complete_inMem : (complete r).inMem = r.state.inMem := by cases r <;> rfl
@[simp] theorem complete_outMem : (complete r).outMem = r.state.outMem := by cases r <;> rfl
@[simp] theorem complete_tokMem : (complete r).tokMem = r.state.tokMem := by cases r <;> rfl
@[simp] theorem complete_bitMem : (complete r).bitMem = r.state.bitMem := by cases r <;> rfl
@[simp] theorem complete_rst : (complete r).rst = r.state.rst := by cases r <;> rfl
@[simp] theorem complete_response : (complete r).response = r.state.response := by cases r <;> rfl
@[simp] theorem complete_pending : (complete r).pending = r.state.pending := by cases r <;> rfl
@[simp] theorem complete_draws : (complete r).draws = r.state.draws := by cases r <;> rfl
@[simp] theorem complete_inflight : (complete r).inflight = none := by cases r <;> rfl
@[simp] theorem complete_done_bit : (complete r).status.done = true := by cases r <;> rfl
@[simp] theorem complete_ovr : (complete r).status.ovr = r.state.status.ovr := by cases r <;> rfl
@[simp] theorem complete_treeValid : (complete r).status.treeValid = r.state.status.treeValid := by cases r <;> rfl
@[simp] theorem complete_codesValid : (complete r).status.codesValid = r.state.status.codesValid := by cases r <;> rfl

end

end Sys2Proof.Machine
end

