-- ==== Sys2Proof/Laws/Bus.lean ====
section
/-! SUPPORT. The host's side (20_memory.md): what an address reaches, and what a word access of a memory reads
and writes. -/

namespace Sys2Proof.Machine

/-! ## The address map (R42, R46) -/

theorem base_mod (p : Params) : p.base % 4 = 0 := by unfold Params.base; omega

theorem bufMax_pos (p : Params) : 1 ≤ p.bufMax ∧ p.bufMax ≤ 2 ^ 24 := by
  have := p.bufMaxPred.isLt
  unfold Params.bufMax
  omega

/-- What an aligned address of the block reaches. -/
theorem busTarget_of_address {p : Params} {addr : Word} {off : Nat} (h : addr.toNat = p.base + off) (h4 : off % 4 = 0) :
    busTarget p addr = decodeOffset p off := by
  have := base_mod p
  rw [busTarget, if_neg (by omega), if_neg (by omega), h, Nat.add_sub_cancel_left]

/-- The registers' offsets are the multiples of 4 below 0x3C (R14). -/
theorem Reg.ofOffset_isSome (off : Nat) : (Reg.ofOffset off).isSome = true ↔ off < 0x3C ∧ off % 4 = 0 := by
  constructor
  · intro h
    unfold Reg.ofOffset at h
    split at h <;> first | omega | (simp at h)
  · rintro ⟨h1, h2⟩
    obtain ⟨k, rfl⟩ : ∃ k, off = 4 * k := ⟨off / 4, by omega⟩
    have : k < 15 := by omega
    interval_cases k <;> rfl

/-- A register is found at its own offset alone (R14). -/
theorem Reg.ofOffset_eq_some {off : Nat} {r : Reg} : Reg.ofOffset off = some r ↔ off = r.offset := by
  constructor
  · intro h
    have hs := (Reg.ofOffset_isSome off).1 (by rw [h]; rfl)
    obtain ⟨k, rfl⟩ : ∃ k, off = 4 * k := ⟨off / 4, by omega⟩
    have : k < 15 := by omega
    interval_cases k <;> (cases h; rfl)
  · rintro rfl
    cases r <;> rfl

/-! ## The address map (R46): said once, row by row -/

/-- What an offset reaches, one constructor per row of R46's table and one for the offsets it leaves out. -/
inductive Reaches (p : Params) (off : Nat) : Option Target → Prop where
  | reg (h : off < 0x1000) : Reaches p off ((Reg.ofOffset off).map .reg)
  | freq (h : 0x1000 ≤ off ∧ off < 0x1400) : Reaches p off (some (.freq (BitVec.ofNat 8 ((off - 0x1000) / 4))))
  | node (h : 0x2000 ≤ off ∧ off < 0x3FF0) :
    Reaches p off (some (.node (BitVec.ofNat 9 ((off - 0x2000) / 16)) ((off - 0x2000) % 16 / 4)))
  | code (h : 0x4000 ≤ off ∧ off < 0x8000) :
    Reaches p off (some (.code (BitVec.ofNat 8 ((off - 0x4000) / 64)) ((off - 0x4000) % 64 / 4)))
  | inMem (h : 0x01000000 ≤ off ∧ off < 0x01000000 + p.bufMax) : Reaches p off (some (.inMem (off - 0x01000000)))
  | outMem (h : 0x02000000 ≤ off ∧ off < 0x02000000 + p.bufMax) : Reaches p off (some (.outMem (off - 0x02000000)))
  | tokMem (h : 0x04000000 ≤ off ∧ off < 0x04000000 + 4 * p.tokMax) :
    Reaches p off (some (.tokMem (off - 0x04000000)))
  | bitMem (h : 0x08000000 ≤ off ∧ off < 0x08000000 + p.bitMax) : Reaches p off (some (.bitMem (off - 0x08000000)))
  | unmapped (h : 0x1000 ≤ off) (h' : ¬ Mapped p off) : Reaches p off none

theorem Reaches.ite {p : Params} {off : Nat} {c : Prop} [Decidable c] {x y : Option Target}
    (hx : c → Reaches p off x) (hy : ¬ c → Reaches p off y) : Reaches p off (if c then x else y) := by
  by_cases h : c
  · rw [if_pos h]; exact hx h
  · rw [if_neg h]; exact hy h

/-- The map reaches at every offset what R46's table says. -/
theorem decodeOffset_reaches (p : Params) (off : Nat) : Reaches p off (decodeOffset p off) := by
  have gap (h : 0x1000 ≤ off) (h' : Mapped p off → False) : Reaches p off none := .unmapped h h'
  simp only [Mapped] at gap
  exact .ite .reg fun _ =>
    .ite (fun _ => .freq (by omega)) fun _ =>
    .ite (fun _ => gap (by omega) (by omega)) fun _ =>
    .ite (fun _ => .node (by omega)) fun _ =>
    .ite (fun _ => gap (by omega) (by omega)) fun _ =>
    .ite (fun _ => .code (by omega)) fun _ =>
    .ite (fun _ => gap (by omega) (by omega)) fun _ =>
    .ite (fun _ => .inMem (by omega)) fun _ =>
    .ite (fun _ => gap (by omega) (by omega)) fun _ =>
    .ite (fun _ => .outMem (by omega)) fun _ =>
    .ite (fun _ => gap (by omega) (by omega)) fun _ =>
    .ite (fun _ => .tokMem (by omega)) fun _ =>
    .ite (fun _ => gap (by omega) (by omega)) fun _ =>
    .ite (fun _ => .bitMem (by omega)) fun _ => gap (by omega) (by omega)

/-- No two rows of the map overlap. -/
theorem Reaches.unique {p : Params} {off : Nat} {x y : Option Target} (hx : Reaches p off x) (hy : Reaches p off y) :
    x = y := by
  have hb := bufMax_pos p
  have ht : p.tokMax = p.bufMax := rfl
  cases hx <;> cases hy <;> first | rfl | omega | (simp only [Mapped] at *; omega)

theorem decodeOffset_eq {p : Params} {off : Nat} {x : Option Target} (h : Reaches p off x) : decodeOffset p off = x :=
  (decodeOffset_reaches p off).unique h

/-- Only the register page reaches a register. -/
theorem decodeOffset_eq_reg {p : Params} {off : Nat} {r : Reg} (h : decodeOffset p off = some (.reg r)) :
    off = r.offset := by
  have hr := decodeOffset_reaches p off
  generalize decodeOffset p off = x at h hr
  cases hr with
  | reg _ =>
    obtain ⟨r', hr, e⟩ := Option.map_eq_some_iff.1 h
    cases e
    exact Reg.ofOffset_eq_some.1 hr
  | _ => cases h

/-- The map names exactly the offsets of the table of R46. -/
theorem decodeOffset_isSome (p : Params) {off : Nat} (h4 : off % 4 = 0) :
    (decodeOffset p off).isSome = true ↔ Mapped p off := by
  have hr := decodeOffset_reaches p off
  generalize decodeOffset p off = x at hr
  cases hr with
  | reg h => rw [Option.isSome_map, Reg.ofOffset_isSome]; simp only [Mapped]; omega
  | unmapped _ h => exact iff_of_false Bool.false_ne_true h
  | _ => exact iff_of_true rfl (by simp only [Mapped]; omega)

/-- A transaction is answered ERROR exactly where no mapped offset is reached (R42). -/
theorem busTarget_eq_none (p : Params) (addr : Word) : busTarget p addr = none ↔ ∀ off, ¬ AddressOf p addr off := by
  have hb := base_mod p
  constructor
  · rintro h off ⟨h1, h2, h3⟩
    rw [busTarget_of_address h1 h2] at h
    have := (decodeOffset_isSome p h2).2 h3
    simp [h] at this
  · intro h
    unfold busTarget
    split
    · rfl
    · split
      · rfl
      · have h4 : (addr.toNat - p.base) % 4 = 0 := by omega
        have := h (addr.toNat - p.base)
        by_contra hne
        exact this ⟨by omega, h4, (decodeOffset_isSome p h4).1 (Option.isSome_iff_ne_none.2 hne)⟩

theorem AddressOf.target {p : Params} {addr : Word} {off : Nat} (h : AddressOf p addr off) :
    ∃ t, busTarget p addr = some t ∧ decodeOffset p off = some t := by
  obtain ⟨h1, h2, h3⟩ := h
  obtain ⟨t, ht⟩ := Option.isSome_iff_exists.1 ((decodeOffset_isSome p h2).2 h3)
  exact ⟨t, by rw [busTarget_of_address h1 h2, ht], ht⟩

section
variable {p : Params}

theorem decodeOffset_reg {off : Nat} (h : off < 0x3C) : decodeOffset p off = (Reg.ofOffset off).map .reg :=
  decodeOffset_eq (.reg (by omega))

theorem decodeOffset_freq (sym : Byte) : decodeOffset p (0x1000 + 4 * sym.toNat) = some (.freq sym) := by
  have := sym.isLt
  rw [decodeOffset_eq (.freq (by omega)), show (0x1000 + 4 * sym.toNat - 0x1000) / 4 = sym.toNat by omega]
  simp

theorem decodeOffset_node {i k : Nat} (hi : i < 511) (hk : k < 4) :
    decodeOffset p (0x2000 + 16 * i + 4 * k) = some (.node (BitVec.ofNat 9 i) k) := by
  rw [decodeOffset_eq (.node (by omega)), show (0x2000 + 16 * i + 4 * k - 0x2000) / 16 = i by omega,
    show (0x2000 + 16 * i + 4 * k - 0x2000) % 16 / 4 = k by omega]

theorem decodeOffset_code (sym : Byte) {k : Nat} (hk : k < 16) :
    decodeOffset p (0x4000 + 64 * sym.toNat + 4 * k) = some (.code sym k) := by
  have := sym.isLt
  rw [decodeOffset_eq (.code (by omega)), show (0x4000 + 64 * sym.toNat + 4 * k - 0x4000) / 64 = sym.toNat by omega,
    show (0x4000 + 64 * sym.toNat + 4 * k - 0x4000) % 64 / 4 = k by omega]
  simp

theorem decodeOffset_inMem {j : Nat} (h : j < p.bufMax) : decodeOffset p (0x01000000 + j) = some (.inMem j) := by
  rw [decodeOffset_eq (.inMem (by omega)), Nat.add_sub_cancel_left]

theorem decodeOffset_outMem {j : Nat} (h : j < p.bufMax) : decodeOffset p (0x02000000 + j) = some (.outMem j) := by
  rw [decodeOffset_eq (.outMem (by omega)), Nat.add_sub_cancel_left]

theorem decodeOffset_tokMem {j : Nat} (h : j < 4 * p.tokMax) : decodeOffset p (0x04000000 + j) = some (.tokMem j) := by
  rw [decodeOffset_eq (.tokMem (by omega)), Nat.add_sub_cancel_left]

theorem decodeOffset_bitMem {j : Nat} (h : j < p.bitMax) : decodeOffset p (0x08000000 + j) = some (.bitMem j) := by
  rw [decodeOffset_eq (.bitMem (by omega)), Nat.add_sub_cancel_left]

end

/-! ## The tables' views (R31, R32) -/

/-- The words of a node entry as numbers (R31). -/
theorem viewWord_toNat (n : Node) :
    n.viewWord 0 = n.freq.setWidth 32 ∧ (n.viewWord 1).toNat = n.freq.toNat / 2 ^ 32 ∧
    (n.viewWord 2).toNat = (match n with | .leaf _ _ => 0 | .internal _ l r => l.toNat + 2 ^ 16 * r.toNat) ∧
    (n.viewWord 3).toNat = (match n with | .leaf sym _ => 2 ^ 8 * sym.toNat | .internal _ _ _ => 1) := by
  have hf := n.freq.isLt
  refine ⟨?_, ?_, ?_, ?_⟩
  · apply BitVec.eq_of_toNat_eq; simp [Node.viewWord]
  · simp only [Node.viewWord, toNat_append_add, BitVec.extractLsb'_toNat, Nat.shiftRight_eq_div_pow]
    rw [Nat.mod_eq_of_lt (by omega)]; simp
  · cases n with
    | leaf => rfl
    | internal f l r =>
      simp only [Node.viewWord, toNat_append_add, BitVec.toNat_ofNat, Nat.zero_mod]
      omega
  · cases n with
    | leaf =>
      simp only [Node.viewWord, toNat_append_add, BitVec.toNat_ofNat, Nat.zero_mod]
      omega
    | internal => rfl

/-- The words of a code entry (R32). -/
theorem codeViewWord_eq (cd : List Bool) (h : cd.length ≤ 255) :
    (codeViewWord cd 0).toNat = cd.length ∧ (∀ k, 0 < k → k < 8 → codeViewWord cd k = 0) ∧
    ∀ k, 8 ≤ k → ∀ i, i < 4 → lane (codeViewWord cd k) i = codeByte cd (4 * (k - 8) + i) := by
  refine ⟨?_, fun k h0 h8 => ?_, fun k h8 i hi => ?_⟩
  · simp only [codeViewWord, if_true, toNat_append_add, BitVec.toNat_ofNat, Nat.zero_mod]
    rw [Nat.mod_eq_of_lt (by omega)]; omega
  · rw [codeViewWord, if_neg (by omega), if_pos h8]
  · rw [codeViewWord, if_neg (by omega), if_neg (by omega)]
    have hl := lane_ofLanes (codeByte cd (4 * (k - 8))) (codeByte cd (4 * (k - 8) + 1)) (codeByte cd (4 * (k - 8) + 2))
      (codeByte cd (4 * (k - 8) + 3))
    have : i = 0 ∨ i = 1 ∨ i = 2 ∨ i = 3 := by omega
    rcases this with rfl | rfl | rfl | rfl
    exacts [hl.1, hl.2.1, hl.2.2.1, hl.2.2.2]

/-! ## Word accesses of the memories (R41, R43, R44) -/

theorem readLanes_getLane (m : Memory Byte) (j d : Nat) :
    (∀ k b, k < 4 → m.get? (j + k) = some b → lane (readLanes m j d).1 k = b) ∧
    ((∀ k, k < 4 → m.get? (j + k) ≠ none) → (readLanes m j d).2 = d) := by
  have hl := lane_ofLanes (readByte m j d).1 (readByte m (j + 1) (readByte m j d).2).1
    (readByte m (j + 2) (readByte m (j + 1) (readByte m j d).2).2).1
    (readByte m (j + 3) (readByte m (j + 2) (readByte m (j + 1) (readByte m j d).2).2).2).1
  have hr : ∀ a d b, m.get? a = some b → (readByte m a d).1 = b := fun a d b h => by rw [readByte_of_get? h]
  have hd : ∀ a d, m.get? a ≠ none → (readByte m a d).2 = d := fun a d h => by
    obtain ⟨b, hb⟩ := Option.ne_none_iff_exists'.1 h
    rw [readByte_of_get? hb]
  simp only [readLanes]
  refine ⟨fun k b hk hb => ?_, fun h => ?_⟩
  · have : k = 0 ∨ k = 1 ∨ k = 2 ∨ k = 3 := by omega
    rcases this with rfl | rfl | rfl | rfl
    · exact hl.1.trans (hr _ _ _ hb)
    · exact hl.2.1.trans (hr _ _ _ hb)
    · exact hl.2.2.1.trans (hr _ _ _ hb)
    · exact hl.2.2.2.trans (hr _ _ _ hb)
  · have h0 := h 0 (by omega)
    rw [Nat.add_zero] at h0
    rw [hd _ _ (h 3 (by omega)), hd _ _ (h 2 (by omega)), hd _ _ (h 1 (by omega)), hd _ _ h0]

theorem bitLane_eq (b : Bool) : bitLane b = if b then 1 else 0 := by cases b <;> rfl

/-- A word read of BITMEM holds one entry a lane, 0x00 or 0x01 (R44). -/
theorem readBitLanes_getLane (m : Memory Bool) (j d : Nat) :
    (∀ k, k < 4 → lane (readBitLanes m j d).1 k = 0 ∨ lane (readBitLanes m j d).1 k = 1) ∧
    (∀ k b, k < 4 → m.get? (j + k) = some b → lane (readBitLanes m j d).1 k = if b then 1 else 0) := by
  have hl := lane_ofLanes (bitLane (readBit m j d).1) (bitLane (readBit m (j + 1) (readBit m j d).2).1)
    (bitLane (readBit m (j + 2) (readBit m (j + 1) (readBit m j d).2).2).1)
    (bitLane (readBit m (j + 3) (readBit m (j + 2) (readBit m (j + 1) (readBit m j d).2).2).2).1)
  have hr : ∀ a d b, m.get? a = some b → bitLane (readBit m a d).1 = if b then 1 else 0 := fun a d b h => by
    rw [readBit_of_get? h, bitLane_eq]
  have h01 : ∀ b, bitLane b = 0 ∨ bitLane b = 1 := by decide
  simp only [readBitLanes]
  refine ⟨fun k hk => ?_, fun k b hk hb => ?_⟩
  · have : k = 0 ∨ k = 1 ∨ k = 2 ∨ k = 3 := by omega
    rcases this with rfl | rfl | rfl | rfl
    · rw [hl.1]; exact h01 _
    · rw [hl.2.1]; exact h01 _
    · rw [hl.2.2.1]; exact h01 _
    · rw [hl.2.2.2]; exact h01 _
  · have : k = 0 ∨ k = 1 ∨ k = 2 ∨ k = 3 := by omega
    rcases this with rfl | rfl | rfl | rfl
    · exact hl.1.trans (hr _ _ _ hb)
    · exact hl.2.1.trans (hr _ _ _ hb)
    · exact hl.2.2.1.trans (hr _ _ _ hb)
    · exact hl.2.2.2.trans (hr _ _ _ hb)

/-- What four guarded writes at j, j + 1, j + 2, j + 3 leave. -/
theorem get?_foldl_lanes {α : Type} (ok : Nat → Prop) [DecidablePred ok] (j : Nat) (v : Nat → α) (m : Memory α) :
    let m' := [0, 1, 2, 3].foldl (fun m i => if ok i then m.write (j + i) (v i) else m) m
    (∀ k, k < 4 → ok k → m'.get? (j + k) = some (v k)) ∧
    (∀ a, (∀ k, k < 4 → ok k → a ≠ j + k) → m'.get? a = m.get? a) := by
  have one : ∀ (m : Memory α) (i a : Nat), (if ok i then m.write (j + i) (v i) else m).get? a =
      if ok i ∧ a = j + i then some (v i) else m.get? a := by
    intro m i a
    by_cases h : ok i
    · simp [h, Memory.get?_write]
    · simp [h]
  simp only [List.foldl_cons, List.foldl_nil, one]
  refine ⟨fun k hk hok => ?_, fun a ha => ?_⟩
  · have : k = 0 ∨ k = 1 ∨ k = 2 ∨ k = 3 := by omega
    rcases this with rfl | rfl | rfl | rfl <;> simp [hok]
  · have hn : ∀ k, k < 4 → ¬ (ok k ∧ a = j + k) := fun k hk h => ha k hk h.1 h.2
    rw [if_neg (hn 3 (by omega)), if_neg (hn 2 (by omega)), if_neg (hn 1 (by omega)), if_neg (hn 0 (by omega))]

/-- Each enabled lane's byte is stored, and every other byte is left (R41, R43). -/
theorem get?_writeLanes (size j : Nat) (data : Word) (strb : BitVec 4) (m : Memory Byte) :
    (∀ k, k < 4 → strb.getLsbD k = true → j + k < size →
      (writeLanes size j data strb m).get? (j + k) = some (lane data k)) ∧
    (∀ a, (∀ k, k < 4 → strb.getLsbD k = true → j + k < size → a ≠ j + k) →
      (writeLanes size j data strb m).get? a = m.get? a) := by
  have h := get?_foldl_lanes (fun i => strb.getLsbD i = true ∧ j + i < size) j (lane data) m
  exact ⟨fun k hk h1 h2 => h.1 k hk ⟨h1, h2⟩, fun a ha => h.2 a (fun k hk hok => ha k hk hok.1 hok.2)⟩

/-- Bit 8i of each enabled lane is stored, and every other entry is left (R44). -/
theorem get?_writeBitLanes (size j : Nat) (data : Word) (strb : BitVec 4) (m : Memory Bool) :
    (∀ k, k < 4 → strb.getLsbD k = true → j + k < size →
      (writeBitLanes size j data strb m).get? (j + k) = some (data.getLsbD (8 * k))) ∧
    (∀ a, (∀ k, k < 4 → strb.getLsbD k = true → j + k < size → a ≠ j + k) →
      (writeBitLanes size j data strb m).get? a = m.get? a) := by
  have h := get?_foldl_lanes (fun i => strb.getLsbD i = true ∧ j + i < size) j (fun k => data.getLsbD (8 * k)) m
  exact ⟨fun k hk h1 h2 => h.1 k hk ⟨h1, h2⟩, fun a ha => h.2 a (fun k hk hok => ha k hk hok.1 hok.2)⟩

/-- A word write keeps the canonical form and stays within the memory (R33-R36). -/
theorem wf_writeLanes {size j : Nat} {data : Word} {strb : BitVec 4} {m : Memory Byte} (h : m.wf ∧ m.below size) :
    (writeLanes size j data strb m).wf ∧ (writeLanes size j data strb m).below size := by
  have one : ∀ (m : Memory Byte) i, m.wf ∧ m.below size →
      (writeLane size j data strb m i).wf ∧ (writeLane size j data strb m i).below size := by
    intro m i h
    unfold writeLane
    split
    · rename_i hi
      exact ⟨Memory.wf_write h.1 _ _, Memory.below_write h.2 hi.2 _⟩
    · exact h
  exact one _ 3 (one _ 2 (one _ 1 (one _ 0 h)))

theorem wf_writeBitLanes {size j : Nat} {data : Word} {strb : BitVec 4} {m : Memory Bool} (h : m.wf ∧ m.below size) :
    (writeBitLanes size j data strb m).wf ∧ (writeBitLanes size j data strb m).below size := by
  have one : ∀ (m : Memory Bool) i, m.wf ∧ m.below size →
      (writeBitLane size j data strb m i).wf ∧ (writeBitLane size j data strb m i).below size := by
    intro m i h
    unfold writeBitLane
    split
    · rename_i hi
      exact ⟨Memory.wf_write h.1 _ _, Memory.below_write h.2 hi.2 _⟩
    · exact h
  exact one _ 3 (one _ 2 (one _ 1 (one _ 0 h)))

/-! ## Transactions -/

/-- All a read can do: it answers, and counts the free values it drew (R47). -/
theorem busRead_eq (s : State) (addr : Word) :
    ∃ r d, s.busRead addr = { s with response := some r, draws := d } := by
  unfold State.busRead
  split
  · exact ⟨_, s.draws, rfl⟩
  · split
    · exact ⟨_, _, rfl⟩
    · exact ⟨_, _, rfl⟩

/-- A read of a mapped word the block answers as at any time when it is not BUSY. -/
theorem busRead_idle {s : State} {addr : Word} {t : Target} (h : busTarget s.params addr = some t)
    (hb : s.busy = false ∨ t.readableWhileBusy = true) :
    s.busRead addr =
      { s with response := some (.read (s.readTarget t).1 .okay), draws := (s.readTarget t).2 } := by
  simp only [State.busRead, h]
  rw [if_neg (by rcases hb with h | h <;> simp [h])]

/-- A write of a mapped word the block does not drop. -/
theorem busWrite_idle {s : State} {addr data : Word} {strb : BitVec 4} {t : Target}
    (h : busTarget s.params addr = some t) (h0 : strb ≠ 0) (hb : s.busy = false ∨ t.writableWhileBusy = true) :
    s.busWrite addr data strb = { s.writeTarget t data strb with response := some (.write .okay) } := by
  simp only [State.busWrite, h]
  rw [if_neg h0, if_neg (by rcases hb with h | h <;> simp [h])]

/-- A write dropped because the block is BUSY (R110). -/
theorem busWrite_busy {s : State} {addr data : Word} {strb : BitVec 4} {t : Target}
    (h : busTarget s.params addr = some t) (h0 : strb ≠ 0) (hb : s.busy = true) (ht : t.writableWhileBusy = false) :
    s.busWrite addr data strb = { s.dropWrite with response := some (.write .okay) } := by
  simp only [State.busWrite, h]
  rw [if_neg h0, if_pos (by simp [hb, ht])]

end Sys2Proof.Machine
end

