-- ==== Sys2Proof/Laws/Codes.lean ====
section
/-! SUPPORT. The traversal of HASSIGN and the code tables of trees (40_huffman_tree.md R71, R72). -/

namespace Sys2Proof.Machine

theorem codeAt_setCode (cs : Vector (List Bool) 256) (sym v : Byte) (path : List Bool) :
    codeAt (setCode cs sym path) v = if v = sym then path else codeAt cs v := by
  simp only [codeAt, setCode, Vector.getElem_set]
  by_cases h : v = sym
  · simp [h]
  · rw [if_neg (fun h' => h (BitVec.eq_of_toNat_eq h'.symm)), if_neg h]

section
variable {ns : Vector Node 511} {n : Nat}

/-- What a visit writes: under the visited node every symbol gets the path so far and its path below; every
other entry is left (R71). -/
theorem TreeOf.visit_spec (h : TreeOf ns n) {root : BitVec 9} (hroot : root.toNat < 2 * n - 1) (depth : Nat)
    (i : BitVec 9) (path : List Bool) (cs : Vector (List Bool) 256) (hp : followIdx ns root path = some i)
    (hd : i.toNat < depth) (sym : Byte) :
    (∀ p, LeadsToLeaf ns i p sym → codeAt (visit ns depth i path cs) sym = path ++ p) ∧
    ((∀ p, ¬ LeadsToLeaf ns i p sym) → codeAt (visit ns depth i path cs) sym = codeAt cs sym) := by
  induction depth generalizing i path cs with
  | zero => omega
  | succ depth ih =>
    have hi : i.toNat < 2 * n - 1 := by have := (h.followIdx_lt hroot hp).1; omega
    cases e : nodeAt ns i with
    | leaf s f =>
      simp only [visit, e, codeAt_setCode]
      constructor
      · intro p hl
        obtain ⟨rfl, rfl⟩ := (leadsToLeaf_of_leaf e).1 hl
        simp
      · intro hno
        rw [if_neg]
        rintro rfl
        exact hno [] ((leadsToLeaf_of_leaf e).2 ⟨rfl, rfl⟩)
    | internal f l r =>
      obtain ⟨hn, hl, hr, -⟩ := h.isInternal hi e
      have hpl : followIdx ns root (path ++ [false]) = some l := by
        rw [followIdx_append, hp]
        exact (followIdx_singleton ns i false l).2 ⟨f, l, r, e, rfl⟩
      have hpr : followIdx ns root (path ++ [true]) = some r := by
        rw [followIdx_append, hp]
        exact (followIdx_singleton ns i true r).2 ⟨f, l, r, e, rfl⟩
      have hL := ih l (path ++ [false]) cs hpl (by omega)
      have hR := ih r (path ++ [true]) (visit ns depth l (path ++ [false]) cs) hpr (by omega)
      simp only [visit, e]
      constructor
      · intro p hlead
        obtain ⟨b, q, rfl, hq⟩ := (leadsToLeaf_internal e).1 hlead
        cases b with
        | false =>
          rw [hR.2 (fun q' hq' => ?_), hL.1 q (by simpa using hq)]
          · simp
          · have h1 := (leadsToLeaf_cons (b := true) (p := q') e).2 (by simpa using hq')
            have := h.leads_unique hi hlead h1
            simp at this
        | true =>
          rw [hR.1 q (by simpa using hq)]
          simp
      · intro hno
        rw [hR.2 (fun q hq => hno (true :: q) ((leadsToLeaf_cons e).2 (by simpa using hq))),
          hL.2 (fun q hq => hno (false :: q) ((leadsToLeaf_cons e).2 (by simpa using hq)))]

/-- The table HASSIGN writes is the code table of the tree (R71). -/
theorem TreeOf.assignCodes_isCodeTable (h : TreeOf ns n) {root : BitVec 9} (hr : root.toNat = 2 * n - 2) :
    IsCodeTable ns root (assignCodes ns root) := by
  have hs := h.leaves
  intro sym c
  cases e : nodeAt ns root with
  | leaf s f =>
    simp only [assignCodes, e, codeAt_setCode, IsCodeOf, leadsToLeaf_of_leaf e]
    by_cases hsym : sym = s
    · simp only [hsym, if_true]
      constructor
      · rintro ⟨rfl, -⟩; exact Or.inr ⟨⟨trivial, trivial⟩, rfl⟩
      · rintro (⟨⟨rfl, -⟩, h2⟩ | ⟨-, rfl⟩)
        · exact absurd rfl h2
        · simp
    · simp only [hsym, if_false, and_false, false_and, or_false, iff_false, codeAt_noCodes]
      rintro ⟨rfl, h2⟩; exact h2 rfl
  | internal f l r =>
    simp only [assignCodes, e]
    have hv := h.visit_spec (root := root) (by omega) 511 root [] noCodes rfl (by omega) sym
    simp only [List.nil_append, codeAt_noCodes] at hv
    have hnil : ¬ LeadsToLeaf ns root [] sym := by rw [leadsToLeaf_nil, e]; simp
    constructor
    · rintro ⟨rfl, hne⟩
      left
      by_cases hex : ∃ p, LeadsToLeaf ns root p sym
      · obtain ⟨p, hp⟩ := hex
        rw [hv.1 p hp] at hne ⊢
        exact ⟨hp, hne⟩
      · exact absurd (hv.2 (fun p hp => hex ⟨p, hp⟩)) hne
    · rintro (⟨hp, hne⟩ | ⟨hp, -⟩)
      · exact ⟨hv.1 c hp, hne⟩
      · exact absurd hp hnil

theorem IsCodeTable.isCodeOf {root : BitVec 9} {cs : Vector (List Bool) 256} (h : IsCodeTable ns root cs) {sym : Byte}
    (hne : codeAt cs sym ≠ []) : IsCodeOf ns root sym (codeAt cs sym) :=
  (h sym _).1 ⟨rfl, hne⟩

theorem IsCodeOf.ne_nil {root : BitVec 9} {sym : Byte} {c : List Bool} (h : IsCodeOf ns root sym c) : c ≠ [] := by
  rcases h with ⟨-, h⟩ | ⟨-, rfl⟩
  · exact h
  · simp

/-- A symbol has a code exactly where some path leads to a leaf of it. -/
theorem exists_isCodeOf {root : BitVec 9} {sym : Byte} :
    (∃ c, IsCodeOf ns root sym c) ↔ ∃ p, LeadsToLeaf ns root p sym := by
  constructor
  · rintro ⟨c, ⟨h, -⟩ | ⟨h, -⟩⟩
    exacts [⟨_, h⟩, ⟨_, h⟩]
  · rintro ⟨p, h⟩
    by_cases hp : p = []
    · exact ⟨[false], Or.inr ⟨hp ▸ h, rfl⟩⟩
    · exact ⟨p, Or.inl ⟨h, hp⟩⟩

theorem IsCodeTable.ne_nil_iff {root : BitVec 9} {cs : Vector (List Bool) 256} (h : IsCodeTable ns root cs)
    {sym : Byte} : codeAt cs sym ≠ [] ↔ ∃ p, LeadsToLeaf ns root p sym := by
  rw [← exists_isCodeOf]
  constructor
  · exact fun hne => ⟨_, h.isCodeOf hne⟩
  · rintro ⟨c, hc⟩
    obtain ⟨h1, h2⟩ := (h sym c).2 hc
    rw [h1]; exact h2

/-- A code table of a tree is determined by the tree. -/
theorem IsCodeTable.unique {root : BitVec 9} {cs cs' : Vector (List Bool) 256} (h : IsCodeTable ns root cs)
    (h' : IsCodeTable ns root cs') (sym : Byte) : codeAt cs sym = codeAt cs' sym := by
  by_cases hc : codeAt cs sym = []
  · by_cases hc' : codeAt cs' sym = []
    · rw [hc, hc']
    · exact ((h sym _).2 (h'.isCodeOf hc')).1
  · exact ((h' sym _).2 (h.isCodeOf hc)).1.symm

/-- Codes of two symbols under a tree are not an initial part of each other (R72). -/
theorem IsCodeOf.prefixFree {root : BitVec 9} {x y : Byte} {c c' : List Bool} (hx : IsCodeOf ns root x c)
    (hy : IsCodeOf ns root y c') (hp : c <+: c') : x = y := by
  obtain ⟨t, rfl⟩ := hp
  cases e : nodeAt ns root with
  | leaf s f =>
    simp only [IsCodeOf, leadsToLeaf_of_leaf e] at hx hy
    have h1 : x = s := by rcases hx with hx | hx <;> exact hx.1.2
    have h2 : y = s := by rcases hy with hy | hy <;> exact hy.1.2
    rw [h1, h2]
  | internal f l r =>
    have hnil : ∀ sym, ¬ LeadsToLeaf ns root [] sym := by intro sym; rw [leadsToLeaf_nil, e]; simp
    have h1 : LeadsToLeaf ns root c x := by
      rcases hx with hx | hx
      · exact hx.1
      · exact absurd hx.1 (hnil x)
    have h2 : LeadsToLeaf ns root (c ++ t) y := by
      rcases hy with hy | hy
      · exact hy.1
      · exact absurd hy.1 (hnil y)
    obtain ⟨f1, h1⟩ := h1
    obtain ⟨f2, h2⟩ := h2
    rw [follow_eq, Option.map_eq_some_iff] at h1 h2
    obtain ⟨j, hj, ej⟩ := h1
    obtain ⟨j', hj', ej'⟩ := h2
    rw [followIdx_append, hj] at hj'
    cases t with
    | nil =>
      simp only [followIdx, Option.bind_some, Option.some.injEq] at hj'
      subst hj'
      rw [ej] at ej'
      cases ej'; rfl
    | cons b t => simp [followIdx, ej] at hj'

/-- Every code under a tree is 1 to 255 bits long (R72). -/
theorem TreeOf.code_length (h : TreeOf ns n) {root : BitVec 9} (hr : root.toNat = 2 * n - 2) {sym : Byte}
    {c : List Bool} (hc : IsCodeOf ns root sym c) : 1 ≤ c.length ∧ c.length ≤ 255 := by
  have hs := h.leaves
  refine ⟨List.length_pos_iff.2 hc.ne_nil, ?_⟩
  rcases hc with ⟨hl, -⟩ | ⟨-, rfl⟩
  · have := h.depth_le (i := root) (by omega) hl; omega
  · simp

end

/-- The symbols some path of HBUILD's tree leads to are the present ones (R72). -/
theorem leads_iff_present (f : Vector Word 256) (h : present f ≠ []) {root : BitVec 9}
    (hr : root.toNat = 2 * (present f).length - 2) (sym : Byte) :
    (∃ p, LeadsToLeaf (arenaOf (buildNodes f)) root p sym) ↔ freqAt f sym ≠ 0 := by
  obtain ⟨ht, hleaf, -⟩ := buildNodes_arena f h
  have hs := ht.leaves
  have hmem : freqAt f sym ≠ 0 ↔ sym.toNat ∈ present f := by
    simp only [present, List.mem_filter, List.mem_range, decide_eq_true_eq, BitVec.ofNat_toNat, BitVec.setWidth_eq]
    exact ⟨fun h => ⟨sym.isLt, h⟩, fun h => h.2⟩
  rw [hmem]
  constructor
  · rintro ⟨p, g, hp⟩
    rw [follow_eq, Option.map_eq_some_iff] at hp
    obtain ⟨j, hj, ej⟩ := hp
    have b1 := (ht.followIdx_lt (by omega) hj).1
    have l1 := ht.isLeaf (by omega) ej
    have e := hleaf j.toNat l1
    rw [← nodeAt_eq_nodeN, ej] at e
    have hb := present_lt f (List.getElem_mem l1)
    have e1 := congrArg BitVec.toNat (Node.leaf.inj e).1
    rw [BitVec.toNat_ofNat, Nat.mod_eq_of_lt hb] at e1
    rw [e1]
    exact List.getElem_mem l1
  · intro hm
    obtain ⟨k, hk, e⟩ := List.getElem_of_mem hm
    have mk : (BitVec.ofNat 9 k).toNat = k := by simp [Nat.mod_eq_of_lt (show k < 512 by omega)]
    obtain ⟨p, hp⟩ := ht.reached hr (BitVec.ofNat 9 k) (by omega)
    have e2 := hleaf k hk
    rw [e] at e2
    simp only [BitVec.ofNat_toNat, BitVec.setWidth_eq] at e2
    exact ⟨p, (freqAt f sym).setWidth 40, by rw [follow_eq, hp, Option.map_some, nodeAt_eq_nodeN, mk, e2]⟩

end Sys2Proof.Machine
end

