-- ==== Sys2Proof/Laws/Cost.lean ====
section
/-! SUPPORT. HBUILD's codes never take more than eight bits per counted byte (the fact G1 of
93_implementation_defined.md that 41_huffman_bits.md R73 and R77 rest on).  The proof carries a depth budget of at
most 8 per waiting node, within Kraft's bound, through the merge loop: the two least nodes can always be given the
two deepest budgets, and their merge one less. -/

namespace Sys2Proof.Machine

open Finset

/-! ## Depth budgets -/

/-- Budgets of at most 8 that fit one binary tree. -/
structure Budget (S : Finset ℕ) (D : ℕ → ℕ) : Prop where
  le : ∀ i ∈ S, D i ≤ 8
  kraft : ∑ i ∈ S, 2 ^ (8 - D i) ≤ 2 ^ 8

/-- Exchanging the budgets of two nodes. -/
theorem sum_swap {S : Finset ℕ} {u v : ℕ} (hu : u ∈ S) (hv : v ∈ S) (g : ℕ → ℕ) :
    ∑ i ∈ S, g (Equiv.swap u v i) = ∑ i ∈ S, g i := by
  refine Finset.sum_equiv (Equiv.swap u v) (fun i => ?_) (fun i _ => rfl)
  by_cases h1 : i = u
  · simp [h1, hu, hv]
  · by_cases h2 : i = v
    · simp [h2, hu, hv]
    · rw [Equiv.swap_apply_of_ne_of_ne h1 h2]

theorem Budget.swap {S : Finset ℕ} {D : ℕ → ℕ} (h : Budget S D) {u v : ℕ} (hu : u ∈ S) (hv : v ∈ S) :
    Budget S (fun i => D (Equiv.swap u v i)) := by
  refine ⟨fun i hi => ?_, (sum_swap hu hv (fun i => 2 ^ (8 - D i))).le.trans h.kraft⟩
  by_cases h1 : i = u
  · simpa [h1] using h.le v hv
  · by_cases h2 : i = v
    · simpa [h2] using h.le u hu
    · simpa [Equiv.swap_apply_of_ne_of_ne h1 h2] using h.le i hi

/-- Giving the lighter node the deeper budget does not cost more. -/
theorem cost_swap {S : Finset ℕ} {f D : ℕ → ℕ} {u v : ℕ} (hu : u ∈ S) (hv : v ∈ S) (hf : f u ≤ f v)
    (hD : D u ≤ D v) : ∑ i ∈ S, f i * D (Equiv.swap u v i) ≤ ∑ i ∈ S, f i * D i := by
  by_cases huv : u = v
  · subst huv; simp
  · have hv' : v ∈ S.erase u := Finset.mem_erase.2 ⟨Ne.symm huv, hv⟩
    rw [← Finset.add_sum_erase S _ hu, ← Finset.add_sum_erase (S.erase u) _ hv', ← Finset.add_sum_erase S _ hu,
      ← Finset.add_sum_erase (S.erase u) _ hv', Equiv.swap_apply_left, Equiv.swap_apply_right]
    have hrest : ∑ i ∈ (S.erase u).erase v, f i * D (Equiv.swap u v i) = ∑ i ∈ (S.erase u).erase v, f i * D i := by
      refine Finset.sum_congr rfl (fun i hi => ?_)
      simp only [Finset.mem_erase] at hi
      rw [Equiv.swap_apply_of_ne_of_ne hi.2.1 hi.1]
    rw [hrest]
    obtain ⟨x, hx⟩ := Nat.exists_eq_add_of_le hf
    obtain ⟨y, hy⟩ := Nat.exists_eq_add_of_le hD
    rw [hx, hy]
    nlinarith [Nat.zero_le (x * y)]

/-- The deepest budget can be had by two nodes: a lone deepest one can be lowered, because Kraft's sum is even. -/
theorem Budget.two_deepest {S : Finset ℕ} {f : ℕ → ℕ} (hS : 2 ≤ S.card) {D : ℕ → ℕ} (h : Budget S D) :
    ∃ D' x y, Budget S D' ∧ x ∈ S ∧ y ∈ S ∧ x ≠ y ∧ D' x = D' y ∧ (∀ i ∈ S, D' i ≤ D' x) ∧
      ∑ i ∈ S, f i * D' i ≤ ∑ i ∈ S, f i * D i := by
  induction hk : ∑ i ∈ S, D i using Nat.strongRecOn generalizing D with
  | _ k ih =>
    obtain ⟨x, hx, hmax⟩ := Finset.exists_max_image S D (Finset.card_pos.1 (by omega))
    by_cases hy : ∃ y ∈ S, y ≠ x ∧ D y = D x
    · obtain ⟨y, hyS, hyx, hD⟩ := hy
      exact ⟨D, x, y, h, hx, hyS, Ne.symm hyx, hD.symm, hmax, le_rfl⟩
    · have hlt : ∀ y ∈ S.erase x, D y + 1 ≤ D x := by
        intro y hyS
        obtain ⟨h1, h2⟩ := Finset.mem_erase.1 hyS
        have := hmax y h2
        have : D y ≠ D x := fun e => hy ⟨y, h2, h1, e⟩
        omega
      obtain ⟨y, hyS, hyx⟩ := Finset.exists_mem_ne (s := S) (by omega) x
      have hpos : 1 ≤ D x := by have := hlt y (Finset.mem_erase.2 ⟨hyx, hyS⟩); omega
      have hm8 := h.le x hx
      set D1 : ℕ → ℕ := Function.update D x (D x - 1) with hD1
      have e1 : D1 x = D x - 1 := by simp [hD1]
      have e2 : ∀ i ∈ S.erase x, D1 i = D i := fun i hi => by
        rw [hD1, Function.update_of_ne (Finset.mem_erase.1 hi).1]
      have hsplit : ∀ g : ℕ → ℕ → ℕ, ∑ i ∈ S, g i (D1 i) = g x (D x - 1) + ∑ i ∈ S.erase x, g i (D i) := by
        intro g
        rw [← Finset.add_sum_erase S _ hx, e1]
        congr 1
        exact Finset.sum_congr rfl (fun i hi => by rw [e2 i hi])
      have hb : Budget S D1 := by
        refine ⟨fun i hi => ?_, ?_⟩
        · by_cases hix : i = x
          · rw [hix, e1]; omega
          · rw [e2 i (Finset.mem_erase.2 ⟨hix, hi⟩)]; exact h.le i hi
        · rw [hsplit (fun _ d => 2 ^ (8 - d))]
          have hK := h.kraft
          rw [← Finset.add_sum_erase S _ hx] at hK
          obtain ⟨c, hc⟩ : 2 ^ (8 - D x + 1) ∣ ∑ i ∈ S.erase x, 2 ^ (8 - D i) := by
            refine Finset.dvd_sum (fun i hi => pow_dvd_pow 2 ?_)
            have := hlt i hi; omega
          obtain ⟨c', hc'⟩ : 2 ^ (8 - D x + 1) ∣ 2 ^ 8 := pow_dvd_pow 2 (by omega)
          rw [show 8 - (D x - 1) = 8 - D x + 1 by omega]
          rw [hc, hc'] at hK
          rw [hc, hc']
          have hp : 0 < 2 ^ (8 - D x) := by positivity
          rw [pow_succ] at hK ⊢
          have : c + 1 ≤ c' := by
            by_contra hcc
            have : c' ≤ c := by omega
            have := Nat.mul_le_mul_left (2 ^ (8 - D x) * 2) this
            omega
          have := Nat.mul_le_mul_left (2 ^ (8 - D x) * 2) this
          rw [Nat.mul_add] at this
          omega
      have hdec : ∑ i ∈ S, D1 i < k := by
        rw [hsplit (fun _ d => d), ← hk, ← Finset.add_sum_erase S D hx]
        omega
      obtain ⟨D', x', y', r1, r2, r3, r4, r5, r6, r7⟩ := ih _ hdec hb rfl
      refine ⟨D', x', y', r1, r2, r3, r4, r5, r6, r7.trans ?_⟩
      rw [hsplit (fun i d => f i * d), ← Finset.add_sum_erase S (fun i => f i * D i) hx]
      exact Nat.add_le_add_right (Nat.mul_le_mul_left _ (by omega)) _

/-- The two lightest nodes can be given the two deepest budgets at no cost. -/
theorem Budget.lightest_deepest {S : Finset ℕ} {f : ℕ → ℕ} {D : ℕ → ℕ} (h : Budget S D) {a b : ℕ} (ha : a ∈ S)
    (hb : b ∈ S) (hab : a ≠ b) (hfa : ∀ c ∈ S, f a ≤ f c) (hfb : ∀ c ∈ S, c ≠ a → f b ≤ f c) :
    ∃ D', Budget S D' ∧ D' a = D' b ∧ 1 ≤ D' a ∧ ∑ i ∈ S, f i * D' i ≤ ∑ i ∈ S, f i * D i := by
  have hS : 2 ≤ S.card := by
    have := Finset.card_le_card (show ({a, b} : Finset ℕ) ⊆ S by intro i hi; simp at hi; rcases hi with rfl | rfl <;> assumption)
    rwa [Finset.card_pair hab] at this
  obtain ⟨D1, x, y, hB, hx, hy, hxy, hD, hmax, hc⟩ := h.two_deepest (f := f) hS
  have hB2 := hB.swap ha hx
  have hc2 := cost_swap ha hx (hfa x hx) (hmax a ha)
  obtain ⟨z, hz, hza, hDz⟩ : ∃ z ∈ S, z ≠ a ∧ D1 (Equiv.swap a x z) = D1 x := by
    by_cases hya : y = a
    · refine ⟨x, hx, fun e => hxy (e.trans hya.symm), ?_⟩
      rw [Equiv.swap_apply_right, ← hya, hD]
    · refine ⟨y, hy, hya, ?_⟩
      rw [Equiv.swap_apply_of_ne_of_ne hya (Ne.symm hxy), hD]
  have hc3 := cost_swap (f := f) (D := fun i => D1 (Equiv.swap a x i)) hb hz (hfb z hz hza) (by
    simp only [hDz]
    by_cases hbx : b = x
    · rw [hbx, Equiv.swap_apply_right]; exact hmax a ha
    · rw [Equiv.swap_apply_of_ne_of_ne (Ne.symm hab) hbx]; exact hmax b hb)
  have ea : D1 (Equiv.swap a x (Equiv.swap b z a)) = D1 x := by
    rw [Equiv.swap_apply_of_ne_of_ne hab (Ne.symm hza), Equiv.swap_apply_left]
  have eb : D1 (Equiv.swap a x (Equiv.swap b z b)) = D1 x := by
    rw [Equiv.swap_apply_left, hDz]
  refine ⟨fun i => D1 (Equiv.swap a x (Equiv.swap b z i)), hB2.swap hb hz, ea.trans eb.symm, ?_, ?_⟩
  · show 1 ≤ D1 (Equiv.swap a x (Equiv.swap b z a))
    rw [ea]
    by_contra h0
    have hx0 : D1 x = 0 := by omega
    have hK := hB.kraft
    have h2 : ∑ i ∈ ({x, y} : Finset ℕ), 2 ^ (8 - D1 i) ≤ ∑ i ∈ S, 2 ^ (8 - D1 i) :=
      Finset.sum_le_sum_of_subset (by intro i hi; simp at hi; rcases hi with rfl | rfl <;> assumption)
    rw [Finset.sum_pair hxy, ← hD, hx0] at h2
    omega
  · exact hc3.trans (hc2.trans hc)

/-! ## The merge loop keeps the cost within eight bits a byte -/

/-- The symbols below a node with their depths. -/
abbrev Depths := List (Byte × ℕ)

/-- The total depth, each symbol weighted by its count. -/
def Depths.cost (cnt : Byte → ℕ) (t : Depths) : ℕ := (t.map (fun x => cnt x.1 * x.2)).sum

/-- The total count. -/
def Depths.weight (cnt : Byte → ℕ) (t : Depths) : ℕ := (t.map (fun x => cnt x.1)).sum

/-- Two subtrees under one node: everything is one deeper. -/
def Depths.join (t u : Depths) : Depths := (t ++ u).map (fun x => (x.1, x.2 + 1))

theorem Depths.weight_join (cnt : Byte → ℕ) (t u : Depths) :
    (t.join u).weight cnt = t.weight cnt + u.weight cnt := by
  simp [Depths.join, Depths.weight, List.map_map, Function.comp_def]

theorem Depths.cost_join (cnt : Byte → ℕ) (t u : Depths) :
    (t.join u).cost cnt = t.cost cnt + u.cost cnt + t.weight cnt + u.weight cnt := by
  have h : ∀ l : Depths, (l.map (fun x => cnt x.1 * (x.2 + 1))).sum = l.cost cnt + l.weight cnt := by
    intro l
    induction l with
    | nil => rfl
    | cons x l ih => simp only [List.map_cons, List.sum_cons, Depths.cost, Depths.weight, Nat.mul_add] at *; omega
  have e : (t.join u).cost cnt = ((t ++ u).map (fun x => cnt x.1 * (x.2 + 1))).sum := by
    simp [Depths.join, Depths.cost, List.map_map, Function.comp_def]
  rw [e, List.map_append, List.sum_append, h, h]; omega

/-- The symbols below every node of the arena so far, and budgets for the waiting ones that, with the depths
already built, cost at most eight bits per counted byte. -/
def WithinEightBits (cnt : Byte → ℕ) (w : ℕ) (q : List ℕ) (ns : List Node) : Prop :=
  ∃ (T : ℕ → Depths) (D : ℕ → ℕ),
    (∀ i, i < ns.length → match nodeL ns i with
      | .leaf sym _ => T i = [(sym, 0)]
      | .internal _ l r => T i = (T l.toNat).join (T r.toNat)) ∧
    (∀ i, i < ns.length → (T i).weight cnt = weightL ns i) ∧
    Budget q.toFinset D ∧
    (q.map (fun i => (T i).cost cnt)).sum + ∑ i ∈ q.toFinset, weightL ns i * D i ≤ 8 * w

theorem WithinEightBits.pass {cnt : Byte → ℕ} {n w : ℕ} {q : List ℕ} {ns : List Node} {a b : ℕ} {q1 q2 : List ℕ}
    (hm : Merging n w q ns) (hw : WithinEightBits cnt w q ns) (h1 : popLeast ns q = some (a, q1))
    (h2 : popLeast ns q1 = some (b, q2)) :
    WithinEightBits cnt w (q2 ++ [ns.length])
      (ns ++ [.internal (freqOfNode ns a + freqOfNode ns b) (BitVec.ofNat 9 a) (BitVec.ofNat 9 b)]) := by
  obtain ⟨hm', haq, hbq, hab, rfl, hfa, hfb, hadd⟩ := hm.pass h1 h2
  obtain ⟨T, D, hT, hTw, hB, hcost⟩ := hw
  have hlen := hm.length
  have hsz := hm.size
  have ha : a < ns.length := ((hm.waiting a).1 haq).1
  have hb : b < ns.length := ((hm.waiting b).1 hbq).1
  have hqpos := List.length_pos_of_mem haq
  have ma : (BitVec.ofNat 9 a).toNat = a := by simp [Nat.mod_eq_of_lt (show a < 512 by omega)]
  have mb : (BitVec.ofNat 9 b).toNat = b := by simp [Nat.mod_eq_of_lt (show b < 512 by omega)]
  obtain ⟨D', hB', hDab, hpos, hc'⟩ := hB.lightest_deepest (f := weightL ns) (List.mem_toFinset.2 haq)
    (List.mem_toFinset.2 hbq) hab (fun c hc => hfa c (List.mem_toFinset.1 hc))
    (fun c hc => hfb c (List.mem_toFinset.1 hc))
  set x : Node := .internal (freqOfNode ns a + freqOfNode ns b) (BitVec.ofNat 9 a) (BitVec.ofNat 9 b) with hx
  have hb1 : b ∈ q.erase a := hm.nodup.mem_erase_iff.2 ⟨Ne.symm hab, hbq⟩
  have hrest : ∀ i ∈ (q.erase a).erase b, i < ns.length := fun i hi =>
    ((hm.waiting i).1 (List.mem_of_mem_erase (List.mem_of_mem_erase hi))).1
  have hnd : ((q.erase a).erase b).Nodup := (hm.nodup.erase a).erase b
  have hnew : ns.length ∉ ((q.erase a).erase b).toFinset := fun hi => by
    have := hrest _ (List.mem_toFinset.1 hi); omega
  have hfin : ((q.erase a).erase b ++ [ns.length]).toFinset = insert ns.length ((q.erase a).erase b).toFinset := by
    ext i; simp
  have hsum : ∀ g : ℕ → ℕ, ∑ i ∈ q.toFinset, g i = g a + g b + ∑ i ∈ ((q.erase a).erase b).toFinset, g i := by
    intro g
    rw [List.sum_toFinset g hm.nodup, List.sum_toFinset g hnd, ← sum_map_erase g haq, ← sum_map_erase g hb1]
    omega
  set D2 : ℕ → ℕ := fun i => if i = ns.length then D' a - 1 else D' i with hD2
  have eD : ∀ i, i < ns.length → D2 i = D' i := fun i hi => if_neg (by omega)
  have eDn : D2 ns.length = D' a - 1 := if_pos rfl
  set T2 : ℕ → Depths := fun i => if i = ns.length then (T a).join (T b) else T i with hT2
  have eT : ∀ i, i < ns.length → T2 i = T i := fun i hi => if_neg (by omega)
  have eTn : T2 ns.length = (T a).join (T b) := if_pos rfl
  have hwx : weightL (ns ++ [x]) ns.length = weightL ns a + weightL ns b := by
    rw [weightL, nodeL_append_self]; exact hadd
  refine ⟨T2, D2, ?_, ?_, ⟨?_, ?_⟩, ?_⟩
  · intro i hi
    simp only [List.length_append, List.length_singleton] at hi
    rcases Nat.lt_or_ge i ns.length with hlt | hge
    · rw [nodeL_append_left hlt, eT i hlt]
      have := hT i hlt
      cases e : nodeL ns i with
      | leaf sym f => simpa [e] using this
      | internal f l r =>
        simp only [e] at this
        have hi' : n ≤ i := by
          by_contra hlt'
          obtain ⟨s, g, e'⟩ := hm.leaf i (by omega)
          rw [e] at e'; cases e'
        obtain ⟨a', b', e', wa, wb, -⟩ := hm.merges i hi' hlt
        have wa := wa.1
        have wb := wb.1
        rw [e] at e'
        cases e'
        have m1 : (BitVec.ofNat 9 a').toNat = a' := by simp [Nat.mod_eq_of_lt (show a' < 512 by omega)]
        have m2 : (BitVec.ofNat 9 b').toNat = b' := by simp [Nat.mod_eq_of_lt (show b' < 512 by omega)]
        simp only [m1, m2] at this ⊢
        rw [eT a' (by omega), eT b' (by omega)]
        exact this
    · have : i = ns.length := by omega
      subst this
      rw [nodeL_append_self, eTn, hx]
      simp only [ma, mb]
      rw [eT a ha, eT b hb]
  · intro i hi
    simp only [List.length_append, List.length_singleton] at hi
    rcases Nat.lt_or_ge i ns.length with hlt | hge
    · rw [eT i hlt, weightL_append_left hlt, hTw i hlt]
    · have : i = ns.length := by omega
      subst this
      rw [eTn, hwx, Depths.weight_join, hTw a ha, hTw b hb]
  · intro i hi
    rw [hfin, Finset.mem_insert] at hi
    rcases hi with rfl | hi
    · rw [eDn]; have := hB'.le a (List.mem_toFinset.2 haq); omega
    · have hi := List.mem_toFinset.1 hi
      rw [eD i (hrest i hi)]
      exact hB'.le i (List.mem_toFinset.2 (List.mem_of_mem_erase (List.mem_of_mem_erase hi)))
  · have hK := hB'.kraft
    rw [hsum, ← hDab] at hK
    rw [hfin, Finset.sum_insert hnew, eDn]
    have e : ∑ i ∈ ((q.erase a).erase b).toFinset, 2 ^ (8 - D2 i) =
        ∑ i ∈ ((q.erase a).erase b).toFinset, 2 ^ (8 - D' i) :=
      Finset.sum_congr rfl (fun i hi => by rw [eD i (hrest i (List.mem_toFinset.1 hi))])
    have h8 := hB'.le a (List.mem_toFinset.2 haq)
    rw [e, show 8 - (D' a - 1) = 8 - D' a + 1 by omega, pow_succ]
    omega
  · rw [hfin, Finset.sum_insert hnew, eDn, hwx, List.map_append, List.sum_append, List.map_singleton,
      List.sum_singleton, eTn, Depths.cost_join, hTw a ha, hTw b hb]
    have e1 : ((q.erase a).erase b).map (fun i => (T2 i).cost cnt) =
        ((q.erase a).erase b).map (fun i => (T i).cost cnt) :=
      List.map_congr_left (fun i hi => by rw [eT i (hrest i hi)])
    have e2 : ∑ i ∈ ((q.erase a).erase b).toFinset, weightL (ns ++ [x]) i * D2 i =
        ∑ i ∈ ((q.erase a).erase b).toFinset, weightL ns i * D' i :=
      Finset.sum_congr rfl (fun i hi => by
        have := hrest i (List.mem_toFinset.1 hi)
        rw [eD i this, weightL_append_left this])
    rw [e1, e2]
    rw [hsum, ← hDab] at hc'
    have s1 := sum_map_erase (fun i => (T i).cost cnt) haq
    have s2 := sum_map_erase (fun i => (T i).cost cnt) hb1
    obtain ⟨m, hm'⟩ : ∃ m, D' a = m + 1 := ⟨D' a - 1, by omega⟩
    rw [hm'] at hc' ⊢
    simp only [Nat.mul_add, Nat.add_mul, Nat.add_sub_cancel, Nat.mul_one] at hc' ⊢
    omega

/-- Under HBUILD's tree the codes of any bytes counted by the table take at most eight bits each: the depths of
the root's symbols, weighted by their counts, cost at most eight times the counts. -/
theorem buildNodes_cost (f : Vector Word 256) (h : present f ≠ []) {root : BitVec 9}
    (hr : root.toNat = 2 * (present f).length - 2) :
    ∃ t : Depths, t.cost (fun s => (freqAt f s).toNat) ≤ 8 * tableSum f ∧
      ∀ p sym, LeadsToLeaf (arenaOf (buildNodes f)) root p sym → (sym, p.length) ∈ t := by
  set cnt : Byte → ℕ := fun s => (freqAt f s).toNat with hcnt
  have hn := present_length_le f
  have hpos : 1 ≤ (present f).length := List.length_pos_iff.2 h
  have hstart : WithinEightBits cnt (tableSum f) (List.range (present f).length) (leavesFrom 0 f.toList) := by
    have hl := leaves_length f
    have hw := leaves_total f
    refine ⟨fun i => [(BitVec.ofNat 8 ((present f).getD i 0), 0)], fun _ => 8, ?_, ?_, ⟨fun _ _ => le_rfl, ?_⟩, ?_⟩
    · intro i hi
      rw [hl] at hi
      rw [leaf_of_present f (List.prefix_refl _) hi]
      simp [List.getD_eq_getElem?_getD, hi]
    · intro i hi
      rw [hl] at hi
      rw [weightL, leaf_of_present f (List.prefix_refl _) hi]
      simp only [Depths.weight, List.map_cons, List.map_nil, List.sum_singleton, hcnt, Node.freq]
      rw [List.getD_eq_getElem?_getD, List.getElem?_eq_getElem hi, Option.getD_some, BitVec.toNat_setWidth]
      exact (Nat.mod_eq_of_lt (by omega)).symm
    · rw [Finset.sum_const, List.toFinset_card_of_nodup List.nodup_range, List.length_range]
      simpa using hn
    · rw [List.sum_toFinset _ List.nodup_range]
      have e : (List.range (present f).length).map (fun i => weightL (leavesFrom 0 f.toList) i * 8) =
          ((List.range (present f).length).map (weightL (leavesFrom 0 f.toList))).map (fun v => v * 8) := by
        rw [List.map_map]; rfl
      have z : ((List.range (present f).length).map (fun i =>
          Depths.cost cnt [(BitVec.ofNat 8 ((present f).getD i 0), 0)])).sum = 0 := by
        simp [Depths.cost]
      rw [e, z, List.sum_map_mul_right, List.map_id', hw.1]; omega
  obtain ⟨r, hm, ⟨T, D, hT, hTw, hB, hcost⟩, hpre⟩ := buildNodes_spec f h hstart
    (fun q ns a b q1 q2 hm hp h1 h2 => hp.pass hm h1 h2)
  obtain ⟨hlen, hr', -⟩ := hm.finished
  have hs := hm.size
  have hl : (buildNodes f).length ≤ 511 := by omega
  have htree := (buildNodes_arena f h).1
  refine ⟨T r, ?_, ?_⟩
  · simp only [List.map_singleton, List.sum_singleton] at hcost
    omega
  · have key : ∀ (p : List Bool) (i : BitVec 9) (sym : Byte), i.toNat < 2 * (present f).length - 1 →
        LeadsToLeaf (arenaOf (buildNodes f)) i p sym → (sym, p.length) ∈ T i.toNat := by
      intro p
      induction p with
      | nil =>
        intro i sym hi hp
        obtain ⟨g, e⟩ := leadsToLeaf_nil.1 hp
        rw [nodeAt_arenaOf _ hl] at e
        have := hT i.toNat (by omega)
        rw [e] at this
        simp [this]
      | cons c p ih =>
        intro i sym hi hp
        cases e : nodeAt (arenaOf (buildNodes f)) i with
        | leaf s g => simp [leadsToLeaf_of_leaf e] at hp
        | internal g l r =>
          rw [leadsToLeaf_cons e] at hp
          obtain ⟨-, hl', hr'', -⟩ := htree.isInternal hi e
          have := hT i.toNat (by omega)
          rw [nodeAt_arenaOf _ hl] at e
          rw [e] at this
          simp only at this
          rw [this, Depths.join, List.length_cons]
          have hc := ih (if c then r else l) sym (by split <;> omega) hp
          refine List.mem_map.2 ⟨(sym, p.length), ?_, rfl⟩
          cases c with
          | false => exact List.mem_append_left _ (by simpa using hc)
          | true => exact List.mem_append_right _ (by simpa using hc)
    intro p sym hp
    have := key p root sym (by omega) hp
    rwa [hr, ← hr'] at this

theorem le_cost_of_mem {cnt : Byte → ℕ} {t : Depths} {sym : Byte} {k : ℕ} (h : (sym, k) ∈ t) :
    cnt sym * k ≤ t.cost cnt :=
  List.le_sum_of_mem (List.mem_map_of_mem h)

/-- Bytes encoded with lengths found among the depths take at most the depths' cost for their own counts. -/
theorem sum_lengths_le_cost (t : Depths) (len : Byte → ℕ) (inp : List Byte) (h : ∀ b ∈ inp, (b, len b) ∈ t) :
    (inp.map len).sum ≤ t.cost (fun s => inp.count s) := by
  induction inp with
  | nil => simp
  | cons b inp ih =>
    have h1 := ih (fun c hc => h c (List.mem_cons_of_mem _ hc))
    have h2 := le_cost_of_mem (cnt := fun s => if s = b then 1 else 0) (h b (by simp))
    have e : t.cost (fun s => (b :: inp).count s) =
        t.cost (fun s => inp.count s) + t.cost (fun s => if s = b then 1 else 0) := by
      simp only [Depths.cost]
      rw [← List.sum_map_add]
      congr 1
      refine List.map_congr_left (fun x _ => ?_)
      rw [List.count_cons, ← Nat.add_mul]
      congr 2
      by_cases hx : x.1 = b
      · simp [hx]
      · simp [hx, Ne.symm hx]
    rw [List.map_cons, List.sum_cons, e]
    simp only [if_true, Nat.one_mul] at h2
    omega

end Sys2Proof.Machine
end

