-- ==== Sys2Proof/Laws/HuffmanBits.lean ====
section
/-! SUPPORT. The loops of HEMIT, HPACK, HUNPACK and HWALK (41_huffman_bits.md R73-R76): what each does on
written elements, and what each can do on any. -/

namespace Sys2Proof.Machine

/-! ## HEMIT -/

/-- Bytes that have codes which fit are emitted one code after another, and the loop goes on (R73). -/
theorem emitLoop_append {bitMax : Nat} {cs : Vector (List Bool) 256} {m : Memory Byte} {inp : List Byte} {j : Nat}
    (h : m.Holds j inp) (hc : ∀ b ∈ inp, codeAt cs b ≠ []) (k p : Nat) (bits : Memory Bool) (d : Nat)
    (hp : p + (inp.flatMap (codeAt cs)).length ≤ bitMax) :
    emitLoop bitMax cs m (inp.length + k) j p bits d =
      emitLoop bitMax cs m k (j + inp.length) (p + (inp.flatMap (codeAt cs)).length)
        (bits.writeList p (inp.flatMap (codeAt cs))) d := by
  induction inp generalizing j p bits with
  | nil => simp [Memory.writeList]
  | cons b inp ih =>
    obtain ⟨hb, h⟩ := Memory.holds_cons.1 h
    have hne : ¬ (codeAt cs b).length = 0 := by simpa using hc b (by simp)
    simp only [List.flatMap_cons, List.length_append] at hp ⊢
    rw [List.length_cons, show inp.length + 1 + k = inp.length + k + 1 by omega]
    simp only [emitLoop, readByte_of_get? hb]
    rw [if_neg hne, if_neg (by omega), ih h (fun x hx => hc x (by simp [hx])) _ _ (by omega),
      Memory.writeList_append, show j + 1 + inp.length = j + (inp.length + 1) by omega, Nat.add_assoc]

/-- A byte without a code stops the loop (R73). -/
theorem emitLoop_noCode {bitMax : Nat} {cs : Vector (List Bool) 256} {m : Memory Byte} {b : Byte} {j : Nat}
    (h : m.get? j = some b) (hc : codeAt cs b = []) (k p : Nat) (bits : Memory Bool) (d : Nat) :
    emitLoop bitMax cs m (k + 1) j p bits d = { error := some (.treeMismatch j), pos := p, bits := bits, draws := d } := by
  simp [emitLoop, readByte_of_get? h, hc]

/-- A code that does not fit stops the loop (R73). -/
theorem emitLoop_noRoom {bitMax : Nat} {cs : Vector (List Bool) 256} {m : Memory Byte} {b : Byte} {j : Nat}
    (h : m.get? j = some b) (hc : codeAt cs b ≠ []) (k p : Nat) (bits : Memory Bool) (d : Nat)
    (hp : bitMax < p + (codeAt cs b).length) :
    emitLoop bitMax cs m (k + 1) j p bits d = { error := some (.capacity j), pos := p, bits := bits, draws := d } := by
  simp [emitLoop, readByte_of_get? h, hc, hp]

/-- All the loop can do: it writes entries from its position up to where it ends, within the limit, and the
errors it raises are two. -/
theorem emitLoop_frame (bitMax : Nat) (cs : Vector (List Bool) 256) (m : Memory Byte) (k j p : Nat)
    (bits : Memory Bool) (d : Nat) (hp : p ≤ bitMax) :
    let r := emitLoop bitMax cs m k j p bits d
    p ≤ r.pos ∧ r.pos ≤ bitMax ∧ r.bits.SameOutside bits p r.pos ∧ (bits.wf → r.bits.wf) ∧
    (∀ n, bits.below n → bitMax ≤ n → r.bits.below n) ∧
    (∀ e, r.error = some e → ∃ i, e = .treeMismatch i ∨ e = .capacity i) := by
  induction k generalizing j p bits d with
  | zero => exact ⟨le_rfl, hp, Memory.SameOutside.refl _ _ _, id, fun _ h _ => h, by simp [emitLoop]⟩
  | succ k ih =>
    simp only [emitLoop]
    split
    · exact ⟨le_rfl, hp, Memory.SameOutside.refl _ _ _, id, fun _ h _ => h,
        fun e he => ⟨j, Or.inl (by simpa using he.symm)⟩⟩
    · split
      · exact ⟨le_rfl, hp, Memory.SameOutside.refl _ _ _, id, fun _ h _ => h,
          fun e he => ⟨j, Or.inr (by simpa using he.symm)⟩⟩
      · rename_i hfit
        set c' := codeAt cs (readByte m j d).1
        obtain ⟨h1, h2, h3, h4, h5, h6⟩ := ih (j + 1) (p + c'.length) (bits.writeList p c') (readByte m j d).2 (by omega)
        refine ⟨by omega, h2, ?_, fun h => h4 (Memory.wf_writeList h _ _),
          fun n h hn => h5 n (Memory.below_writeList h _ (by omega)) hn, h6⟩
        exact (h3.mono (by omega) le_rfl).trans ((Memory.sameOutside_writeList _ _ _).mono le_rfl h1)

/-! ## HPACK -/

/-- Reading written entries gives them and draws nothing. -/
theorem readBits_of_holds {bits : Memory Bool} {vs : List Bool} {q : Nat} (h : bits.Holds q vs) (d : Nat) :
    readBits bits vs.length q d = (vs, d) := by
  induction vs generalizing q with
  | nil => rfl
  | cons v vs ih =>
    obtain ⟨hv, h⟩ := Memory.holds_cons.1 h
    simp only [List.length_cons, readBits, readBit_of_get? hv, ih h]

/-- Byte j of the packing of a bit string (R74). -/
def packedByte (bits : List Bool) (j : Nat) : Byte := packByte (fun m => bits.getD (8 * j + m) false)

/-- The packing of a bit string (R74). -/
def packedBytes (bits : List Bool) : List Byte := (List.range ((bits.length + 7) / 8)).map (packedByte bits)

@[simp] theorem packedBytes_length (bits : List Bool) : (packedBytes bits).length = (bits.length + 7) / 8 := by
  simp [packedBytes]

theorem packLoop_of_holds {bits : Memory Bool} {vs : List Bool} (h : bits.Holds 0 vs) (k j : Nat)
    (hk : 8 * (j + k) ≤ vs.length + 7) (out : Memory Byte) (d : Nat) :
    packLoop bits vs.length k j out d = (out.writeList j ((List.range' j k).map (packedByte vs)), d) := by
  induction k generalizing j out with
  | zero => rfl
  | succ k ih =>
    have hsub : bits.Holds (8 * j) ((vs.drop (8 * j)).take 8) := by
      intro i hi
      simp only [List.length_take, List.length_drop] at hi
      have := h (8 * j + i) (by omega)
      simpa using this
    have hr : readBits bits (min 8 (vs.length - 8 * j)) (8 * j) d = ((vs.drop (8 * j)).take 8, d) := by
      have := readBits_of_holds hsub d
      rwa [List.length_take, List.length_drop] at this
    simp only [packLoop, hr]
    rw [ih (j + 1) (by omega), List.range'_succ, List.map_cons]
    have e : packByte (fun m => ((vs.drop (8 * j)).take 8).getD m false) = packedByte vs j := by
      apply byte_ext_stream
      intro m hm
      rw [packedByte, packByte_getLsbD _ hm, packByte_getLsbD _ hm]
      simp [List.getD_eq_getElem?_getD, hm]
    rw [e]; rfl

/-- Written bits are packed as R74 says, and nothing is drawn. -/
theorem packLoop_packs {bits : Memory Bool} {vs : List Bool} (h : bits.Holds 0 vs) (out : Memory Byte) (d : Nat) :
    packLoop bits vs.length ((vs.length + 7) / 8) 0 out d = (out.writeList 0 (packedBytes vs), d) := by
  rw [packLoop_of_holds h _ _ (by omega), packedBytes, List.range_eq_range']

theorem packedAs_of_holds {m : Memory Byte} {bits : List Bool} (h : m.Holds 0 (packedBytes bits)) : PackedAs m bits := by
  intro j hj
  have := h j (by simpa using hj)
  refine ⟨packedByte bits j, ?_, fun k hk => packByte_getLsbD _ hk⟩
  simpa [packedBytes] using this

/-- All the loop can do: it writes the k bytes from index j. -/
theorem packLoop_frame (bits : Memory Bool) (bitLen k j : Nat) (out : Memory Byte) (d : Nat) :
    let r := packLoop bits bitLen k j out d
    r.1.SameOutside out j (j + k) ∧ (out.wf → r.1.wf) ∧ (∀ n, out.below n → j + k ≤ n → r.1.below n) := by
  induction k generalizing j out d with
  | zero => exact ⟨Memory.SameOutside.refl _ _ _, id, fun _ h _ => h⟩
  | succ k ih =>
    simp only [packLoop]
    obtain ⟨h1, h2, h3⟩ := ih (j + 1) (out.write j (packByte fun m =>
      (readBits bits (min 8 (bitLen - 8 * j)) (8 * j) d).1.getD m false)) (readBits bits (min 8 (bitLen - 8 * j)) (8 * j) d).2
    exact ⟨(h1.mono (by omega) (by omega)).trans (Memory.sameOutside_write _ _ le_rfl (by omega)),
      fun h => h2 (Memory.wf_write h _ _), fun n h hn => h3 n (Memory.below_write h (by omega) _) (by omega)⟩

/-! ## HUNPACK -/

/-- Written bytes are expanded bit by bit, and nothing is drawn (R75). -/
theorem unpackLoop_of_holds {m : Memory Byte} {inp : List Byte} {j : Nat} (h : m.Holds j inp) (bits : Memory Bool)
    (d : Nat) : unpackLoop m inp.length j bits d = (bits.writeList (8 * j) (inp.flatMap unpackByte), d) := by
  induction inp generalizing j bits with
  | nil => rfl
  | cons b inp ih =>
    obtain ⟨hb, h⟩ := Memory.holds_cons.1 h
    simp only [List.length_cons, unpackLoop, readByte_of_get? hb, ih h, List.flatMap_cons]
    rw [Memory.writeList_append, unpackByte_length, show 8 * (j + 1) = 8 * j + 8 by omega]

theorem flatMap_unpackByte_length (inp : List Byte) : (inp.flatMap unpackByte).length = 8 * inp.length := by
  induction inp with
  | nil => rfl
  | cons b inp ih => simp only [List.flatMap_cons, List.length_append, unpackByte_length, ih, List.length_cons]; omega

/-- Bit 8j + m of the expansion is bit 7 - m of byte j (R75). -/
theorem flatMap_unpackByte_getElem (inp : List Byte) {j m : Nat} (hj : j < inp.length) (hm : m < 8) :
    (inp.flatMap unpackByte)[8 * j + m]? = some (inp[j].getLsbD (7 - m)) := by
  induction inp generalizing j with
  | nil => simp at hj
  | cons b inp ih =>
    cases j with
    | zero =>
      rw [List.flatMap_cons, List.getElem?_append_left (by simpa using hm)]
      simpa using unpackByte_getElem b hm
    | succ j =>
      rw [List.flatMap_cons, List.getElem?_append_right (by simp; omega), unpackByte_length,
        show 8 * (j + 1) + m - 8 = 8 * j + m by omega, ih (by simpa using hj), List.getElem_cons_succ]

/-- All the loop can do: it writes the 8k entries from index 8j. -/
theorem unpackLoop_frame (m : Memory Byte) (k j : Nat) (bits : Memory Bool) (d : Nat) :
    let r := unpackLoop m k j bits d
    r.1.SameOutside bits (8 * j) (8 * (j + k)) ∧ (bits.wf → r.1.wf) ∧
    (∀ n, bits.below n → 8 * (j + k) ≤ n → r.1.below n) := by
  induction k generalizing j bits d with
  | zero => exact ⟨Memory.SameOutside.refl _ _ _, id, fun _ h _ => h⟩
  | succ k ih =>
    simp only [unpackLoop]
    obtain ⟨h1, h2, h3⟩ := ih (j + 1) (bits.writeList (8 * j) (unpackByte (readByte m j d).1)) (readByte m j d).2
    refine ⟨(h1.mono (by omega) (by omega)).trans ((Memory.sameOutside_writeList _ _ _).mono le_rfl ?_),
      fun h => h2 (Memory.wf_writeList h _ _), fun n h hn => h3 n (Memory.below_writeList h _ ?_) (by omega)⟩ <;>
    (rw [unpackByte_length]; omega)

/-- Unpacking the packing of a bit string gives the bit string and zeros up to the byte's end (R79). -/
theorem unpack_packedBytes (bits : List Bool) :
    (packedBytes bits).flatMap unpackByte =
      bits ++ List.replicate (8 * ((bits.length + 7) / 8) - bits.length) false := by
  apply List.ext_getElem?
  intro i
  by_cases hi : i < 8 * ((bits.length + 7) / 8)
  · have h := flatMap_unpackByte_getElem (packedBytes bits) (j := i / 8) (m := i % 8) (by simp; omega) (by omega)
    rw [show 8 * (i / 8) + i % 8 = i by omega] at h
    rw [h]
    simp only [packedBytes, List.getElem_map, List.getElem_range, packedByte]
    rw [packByte_getLsbD _ (by omega), show 8 * (i / 8) + i % 8 = i by omega, List.getD_eq_getElem?_getD]
    rcases Nat.lt_or_ge i bits.length with hlt | hge
    · rw [List.getElem?_append_left hlt, List.getElem?_eq_getElem hlt]; rfl
    · rw [List.getElem?_append_right hge, List.getElem?_eq_none hge, List.getElem?_replicate,
        if_pos (by omega)]; rfl
  · rw [List.getElem?_eq_none, List.getElem?_eq_none]
    · simp; omega
    · rw [flatMap_unpackByte_length, packedBytes_length]; omega

/-- Packing the expansion of bytes gives the bytes (R75). -/
theorem packedBytes_unpack (inp : List Byte) : packedBytes (inp.flatMap unpackByte) = inp := by
  have hl : (packedBytes (inp.flatMap unpackByte)).length = inp.length := by
    rw [packedBytes_length, flatMap_unpackByte_length]; omega
  apply List.ext_getElem hl
  intro j h1 h2
  simp only [packedBytes, List.getElem_map, List.getElem_range]
  apply byte_ext_stream
  intro m hm
  rw [packedByte, packByte_getLsbD _ hm, List.getD_eq_getElem?_getD, flatMap_unpackByte_getElem _ h2 hm]; rfl

/-! ## HWALK -/

/-- Following written bits that lead to a leaf finds its symbol (R76). -/
theorem walkDown_of_leads {ns : Vector Node 511} {bits : Memory Bool} {path : List Bool} {i : BitVec 9} {p : Nat}
    {sym : Byte} (hl : LeadsToLeaf ns i path sym) (h : bits.Holds p path) {left : Nat} (hle : path.length ≤ left)
    (d : Nat) : walkDown ns bits left i p d = (some sym, p + path.length, d) := by
  induction path generalizing i p left with
  | nil =>
    obtain ⟨f, e⟩ := leadsToLeaf_nil.1 hl
    cases left <;> simp [walkDown, e]
  | cons b path ih =>
    obtain ⟨hb, h⟩ := Memory.holds_cons.1 h
    cases e : nodeAt ns i with
    | leaf s f => have := (leadsToLeaf_of_leaf e).1 hl; simp at this
    | internal f l r =>
      cases left with
      | zero => simp at hle
      | succ left =>
        simp only [walkDown, e, readBit_of_get? hb]
        rw [ih ((leadsToLeaf_cons e).1 hl) h (by simpa using hle), List.length_cons, Nat.add_assoc, Nat.add_comm 1]

/-- Written bits that run out inside the tree find nothing (R76). -/
theorem walkDown_of_inside {ns : Vector Node 511} {bits : Memory Bool} {path : List Bool} {i : BitVec 9} {p : Nat}
    (hl : LeadsInside ns i path) (h : bits.Holds p path) (d : Nat) :
    walkDown ns bits path.length i p d = (none, p + path.length, d) := by
  induction path generalizing i p with
  | nil =>
    obtain ⟨f, l, r, e⟩ := hl
    simp only [follow, Option.some.injEq] at e
    simp [walkDown, e]
  | cons b path ih =>
    obtain ⟨hb, h⟩ := Memory.holds_cons.1 h
    obtain ⟨f, l, r, e'⟩ := hl
    cases e : nodeAt ns i with
    | leaf s f => simp [follow, e] at e'
    | internal g l' r' =>
      simp only [follow, e] at e'
      simp only [List.length_cons, walkDown, e, readBit_of_get? hb]
      rw [ih ⟨f, l, r, e'⟩ h, Nat.add_assoc, Nat.add_comm 1]

/-- The walk of R76 for `k` symbols from symbol `e`, by the kind of the root. -/
def walkFrom (ns : Vector Node 511) (root : BitVec 9) (bits : Memory Bool) (bitLen k e p : Nat) (out : Memory Byte)
    (d : Nat) : Walked :=
  match nodeAt ns root with
  | .leaf sym _ => walkOneLeaf sym bits bitLen k e p out d
  | .internal _ _ _ => walkSymbols ns root bits bitLen k e p out d

theorem walkAll_eq (s : State) :
    walkAll s = walkFrom s.node s.root s.bitMem s.bitLen.toNat s.symCount.toNat 0 0 s.outMem s.draws := rfl

/-- With no symbol left the walk is over. -/
theorem walkFrom_zero (ns : Vector Node 511) (root : BitVec 9) (bits : Memory Bool) (bitLen e p : Nat)
    (out : Memory Byte) (d : Nat) :
    walkFrom ns root bits bitLen 0 e p out d = { error := none, pos := p, out := out, draws := d } := by
  unfold walkFrom; split <;> rfl

/-- Written codes are decoded one symbol after another, and the walk goes on (R76). -/
theorem walkFrom_append {ns : Vector Node 511} {root : BitVec 9} {bits : Memory Bool} {bitLen : Nat} {syms : List Byte}
    {bs : List Bool} (he : EncodesTo ns root syms bs) {p : Nat} (h : bits.Holds p bs) (hle : p + bs.length ≤ bitLen)
    (k e : Nat) (out : Memory Byte) (d : Nat) :
    walkFrom ns root bits bitLen (syms.length + k) e p out d =
      walkFrom ns root bits bitLen k (e + syms.length) (p + bs.length) (out.writeList e syms) d := by
  induction syms generalizing bs p e out with
  | nil =>
    have : bs = [] := he
    subst this
    simp [Memory.writeList]
  | cons sym syms ih =>
    obtain ⟨cd, rest, rfl, hc, he⟩ := he
    obtain ⟨h1, h2⟩ := Memory.holds_append.1 h
    rw [List.length_append] at hle
    have step : walkFrom ns root bits bitLen (syms.length + k + 1) e p out d =
        walkFrom ns root bits bitLen (syms.length + k) (e + 1) (p + cd.length) (out.write e sym) d := by
      cases er : nodeAt ns root with
      | leaf s f =>
        simp only [IsCodeOf, leadsToLeaf_of_leaf er] at hc
        obtain ⟨rfl, rfl⟩ : sym = s ∧ cd = [false] := by
          rcases hc with ⟨⟨rfl, -⟩, hne⟩ | ⟨⟨-, rfl⟩, rfl⟩
          · exact absurd rfl hne
          · exact ⟨rfl, rfl⟩
        have hb := (Memory.holds_cons.1 h1).1
        simp only [List.length_singleton] at hle
        simp only [walkFrom, er, walkOneLeaf, readBit_of_get? hb]
        rw [if_neg (by omega), if_neg (by simp)]; rfl
      | internal f l r =>
        have hl : LeadsToLeaf ns root cd sym := by
          rcases hc with ⟨hl, -⟩ | ⟨hl, -⟩
          · exact hl
          · rw [leadsToLeaf_nil, er] at hl; simp at hl
        simp only [walkFrom, er, walkSymbols]
        rw [walkDown_of_leads hl h1 (by omega)]
    rw [List.length_cons, show syms.length + 1 + k = syms.length + k + 1 by omega, step,
      ih he h2 (by omega), List.length_append, Nat.add_assoc, Nat.add_assoc, Nat.add_comm 1]
    rfl

/-- Bits that run out inside the tree stop the walk (R76). -/
theorem walkFrom_inside {ns : Vector Node 511} {root : BitVec 9} {bits : Memory Bool} {path : List Bool} {p : Nat}
    (hl : LeadsInside ns root path) (h : bits.Holds p path) (k e : Nat) (out : Memory Byte) (d : Nat) :
    walkFrom ns root bits (p + path.length) (k + 1) e p out d =
      { error := some (.corruptStream (p + path.length)), pos := p + path.length, out := out, draws := d } := by
  cases er : nodeAt ns root with
  | leaf s f =>
    obtain ⟨g, l, r, e'⟩ := hl
    cases path <;> simp [follow, er] at e'
  | internal f l r =>
    simp only [walkFrom, er, walkSymbols]
    rw [Nat.add_sub_cancel_left, walkDown_of_inside hl h]

/-- In a one-leaf tree bits that have run out stop the walk (R76). -/
theorem walkFrom_oneLeaf_end {ns : Vector Node 511} {root : BitVec 9} (hr : ∃ sym, LeadsToLeaf ns root [] sym)
    (bits : Memory Bool) (k e p : Nat) (out : Memory Byte) (d : Nat) :
    walkFrom ns root bits p (k + 1) e p out d =
      { error := some (.corruptStream p), pos := p, out := out, draws := d } := by
  obtain ⟨sym, hr⟩ := hr
  obtain ⟨f, e⟩ := leadsToLeaf_nil.1 hr
  simp [walkFrom, e, walkOneLeaf]

/-- In a one-leaf tree a 1 stops the walk (R76). -/
theorem walkFrom_oneLeaf_one {ns : Vector Node 511} {root : BitVec 9} (hr : ∃ sym, LeadsToLeaf ns root [] sym)
    {bits : Memory Bool} {bitLen p : Nat} (h : bits.get? p = some true) (hp : p < bitLen) (k e : Nat)
    (out : Memory Byte) (d : Nat) :
    walkFrom ns root bits bitLen (k + 1) e p out d =
      { error := some (.treeMismatch p), pos := p, out := out, draws := d } := by
  obtain ⟨sym, hr⟩ := hr
  obtain ⟨f, e⟩ := leadsToLeaf_nil.1 hr
  simp only [walkFrom, e, walkOneLeaf, readBit_of_get? h]
  rw [if_neg (by omega)]; rfl

/-- Whether written entries hold a 1. -/
theorem anyOne_of_holds {bits : Memory Bool} {vs : List Bool} {q : Nat} (h : bits.Holds q vs) (d : Nat) :
    anyOne bits vs.length q d = (decide (true ∈ vs), d) := by
  induction vs generalizing q with
  | nil => rfl
  | cons v vs ih =>
    obtain ⟨hv, h⟩ := Memory.holds_cons.1 h
    simp only [List.length_cons, anyOne, readBit_of_get? hv, ih h]
    cases v <;> simp

/-- The end check on written entries (R76). -/
theorem checkPadding_of_holds {bits : Memory Bool} {w : Walked} {pad : List Bool} (h : bits.Holds w.pos pad) :
    checkPadding bits (w.pos + pad.length) w =
      if 7 < pad.length ∨ true ∈ pad then { w with error := some (.corruptStream w.pos) } else w := by
  simp only [checkPadding, Nat.add_sub_cancel_left, anyOne_of_holds h]
  by_cases h7 : 7 < pad.length
  · simp [h7]
  · by_cases ht : true ∈ pad <;> simp [h7, ht]

/-- All the walk can do: it writes at most the k bytes from index e, and the errors it raises are two. -/
theorem walkFrom_frame (ns : Vector Node 511) (root : BitVec 9) (bits : Memory Bool) (bitLen k e p : Nat)
    (out : Memory Byte) (d : Nat) :
    let w := walkFrom ns root bits bitLen k e p out d
    w.out.SameOutside out e (e + k) ∧ (out.wf → w.out.wf) ∧ (∀ n, out.below n → e + k ≤ n → w.out.below n) ∧
    (∀ x, w.error = some x → ∃ i, x = .corruptStream i ∨ x = .treeMismatch i) := by
  induction k generalizing e p out d with
  | zero =>
    rw [walkFrom_zero]
    exact ⟨Memory.SameOutside.refl _ _ _, id, fun _ h _ => h, by simp⟩
  | succ k ih =>
    have stop : ∀ (x : BlockError) (p' d' : Nat), (∃ i, x = .corruptStream i ∨ x = .treeMismatch i) →
        let w : Walked := { error := some x, pos := p', out := out, draws := d' }
        w.out.SameOutside out e (e + (k + 1)) ∧ (out.wf → w.out.wf) ∧
        (∀ n, out.below n → e + (k + 1) ≤ n → w.out.below n) ∧
        (∀ x, w.error = some x → ∃ i, x = .corruptStream i ∨ x = .treeMismatch i) :=
      fun x p' d' hx => ⟨Memory.SameOutside.refl _ _ _, id, fun _ h _ => h, by simpa using hx⟩
    have goes : ∀ (sym : Byte) (p' d' : Nat),
        let w := walkFrom ns root bits bitLen k (e + 1) p' (out.write e sym) d'
        w.out.SameOutside out e (e + (k + 1)) ∧ (out.wf → w.out.wf) ∧
        (∀ n, out.below n → e + (k + 1) ≤ n → w.out.below n) ∧
        (∀ x, w.error = some x → ∃ i, x = .corruptStream i ∨ x = .treeMismatch i) := by
      intro sym p' d'
      obtain ⟨h1, h2, h3, h4⟩ := ih (e + 1) p' (out.write e sym) d'
      exact ⟨(h1.mono (by omega) (by omega)).trans (Memory.sameOutside_write _ _ le_rfl (by omega)),
        fun h => h2 (Memory.wf_write h _ _), fun n h hn => h3 n (Memory.below_write h (by omega) _) (by omega), h4⟩
    cases er : nodeAt ns root with
    | leaf s f =>
      simp only [walkFrom, er] at goes ⊢
      simp only [walkOneLeaf]
      split
      · exact stop _ _ _ ⟨p, Or.inl rfl⟩
      · split
        · exact stop _ _ _ ⟨p, Or.inr rfl⟩
        · exact goes _ _ _
    | internal f l r =>
      simp only [walkFrom, er] at goes ⊢
      simp only [walkSymbols]
      split
      · exact goes _ _ _
      · exact stop _ _ _ ⟨_, Or.inl rfl⟩

/-- The end check leaves the bytes and can only raise CORRUPT_STREAM (R76). -/
theorem checkPadding_frame (bits : Memory Bool) (bitLen : Nat) (w : Walked) :
    (checkPadding bits bitLen w).out = w.out ∧ (checkPadding bits bitLen w).pos = w.pos ∧
    (∀ x, (checkPadding bits bitLen w).error = some x → w.error = some x ∨ x = .corruptStream w.pos) := by
  simp only [checkPadding]
  split
  · exact ⟨rfl, rfl, fun x h => Or.inr (by simpa using h.symm)⟩
  · split
    · exact ⟨rfl, rfl, fun x h => Or.inr (by simpa using h.symm)⟩
    · exact ⟨rfl, rfl, fun x h => Or.inl h⟩

/-- All the Operation of HWALK can do: it writes at most the SYM_COUNT bytes from index 0 (R76). -/
theorem walkThenCheck_frame (s : State) :
    (walkThenCheck s).out.SameOutside s.outMem 0 s.symCount.toNat ∧ (s.outMem.wf → (walkThenCheck s).out.wf) ∧
    (∀ n, s.outMem.below n → s.symCount.toNat ≤ n → (walkThenCheck s).out.below n) ∧
    (∀ x, (walkThenCheck s).error = some x → ∃ i, x = .corruptStream i ∨ x = .treeMismatch i) := by
  have h := walkFrom_frame s.node s.root s.bitMem s.bitLen.toNat s.symCount.toNat 0 0 s.outMem s.draws
  rw [← walkAll_eq, Nat.zero_add] at h
  obtain ⟨h1, h2, h3, h4⟩ := h
  unfold walkThenCheck
  simp only
  split
  · exact ⟨h1, h2, h3, h4⟩
  · rename_i hn
    obtain ⟨c1, -, c3⟩ := checkPadding_frame s.bitMem s.bitLen.toNat (walkAll s)
    rw [c1]
    refine ⟨h1, h2, h3, fun x hx => ?_⟩
    rcases c3 x hx with h | rfl
    · rw [hn] at h; cases h
    · exact ⟨_, Or.inl rfl⟩

/-- An error while decoding ends the Operation of HWALK (R76). -/
theorem walkThenCheck_of_error {s : State} {w : Walked} {e : BlockError} (h : walkAll s = w) (he : w.error = some e) :
    walkThenCheck s = w := by
  simp only [walkThenCheck, h, he]

/-- The whole Operation of HWALK on bits that hold all the symbols' codes (R76). -/
theorem walkThenCheck_of_encodes {s : State} {syms : List Byte} {bits pad : List Bool}
    (hl : syms.length = s.symCount.toNat) (he : EncodesTo s.node s.root syms bits)
    (hb : s.bitLen.toNat = bits.length + pad.length) (hh : s.bitMem.Holds 0 (bits ++ pad)) :
    walkThenCheck s =
      { error := if 7 < pad.length ∨ true ∈ pad then some (.corruptStream bits.length) else none
        pos := bits.length, out := s.outMem.writeList 0 syms, draws := s.draws } := by
  obtain ⟨g1, g2⟩ := Memory.holds_append.1 hh
  rw [Nat.zero_add] at g2
  have h := walkFrom_append (bitLen := s.bitLen.toNat) he g1 (by omega) 0 0 s.outMem s.draws
  rw [Nat.add_zero, hl, ← walkAll_eq, walkFrom_zero, Nat.zero_add] at h
  have hc := checkPadding_of_holds
    (w := { error := none, pos := bits.length, out := s.outMem.writeList 0 syms, draws := s.draws }) g2
  simp only [walkThenCheck, h, hb, hc]
  split <;> rfl

/-! ## Encodings -/

/-- The codes of a code table, one after another, encode the bytes that have one (R73, R76). -/
theorem IsCodeTable.encodesTo {ns : Vector Node 511} {root : BitVec 9} {cs : Vector (List Bool) 256}
    (h : IsCodeTable ns root cs) (inp : List Byte) (hc : ∀ b ∈ inp, codeAt cs b ≠ []) :
    EncodesTo ns root inp (inp.flatMap (codeAt cs)) := by
  induction inp with
  | nil => rfl
  | cons b inp ih =>
    exact ⟨codeAt cs b, inp.flatMap (codeAt cs), rfl, h.isCodeOf (hc b (by simp)),
      ih (fun x hx => hc x (by simp [hx]))⟩

end Sys2Proof.Machine
end

