-- ==== Sys2Proof/Laws/Lz77.lean ====
section
/-! SUPPORT. The matcher, the token encoder and the token decoder (42_lz77.md R80-R86): what each loop finds on
written bytes, and what it can do on any. -/

namespace Sys2Proof.Machine

/-! ## The match length (R81) -/

section
variable {inp : List Byte} {c i : Nat}

theorem Matches.mono {k k' : Nat} (h : Matches inp c i k) (hk : k' ≤ k) : Matches inp c i k' :=
  ⟨by have := h.1; omega, by have := h.2.1; omega, fun m hm => h.2.2 m (by omega)⟩

theorem Matches.zero (hc : c < inp.length) : Matches inp c i 0 := ⟨by omega, by omega, fun m hm => by omega⟩

/-- The longest extension is the match length: nothing longer matches because one more byte does not. -/
theorem Matches.isMatchLength {k : Nat} (h : Matches inp c i k) (hn : ¬ Matches inp c i (k + 1)) :
    IsMatchLength inp c i k := by
  refine ⟨h, fun k' h' => ?_⟩
  by_contra hk
  exact hn (h'.mono (by omega))

theorem IsMatchLength.unique {k k' : Nat} (h : IsMatchLength inp c i k) (h' : IsMatchLength inp c i k') : k = k' :=
  Nat.le_antisymm (h'.2 _ h.1) (h.2 _ h'.1)

/-- On written bytes the loop finds the match length and draws nothing (R81, R83). -/
theorem matchLength_of_holds {m : Memory Byte} (h : m.Holds 0 inp) (hi : i < c) (room k : Nat)
    (hk : Matches inp c i k) (hr : k + room = 255) (d : Nat) :
    ∃ r, matchLength m inp.length c i room k d = (r, d) ∧ IsMatchLength inp c i r := by
  have get : ∀ a, (ha : a < inp.length) → m.get? a = some inp[a] := fun a ha => by simpa using h a ha
  induction room generalizing k with
  | zero => exact ⟨k, rfl, hk.isMatchLength (fun h' => by have := h'.1; omega)⟩
  | succ room ih =>
    simp only [matchLength]
    by_cases hn : c + k + 1 < inp.length
    · have h1 : i + k < inp.length := by omega
      have h2 : c + k < inp.length := by omega
      rw [if_pos hn]
      simp only [readByte_of_get? (get _ h1), readByte_of_get? (get _ h2)]
      by_cases he : inp[i + k] = inp[c + k]
      · rw [if_pos he]
        refine ih (k + 1) ⟨by omega, by omega, fun j hj => ?_⟩ (by omega)
        rcases Nat.lt_or_ge j k with hlt | hge
        · exact hk.2.2 j hlt
        · have : j = k := by omega
          subst this
          rw [List.getElem?_eq_getElem h1, List.getElem?_eq_getElem h2, he]
      · rw [if_neg he]
        refine ⟨k, rfl, hk.isMatchLength (fun h' => he ?_)⟩
        have := h'.2.2 k (by omega)
        rwa [List.getElem?_eq_getElem h1, List.getElem?_eq_getElem h2, Option.some.injEq] at this
    · rw [if_neg hn]
      exact ⟨k, rfl, hk.isMatchLength (fun h' => by have := h'.2.1; omega)⟩

/-- All the loop can do, on any bytes: it stays within its room and before the last byte. -/
theorem matchLength_le (m : Memory Byte) (n c i room k d : Nat) (hk : c + k + 1 ≤ n) :
    (matchLength m n c i room k d).1 ≤ k + room ∧ c + (matchLength m n c i room k d).1 + 1 ≤ n := by
  induction room generalizing k d with
  | zero => exact ⟨le_rfl, hk⟩
  | succ room ih =>
    simp only [matchLength]
    split
    · split
      · have := ih (k + 1) (readByte m (c + k) (readByte m (i + k) d).2).2 (by omega); omega
      · exact ⟨by simp, hk⟩
    · exact ⟨by simp, hk⟩

end

/-! ## The scan (R80, R82) -/

/-- The best match of the candidates from `lo` below `hi` (R82). -/
def BestOver (inp : List Byte) (c lo hi : Nat) (b : BestMatch) : Prop :=
  (b.length = 0 ∧ b.offset = 0 ∧ ∀ i k, lo ≤ i → i < hi → IsMatchLength inp c i k → k = 0) ∨
  (0 < b.length ∧ ∃ i, b.offset = c - i ∧ lo ≤ i ∧ i < hi ∧ IsMatchLength inp c i b.length ∧
    ∀ j k, lo ≤ j → j < hi → IsMatchLength inp c j k → k ≤ b.length ∧ (j < i → k < b.length))

/-- One more candidate: a strictly longer match replaces the best, any other does not (R82). -/
theorem BestOver.next {inp : List Byte} {c lo i r : Nat} {b : BestMatch} (h : BestOver inp c lo i b) (hi : lo ≤ i)
    (hr : IsMatchLength inp c i r) :
    BestOver inp c lo (i + 1) (if b.length < r then { length := r, offset := c - i } else b) := by
  have hle : ∀ j k, lo ≤ j → j < i → IsMatchLength inp c j k → k ≤ b.length := by
    intro j k h1 h2 h3
    rcases h with ⟨h0, -, h⟩ | ⟨-, _, -, -, -, -, h⟩
    · have := h j k h1 h2 h3; omega
    · exact (h j k h1 h2 h3).1
  split
  · rename_i hlt
    refine Or.inr ⟨by simp only; omega, i, rfl, hi, by omega, hr, fun j k h1 h2 h3 => ?_⟩
    rcases Nat.lt_or_ge j i with hj | hj
    · have := hle j k h1 hj h3; simp only; omega
    · have : j = i := by omega
      subst this
      have := h3.unique hr; simp only; omega
  · rename_i hlt
    rcases h with ⟨h0, ho, h⟩ | ⟨hp, x, hx, h1, h2, h3, h⟩
    · refine Or.inl ⟨h0, ho, fun j k h1 h2 h3 => ?_⟩
      rcases Nat.lt_or_ge j i with hj | hj
      · exact h j k h1 hj h3
      · have : j = i := by omega
        subst this
        have := h3.unique hr; omega
    · refine Or.inr ⟨hp, x, hx, h1, by omega, h3, fun j k g1 g2 g3 => ?_⟩
      rcases Nat.lt_or_ge j i with hj | hj
      · exact h j k g1 hj g3
      · have : j = i := by omega
        subst this
        have := g3.unique hr; omega

/-- On written bytes the scan finds the best match and draws nothing (R83). -/
theorem scanWindow_of_holds {m : Memory Byte} {inp : List Byte} (h : m.Holds 0 inp) {c lo : Nat}
    (hc : c < inp.length) (k i : Nat) (hi : lo ≤ i) (hk : i + k = c) (b : BestMatch) (hb : BestOver inp c lo i b)
    (d : Nat) : ∃ r, scanWindow m inp.length c k i b d = (r, d) ∧ BestOver inp c lo c r := by
  induction k generalizing i b with
  | zero =>
    obtain rfl : i = c := by omega
    exact ⟨b, rfl, hb⟩
  | succ k ih =>
    obtain ⟨r, hr, hm⟩ := matchLength_of_holds h (show i < c by omega) Config.lenMax 0 (Matches.zero hc) rfl d
    simp only [scanWindow, hr]
    exact ih (i + 1) (by omega) (by omega) _ (hb.next hi hm)

/-- The best match of the whole window is the match R82 adopts. -/
theorem BestOver.isBestMatch {inp : List Byte} {w c : Nat} {b : BestMatch} (h : BestOver inp c (c - w) c b) :
    IsBestMatch inp w c b.length b.offset := by
  rcases h with ⟨h0, ho, h⟩ | ⟨hp, i, hi, h1, h2, h3, h⟩
  · exact Or.inl ⟨h0, ho, fun i k hw hk => h i k (by have := hw.1; omega) hw.2 hk⟩
  · exact Or.inr ⟨hp, i, hi, ⟨by omega, h2⟩, h3, fun j k hw hk => h j k (by have := hw.1; omega) hw.2 hk⟩

/-- All the scan can do, on any bytes. -/
theorem scanWindow_le (m : Memory Byte) (n c k i : Nat) (b : BestMatch) (d : Nat) (hc : c < n) (hb : b.length ≤ 255)
    (hb' : c + b.length + 1 ≤ n) :
    (scanWindow m n c k i b d).1.length ≤ 255 ∧ c + (scanWindow m n c k i b d).1.length + 1 ≤ n := by
  induction k generalizing i b d with
  | zero => exact ⟨hb, hb'⟩
  | succ k ih =>
    have hm := matchLength_le m n c i Config.lenMax 0 d (by omega)
    have h255 : Config.lenMax = 255 := rfl
    simp only [scanWindow]
    apply ih
    · split
      · simp only; omega
      · exact hb
    · split
      · exact hm.2
      · exact hb'

/-! ## One step of the matcher (R83) -/

/-- All a step can do, on any bytes: it moves the cursor by the token's length and one, within the input. -/
theorem matchStep_cursor (m : Memory Byte) (n w c d : Nat) (hc : c < n) :
    (matchStep m n w c d).cursor = c + (matchStep m n w c d).token.length.toNat + 1 ∧
    (matchStep m n w c d).cursor ≤ n := by
  have h := scanWindow_le m n c (c - (c - w)) (c - w) { length := 0, offset := 0 } d hc (by simp) (by simp; omega)
  simp only [matchStep, BitVec.toNat_ofNat]
  rw [Nat.mod_eq_of_lt (by omega)]
  exact ⟨rfl, h.2⟩

/-- On written bytes a step finds the token of its cursor and draws nothing (R80-R83). -/
theorem matchStep_of_holds {m : Memory Byte} {inp : List Byte} (h : m.Holds 0 inp) {w c : Nat} (hw : w < 2 ^ 16)
    (hc : c < inp.length) (d : Nat) :
    IsTokenAt inp w c (matchStep m inp.length w c d).token ∧ (matchStep m inp.length w c d).draws = d := by
  obtain ⟨r, hr, hb⟩ := scanWindow_of_holds h hc (c - (c - w)) (c - w) le_rfl (by omega) { length := 0, offset := 0 }
    (Or.inl ⟨rfl, rfl, fun i k h1 h2 _ => by omega⟩) d
  have hbest := hb.isBestMatch
  have hlen : r.length ≤ 255 ∧ c + r.length + 1 ≤ inp.length := by
    have := scanWindow_le m inp.length c (c - (c - w)) (c - w) { length := 0, offset := 0 } d hc (by simp) (by simp; omega)
    rwa [hr] at this
  have hoff : r.offset < 2 ^ 16 := by
    rcases hb with ⟨-, ho, -⟩ | ⟨-, i, ho, h1, h2, -⟩ <;> omega
  have hnx : m.get? (c + r.length) = some inp[c + r.length] := by simpa using h (c + r.length) (by omega)
  simp only [matchStep, hr, readByte_of_get? hnx, IsTokenAt, BitVec.toNat_ofNat]
  rw [Nat.mod_eq_of_lt hoff, Nat.mod_eq_of_lt (show r.length < 2 ^ 8 by omega)]
  exact ⟨⟨hbest, List.getElem?_eq_getElem _⟩, trivial⟩

/-! ## LZENCODE (R84) -/

/-- What the encoder does: it appends the records of some tokens, one or more from a cursor inside the input,
and ends with the cursor at the end; on written bytes the tokens are the input's and nothing is drawn. -/
theorem encodeLoop_spec (m : Memory Byte) (n w : Nat) (passes : Nat) (e : Encoded) (he : e.cursor ≤ n)
    (hp : n ≤ e.cursor + passes) :
    ∃ toks : List Token,
      let r := encodeLoop m n w passes e
      r.cursor = n ∧ r.count = e.count + toks.length ∧ toks.length ≤ n - e.cursor ∧
      r.toks = e.toks.writeList (4 * e.count) (toks.flatMap Token.bytes) ∧
      r.token = toks.getLast?.getD e.token ∧ (e.cursor < n → toks ≠ []) ∧
      (w < 2 ^ 16 → ∀ inp : List Byte, inp.length = n → m.Holds 0 inp →
        r.draws = e.draws ∧ IsTokenStream inp w e.cursor toks) := by
  induction passes generalizing e with
  | zero =>
    refine ⟨[], by simp [encodeLoop]; omega, rfl, by simp, rfl, rfl, by omega, fun _ inp hl _ => ⟨rfl, ?_⟩⟩
    show e.cursor = inp.length
    omega
  | succ passes ih =>
    simp only [encodeLoop]
    by_cases hc : e.cursor < n
    · rw [if_pos hc]
      obtain ⟨hcur, hle⟩ := matchStep_cursor m n w e.cursor e.draws hc
      set r := matchStep m n w e.cursor e.draws with hr
      obtain ⟨toks, h1, h2, h3, h4, h5, h6, h7⟩ := ih
        { cursor := r.cursor, token := r.token, count := e.count + 1,
          toks := e.toks.writeList (4 * e.count) r.token.bytes, draws := r.draws } hle (by simp only; omega)
      simp only at h1 h2 h3 h4 h5 h6 h7
      refine ⟨r.token :: toks, h1, by rw [h2, List.length_cons]; omega, by rw [List.length_cons]; omega, ?_, ?_,
        fun _ => by simp, fun hw inp hl hin => ?_⟩
      · rw [h4, List.flatMap_cons, Memory.writeList_append, Token.bytes_length, Nat.mul_add]
      · rw [h5, List.getLast?_cons]; rfl
      · subst hl
        obtain ⟨hd, hs⟩ := h7 hw inp rfl hin
        obtain ⟨ht, hd'⟩ := matchStep_of_holds hin hw hc e.draws
        rw [← hr] at ht hd'
        exact ⟨hd.trans hd', hc, ht, by rwa [← hcur]⟩
    · rw [if_neg hc]
      refine ⟨[], by omega, rfl, by simp, rfl, rfl, by omega, fun _ inp hl _ => ⟨rfl, ?_⟩⟩
      show e.cursor = inp.length
      omega

/-! ## LZDECODE (R85) -/

theorem flatMap_bytes_length (toks : List Token) : (toks.flatMap Token.bytes).length = 4 * toks.length := by
  induction toks with
  | nil => rfl
  | cons t toks ih => simp only [List.flatMap_cons, List.length_append, Token.bytes_length, ih, List.length_cons]; omega

/-- The copy of R85 from the output's own bytes: every byte equals the one `off` before it, and nothing is
drawn. -/
theorem copyRun_of_holds {off : Nat} (h0 : 0 < off) (len : Nat) {out : Memory Byte} {written : List Byte}
    (h : out.Holds 0 written) (ho : off ≤ written.length) (d : Nat) :
    ∃ run : List Byte, copyRun off len written.length out d = (out.writeList written.length run, d) ∧
      run.length = len ∧ ∀ k, k < len →
        (written ++ run)[written.length + k]? = (written ++ run)[written.length + k - off]? := by
  induction len generalizing out written with
  | zero => exact ⟨[], rfl, rfl, fun k hk => by omega⟩
  | succ len ih =>
    have hlt : written.length - off < written.length := by omega
    have hb : out.get? (written.length - off) = some written[written.length - off] := by
      simpa using h (written.length - off) hlt
    have h' : (out.write written.length written[written.length - off]).Holds 0
        (written ++ [written[written.length - off]]) := by
      refine Memory.holds_append.2 ⟨h.congr (fun k hk => Memory.get?_write_ne _ _ (by omega)), ?_⟩
      rw [Memory.holds_cons]
      exact ⟨by simp, Memory.holds_nil _ _⟩
    obtain ⟨run, e, hl, hr⟩ := ih h' (by simp; omega)
    rw [List.length_append, List.length_singleton] at e hr
    refine ⟨written[written.length - off] :: run, ?_, by simp [hl], fun k hk => ?_⟩
    · simp only [copyRun, readByte_of_get? hb, e]; rfl
    · rw [List.append_assoc, List.singleton_append] at hr
      cases k with
      | zero =>
        rw [Nat.add_zero, List.getElem?_append_right le_rfl, List.getElem?_append_left hlt,
          List.getElem?_eq_getElem hlt, Nat.sub_self]; rfl
      | succ k =>
        have := hr k (by omega)
        rwa [show written.length + 1 + k = written.length + (k + 1) by omega] at this

/-- A copy is determined by what it copies from. -/
theorem run_unique {out run run' : List Byte} {off : Nat} (h0 : 0 < off) (ho : off ≤ out.length)
    (hl : run.length = run'.length)
    (h : ∀ k, k < run.length → (out ++ run)[out.length + k]? = (out ++ run)[out.length + k - off]?)
    (h' : ∀ k, k < run'.length → (out ++ run')[out.length + k]? = (out ++ run')[out.length + k - off]?) :
    run = run' := by
  have key : ∀ a : Nat, a < out.length + run.length → (out ++ run)[a]? = (out ++ run')[a]? := by
    intro a
    induction a using Nat.strong_induction_on with
    | _ a ih =>
      intro ha
      rcases Nat.lt_or_ge a out.length with hlt | hge
      · rw [List.getElem?_append_left hlt, List.getElem?_append_left hlt]
      · have e1 := h (a - out.length) (by omega)
        have e2 := h' (a - out.length) (by omega)
        rw [show out.length + (a - out.length) = a by omega] at e1 e2
        rw [e1, e2]
        exact ih (a - off) (by omega) (by omega)
  apply List.ext_getElem?
  intro k
  rcases Nat.lt_or_ge k run.length with hk | hk
  · have := key (out.length + k) (by omega)
    rwa [List.getElem?_append_right (by omega), List.getElem?_append_right (by omega), Nat.add_sub_cancel_left] at this
  · rw [List.getElem?_eq_none hk, List.getElem?_eq_none (by omega)]

/-- What appending a token gives is determined (R85). -/
theorem Appends.unique {out o1 o2 : List Byte} {t : Token} (h1 : Appends out t o1) (h2 : Appends out t o2) : o1 = o2 := by
  obtain ⟨hc, r1, rfl, l1, p1⟩ := h1
  obtain ⟨-, r2, rfl, l2, p2⟩ := h2
  have : r1 = r2 := by
    rcases hc with ⟨-, hz⟩ | ⟨h0, ho⟩
    · rw [List.length_eq_zero_iff.1 (l1.trans hz), List.length_eq_zero_iff.1 (l2.trans hz)]
    · exact run_unique h0 ho (l1.trans l2.symm) p1 p2
  rw [this]

theorem Appends.length {out out' : List Byte} {t : Token} (h : Appends out t out') :
    out'.length = out.length + t.length.toNat + 1 := by
  obtain ⟨-, r, rfl, l, -⟩ := h
  simp [l]; omega

theorem Reconstructs.length_le {out out' : List Byte} {toks : List Token} (h : Reconstructs out toks out') :
    out.length ≤ out'.length := by
  induction toks generalizing out with
  | nil => rw [show out' = out from h]
  | cons t toks ih =>
    obtain ⟨mid, h1, h2⟩ := h
    have := h1.length
    have := ih h2
    omega

/-- Tokens that fit are reconstructed one after another, and the loop goes on (R85, R113). -/
theorem decodeLoop_append {bufMax : Nat} {m : Memory Byte} {toks : List Token} {t : Nat}
    (h : m.Holds (4 * t) (toks.flatMap Token.bytes)) {written out' : List Byte} (hrec : Reconstructs written toks out')
    (hfit : out'.length ≤ bufMax) {out : Memory Byte} (hout : out.Holds 0 written) (k d : Nat) :
    ∃ out2, decodeLoop bufMax m (toks.length + k) t written.length out d =
        decodeLoop bufMax m k (t + toks.length) out'.length out2 d ∧
      out2.Holds 0 out' ∧ out2.SameOutside out 0 out'.length := by
  induction toks generalizing t written out with
  | nil =>
    have : out' = written := hrec
    subst this
    exact ⟨out, by simp, hout, Memory.SameOutside.refl _ _ _⟩
  | cons tok toks ih =>
    obtain ⟨mid, happ, hrest⟩ := hrec
    obtain ⟨h1, h2⟩ := Memory.holds_append.1 h
    rw [Token.bytes_length, show 4 * t + 4 = 4 * (t + 1) by omega] at h2
    have hml := happ.length
    have hmf := hrest.length_le
    have one : ∃ out1, decodeLoop bufMax m (toks.length + k + 1) t written.length out d =
        decodeLoop bufMax m (toks.length + k) (t + 1) mid.length out1 d ∧ out1.Holds 0 mid ∧
        out1.SameOutside out 0 mid.length := by
      have store : ∀ (run : List Byte), mid = written ++ run ++ [tok.next] →
          ((out.writeList written.length run).write (written.length + run.length) tok.next).Holds 0 mid ∧
          ((out.writeList written.length run).write (written.length + run.length) tok.next).SameOutside out 0
            mid.length := by
        intro run hm
        subst hm
        have e : (out.writeList written.length run).write (written.length + run.length) tok.next =
            out.writeList written.length (run ++ [tok.next]) := by rw [Memory.writeList_append]; rfl
        rw [e, List.append_assoc]
        refine ⟨Memory.holds_append.2 ⟨hout.congr (fun j hj => ?_), ?_⟩, ?_⟩
        · rw [Memory.get?_writeList, if_neg (by omega)]
        · rw [Nat.zero_add]; exact Memory.holds_writeList _ _ _
        · exact (Memory.sameOutside_writeList _ _ _).mono (by omega) (by simp)
      simp only [decodeLoop, readToken_of_holds h1]
      obtain ⟨hc, run, hmid, hlen, hper⟩ := id happ
      by_cases hlit : tok.offset.toNat = 0 ∧ tok.length.toNat = 0
      · rw [if_pos hlit, if_neg (by omega)]
        have hz : run = [] := List.length_eq_zero_iff.1 (hlen.trans hlit.2)
        subst hz
        obtain ⟨s1, s2⟩ := store [] hmid
        refine ⟨_, ?_, s1, s2⟩
        rw [show mid.length = written.length + 1 by omega]; rfl
      · rw [if_neg hlit]
        have hoff : 0 < tok.offset.toNat ∧ tok.offset.toNat ≤ written.length := by
          rcases hc with hc | hc
          · exact absurd hc hlit
          · exact hc
        rw [if_neg (by omega), if_neg (by omega)]
        obtain ⟨run', e, hl', hper'⟩ := copyRun_of_holds hoff.1 tok.length.toNat hout hoff.2 d
        have : run' = run := run_unique hoff.1 hoff.2 (hl'.trans hlen.symm) (by rwa [hl']) hper
        subst this
        obtain ⟨s1, s2⟩ := store run' hmid
        rw [hl'] at s1 s2
        refine ⟨_, ?_, s1, s2⟩
        rw [e, show mid.length = written.length + tok.length.toNat + 1 by omega]
    obtain ⟨out1, e1, o1, s1⟩ := one
    obtain ⟨out2, e2, o2, s2⟩ := ih h2 hrest o1
    refine ⟨out2, ?_, o2, s2.trans (s1.mono le_rfl hmf)⟩
    rw [List.length_cons, show toks.length + 1 + k = toks.length + k + 1 by omega, e1, e2,
      show t + 1 + toks.length = t + (toks.length + 1) by omega]

/-- A token that cannot be appended stops the loop, by the first check it fails (R85). -/
theorem decodeLoop_stops {bufMax : Nat} {m : Memory Byte} {tok : Token} {t : Nat} (h : m.Holds (4 * t) tok.bytes)
    (k pos : Nat) (out : Memory Byte) (d : Nat) :
    let stop (e : BlockError) : Prop :=
      decodeLoop bufMax m (k + 1) t pos out d = { error := some e, length := pos, out := out, draws := d }
    let literal := tok.offset.toNat = 0 ∧ tok.length.toNat = 0
    (literal → bufMax < pos + 1 → stop (.capacity t)) ∧
    (¬ literal → (tok.offset.toNat = 0 ∨ pos < tok.offset.toNat) → stop (.invalidOffset t)) ∧
    (¬ literal → 0 < tok.offset.toNat → tok.offset.toNat ≤ pos → bufMax < pos + tok.length.toNat + 1 →
      stop (.capacity t)) := by
  simp only [decodeLoop, readToken_of_holds h]
  refine ⟨fun h1 h2 => ?_, fun h1 h2 => ?_, fun h1 h2 h3 h4 => ?_⟩
  · rw [if_pos h1, if_pos h2]
  · rw [if_neg h1, if_pos h2]
  · rw [if_neg h1, if_neg (by omega), if_pos h4]

/-- All the copy can do: it writes the `len` bytes from `pos`. -/
theorem copyRun_frame (off len pos : Nat) (out : Memory Byte) (d : Nat) :
    (copyRun off len pos out d).1.SameOutside out pos (pos + len) ∧ (out.wf → (copyRun off len pos out d).1.wf) ∧
    (∀ n, out.below n → pos + len ≤ n → (copyRun off len pos out d).1.below n) := by
  induction len generalizing pos out d with
  | zero => exact ⟨Memory.SameOutside.refl _ _ _, id, fun _ h _ => h⟩
  | succ len ih =>
    simp only [copyRun]
    obtain ⟨h1, h2, h3⟩ := ih (pos + 1) (out.write pos (readByte out (pos - off) d).1) (readByte out (pos - off) d).2
    exact ⟨(h1.mono (by omega) (by omega)).trans (Memory.sameOutside_write _ _ le_rfl (by omega)),
      fun h => h2 (Memory.wf_write h _ _), fun n h hn => h3 n (Memory.below_write h (by omega) _) (by omega)⟩

/-- All the loop can do: it writes bytes from `pos` up to where it ends, within the limit, and the errors it
raises are two. -/
theorem decodeLoop_frame (bufMax : Nat) (m : Memory Byte) (k t pos : Nat) (out : Memory Byte) (d : Nat)
    (hp : pos ≤ bufMax) :
    let r := decodeLoop bufMax m k t pos out d
    pos ≤ r.length ∧ r.length ≤ bufMax ∧ r.out.SameOutside out pos r.length ∧ (out.wf → r.out.wf) ∧
    (∀ n, out.below n → bufMax ≤ n → r.out.below n) ∧
    (∀ e, r.error = some e → ∃ i, e = .invalidOffset i ∨ e = .capacity i) := by
  induction k generalizing t pos out d with
  | zero => exact ⟨le_rfl, hp, Memory.SameOutside.refl _ _ _, id, fun _ h _ => h, by simp [decodeLoop]⟩
  | succ k ih =>
    have stop : ∀ (e : BlockError) (d' : Nat), (∃ i, e = .invalidOffset i ∨ e = .capacity i) →
        let r : Reconstructed := { error := some e, length := pos, out := out, draws := d' }
        pos ≤ r.length ∧ r.length ≤ bufMax ∧ r.out.SameOutside out pos r.length ∧ (out.wf → r.out.wf) ∧
        (∀ n, out.below n → bufMax ≤ n → r.out.below n) ∧
        (∀ e, r.error = some e → ∃ i, e = .invalidOffset i ∨ e = .capacity i) :=
      fun e d' he => ⟨le_rfl, hp, Memory.SameOutside.refl _ _ _, id, fun _ h _ => h, by simpa using he⟩
    simp only [decodeLoop]
    split
    · split
      · exact stop _ _ ⟨t, Or.inr rfl⟩
      · obtain ⟨h1, h2, h3, h4, h5, h6⟩ := ih (t + 1) (pos + 1) (out.write pos (readToken m t d).1.next)
          (readToken m t d).2 (by omega)
        exact ⟨by omega, h2, (h3.mono (by omega) le_rfl).trans (Memory.sameOutside_write _ _ le_rfl (by omega)),
          fun h => h4 (Memory.wf_write h _ _), fun n h hn => h5 n (Memory.below_write h (by omega) _) hn, h6⟩
    · split
      · exact stop _ _ ⟨t, Or.inl rfl⟩
      · split
        · exact stop _ _ ⟨t, Or.inr rfl⟩
        · rename_i hfit
          set off := (readToken m t d).1.offset.toNat
          set len := (readToken m t d).1.length.toNat
          obtain ⟨c1, c2, c3⟩ := copyRun_frame off len pos out (readToken m t d).2
          set q := copyRun off len pos out (readToken m t d).2
          obtain ⟨h1, h2, h3, h4, h5, h6⟩ := ih (t + 1) (pos + len + 1) (q.1.write (pos + len) (readToken m t d).1.next)
            q.2 (by omega)
          refine ⟨by omega, h2, ?_, fun h => h4 (Memory.wf_write (c2 h) _ _),
            fun n h hn => h5 n (Memory.below_write (c3 n h (by omega)) (by omega) _) hn, h6⟩
          exact ((h3.mono (by omega) le_rfl).trans (Memory.sameOutside_write _ _ (by omega) (by omega))).trans
            (c1.mono le_rfl (by omega))

/-! ## The round trip (R86) -/

/-- Appending the token of a cursor to the input before it gives the input before the next cursor. -/
theorem IsTokenAt.appends {inp : List Byte} {w c : Nat} {t : Token} (h : IsTokenAt inp w c t) (hc : c < inp.length) :
    Appends (inp.take c) t (inp.take (c + t.length.toNat + 1)) := by
  obtain ⟨hb, hn⟩ := h
  have hlt : c + t.length.toNat < inp.length := by
    by_contra hge
    rw [List.getElem?_eq_none (by omega)] at hn
    cases hn
  have hcl : (inp.take c).length = c := by simp; omega
  have hcat : inp.take c ++ (inp.drop c).take t.length.toNat = inp.take (c + t.length.toNat) := by
    rw [List.take_add]
  refine ⟨?_, (inp.drop c).take t.length.toNat, ?_, by simp; omega, ?_⟩
  · rcases hb with ⟨h0, ho, -⟩ | ⟨-, i, ho, hw, -, -⟩
    · exact Or.inl ⟨ho, h0⟩
    · have := hw.2
      exact Or.inr ⟨by omega, by rw [hcl]; omega⟩
  · rw [hcat, List.take_add_one, hn]; rfl
  · intro k hk
    have hk : k < t.length.toNat := by simp at hk; omega
    rw [hcat, hcl]
    rcases hb with ⟨h0, -, -⟩ | ⟨-, i, ho, hw, ⟨hm, -⟩, -⟩
    · omega
    · have hi := hw.2
      have := hm.2.2 k hk
      rw [List.getElem?_take_of_lt (by omega), List.getElem?_take_of_lt (by omega), ho,
        show c + k - (c - i) = i + k by omega, this]

/-- Reconstructing the tokens of an input gives the input. -/
theorem IsTokenStream.reconstructs {inp : List Byte} {w c : Nat} {toks : List Token} (h : IsTokenStream inp w c toks) :
    Reconstructs (inp.take c) toks inp := by
  induction toks generalizing c with
  | nil =>
    have : c = inp.length := h
    subst this
    exact (List.take_length).symm
  | cons t toks ih =>
    obtain ⟨hc, ht, hrest⟩ := h
    exact ⟨_, ht.appends hc, ih hrest⟩

end Sys2Proof.Machine
end

