-- ==== Sys2Proof/Laws/Step.lean ====
section
/-! SUPPORT. One step (60_exceptions.md R94, 20_memory.md R40): the cases, each an equation. -/

namespace Sys2Proof.Machine

/-- The core agent's step runs the command in flight (R94). -/
theorem coreStep_command {s : State} {w : Word} {i : Instr} (hr : s.rst = false) (hf : s.inflight = some w)
    (hd : decode w = .command i) : coreStep s = exec i s := by
  simp [coreStep, hr, hf, hd]

/-- The core agent's step completes an illegal word (R59). -/
theorem coreStep_illegal {s : State} {w v : Word} {y : IllegalReason} (hr : s.rst = false) (hf : s.inflight = some w)
    (hd : decode w = .illegal v y) : coreStep s = execIllegal v s := by
  simp [coreStep, hr, hf, hd]

/-- The core agent is idle when the block is not BUSY (R94). -/
theorem coreStep_idle {s : State} (hb : s.busy = false) : coreStep s = .next s := by
  have : s.inflight = none := by simpa [State.busy] using hb
  simp [coreStep, this]

theorem step_nil {s : State} (h : s.pending = []) : step s = coreStep s := by simp [step, advance, h]

theorem step_cons {s : State} {e : Event} {rest : List Event} (h : s.pending = e :: rest) :
    step s = serve { s with pending := rest } e := by simp [step, advance, h]

theorem step_read {s : State} {addr : Word} {rest : List Event} (h : s.serves (.read addr) rest) :
    step s = .next (State.busRead { s with pending := rest } addr) := by
  obtain ⟨hr, hp⟩ := h
  rw [step_cons hp]
  simp [serve, State.hostRead, hr]

theorem step_write {s : State} {addr data : Word} {strb : BitVec 4} {rest : List Event}
    (h : s.serves (.write addr data strb) rest) :
    step s = .next (State.busWrite { s with pending := rest } addr data strb) := by
  obtain ⟨hr, hp⟩ := h
  rw [step_cons hp]
  simp [serve, State.hostWrite, hr]

/-- A served read of a word that is not refused for BUSY (R40, R112). -/
theorem step_read_idle {s : State} {addr : Word} {rest : List Event} {t : Target} (h : s.serves (.read addr) rest)
    (ht : busTarget s.params addr = some t) (hb : s.busy = false ∨ t.readableWhileBusy = true) :
    step s = .next { s with
      pending := rest, response := some (.read (s.readTarget t).1 .okay), draws := (s.readTarget t).2 } := by
  rw [step_read h]
  have := busRead_idle (s := { s with pending := rest }) ht hb
  rw [this]
  cases t <;> rfl

/-- A served write of a word that is not dropped for BUSY (R40, R110). -/
theorem step_write_idle {s : State} {addr data : Word} {strb : BitVec 4} {rest : List Event} {t : Target}
    (h : s.serves (.write addr data strb) rest) (ht : busTarget s.params addr = some t) (h0 : strb ≠ 0)
    (hb : s.busy = false ∨ t.writableWhileBusy = true) :
    step s = .next { s.writeTarget t data strb with pending := rest, response := some (.write .okay) } := by
  rw [step_write h]
  have := busWrite_idle (s := { s with pending := rest }) (data := data) ht h0 hb
  rw [this]
  cases t
  case reg r =>
    cases r
    case ctrl => simp only [State.writeTarget, State.writeReg]; split <;> rfl
    all_goals rfl
  all_goals rfl

/-- A served write dropped because the block is BUSY (R110). -/
theorem step_write_busy {s : State} {addr data : Word} {strb : BitVec 4} {rest : List Event} {t : Target}
    (h : s.serves (.write addr data strb) rest) (ht : busTarget s.params addr = some t) (h0 : strb ≠ 0)
    (hb : s.busy = true) (hw : t.writableWhileBusy = false) :
    step s = .next { s.dropWrite with pending := rest, response := some (.write .okay) } := by
  rw [step_write h]
  have := busWrite_busy (s := { s with pending := rest }) (data := data) ht h0 hb hw
  rw [this]
  rfl

/-- A run of one step more. -/
theorem run_succ (M : Host.Core) {s t : M.State} (h : M.step s = .next t) (n : Nat) : M.run (n + 1) s = M.run n t := by
  simp [Host.Core.run, h]

/-- The meaning of every command is a rule and its completion (R94). -/
theorem exec_complete (i : Instr) (s : State) : ∃ r, exec i s = .next (complete r) := by
  cases i <;> exact ⟨_, rfl⟩

/-- An invariant of steps from its parts: what the rest of the events, a command, an illegal word, an answer, an
accepted write, a dropped write, and the reset input keep, every step keeps. -/
theorem step_invariant {P : State → Prop} (hpending : ∀ s rest, P s → P { s with pending := rest })
    (hexec : ∀ i s w t, P s → s.rst = false → s.inflight = some w → exec i s = .next t → P t)
    (hillegal : ∀ v s w, P s → s.rst = false → s.inflight = some w → P (complete (.raised s (.illegalCommand v))))
    (hanswer : ∀ s r d, P s → P { s with response := r, draws := d })
    (hwrite : ∀ s t data strb, P s → s.rst = false → s.busy = false ∨ t.writableWhileBusy = true →
      P (s.writeTarget t data strb))
    (hdrop : ∀ s, P s → s.busy = true → P s.dropWrite) (hassert : ∀ s, P s → P s.assertReset)
    (hrelease : ∀ s, P s → P s.releaseReset) {s t : State} (hP : P s) (h : step s = .next t) : P t := by
  have core : ∀ s t, P s → coreStep s = .next t → P t := by
    intro s t hs h
    unfold coreStep at h
    split at h
    · cases h; exact hs
    · rename_i hr
      have hr : s.rst = false := by simpa using hr
      split at h
      · cases h; exact hs
      · rename_i w hf
        split at h
        · exact hexec _ _ w _ hs hr hf h
        · cases h; exact hillegal _ _ w hs hr hf
  unfold step advance at h
  split at h
  · exact core _ _ hP h
  · rename_i e rest hp
    replace hP := hpending s rest hP
    cases e with
    | read addr =>
      cases h
      unfold State.hostRead
      split
      · exact hanswer _ none _ hP
      · obtain ⟨r, d, e⟩ := busRead_eq { s with pending := rest } addr
        rw [e]; exact hanswer _ _ _ hP
    | write addr data strb =>
      cases h
      unfold State.hostWrite
      split
      · exact hanswer _ none _ hP
      · rename_i hr
        unfold State.busWrite
        split
        · exact hanswer _ (some _) _ hP
        · split
          · exact hanswer _ (some _) _ hP
          · split
            · rename_i hb
              simp only [Bool.and_eq_true] at hb
              exact hanswer _ (some _) _ (hdrop _ hP hb.1)
            · rename_i hb
              refine hanswer _ (some _) _ (hwrite _ _ data strb hP (by simpa using hr) ?_)
              simp only [Bool.and_eq_true, Bool.not_eq_true', not_and, Bool.not_eq_false] at hb
              cases hbb : State.busy { s with pending := rest }
              · exact Or.inl rfl
              · exact Or.inr (hb hbb)
    | assertReset => cases h; exact hassert _ hP
    | releaseReset => cases h; exact hrelease _ hP
    | coreTurn => exact core _ _ hP h

/-- The step of a placed command word runs its command, on the state that accepted it (R93, R94). -/
theorem step_withFetchWord {s : State} {nbits w : Nat} {i : Instr} (h : decode (BitVec.ofNat 32 w) = .command i) :
    step (s.withFetchWord nbits w) =
      exec i { s.accept (BitVec.ofNat 32 w) with rst := false } := by
  have hp : (s.withFetchWord nbits w).pending = .coreTurn :: s.pending := rfl
  rw [step_cons hp]
  exact coreStep_command rfl rfl h

end Sys2Proof.Machine
end

