-- ==== Sys2Proof/Laws/Commands.lean ====
section
/-! SUPPORT. The rule of each command as equations: what it answers when a check fails, what it runs when none
does, and all it can change (R68-R78, R83-R85, R92). -/

namespace Sys2Proof.Machine

/-! ## The checks -/

theorem hfreqRule_run {s : State} (h : s.inLen.toNat ≤ s.params.bufMax) (h0 : s.inLen ≠ 0) :
    hfreqRule s = .done { s with
      freq := (countBytes s.inMem s.inLen.toNat 0 noCounts s.draws).1
      draws := (countBytes s.inMem s.inLen.toNat 0 noCounts s.draws).2 } := by
  rw [hfreqRule, if_neg (by omega), if_neg h0]

theorem hassignRule_run {s : State} (h : s.status.treeValid = true) :
    hassignRule s = .done { s with
      code := assignCodes s.node s.root, status := { s.status with codesValid := true } } := by
  rw [hassignRule, if_neg (by simp [h])]

theorem hemitRule_run {s : State} (h : s.inLen.toNat ≤ s.params.bufMax) (hc : s.status.codesValid = true)
    (h0 : s.inLen ≠ 0) {r : Emitted}
    (hr : emitLoop s.params.bitMax s.code s.inMem s.inLen.toNat 0 0 s.bitMem s.draws = r) :
    hemitRule s =
      match r.error with
      | some e => .raised { s with bitMem := r.bits, draws := r.draws, bitLen := 0 } e
      | none => .done { s with bitMem := r.bits, draws := r.draws, bitLen := BitVec.ofNat 32 r.pos } := by
  rw [hemitRule, if_neg (by omega), if_neg (by simp [hc]), if_neg h0, hr] <;> rfl

theorem hpackRule_run {s : State} (h : s.bitLen.toNat ≤ s.params.bitMax) {r : Memory Byte × Nat}
    (hr : packLoop s.bitMem s.bitLen.toNat ((s.bitLen.toNat + 7) / 8) 0 s.outMem s.draws = r) :
    hpackRule s = .done { s with
      outMem := r.1, draws := r.2, outLen := BitVec.ofNat 32 ((s.bitLen.toNat + 7) / 8) } := by
  rw [hpackRule, if_neg (by omega)]; simp only [hr]

theorem hunpackRule_run {s : State} (h : s.inLen.toNat ≤ s.params.bufMax) {r : Memory Bool × Nat}
    (hr : unpackLoop s.inMem s.inLen.toNat 0 s.bitMem s.draws = r) :
    hunpackRule s = .done { s with
      bitMem := r.1, draws := r.2, bitLen := BitVec.ofNat 32 (8 * s.inLen.toNat) } := by
  rw [hunpackRule, if_neg (by omega)]; simp only [hr]

theorem hwalkRule_run {s : State} (h1 : s.bitLen.toNat ≤ s.params.bitMax) (h2 : s.symCount.toNat ≤ s.params.bufMax)
    (h3 : s.symCount ≠ 0 → s.status.treeValid = true) {w : Walked} (hw : walkThenCheck s = w) :
    hwalkRule s =
      match w.error with
      | some e => .raised { s with outMem := w.out, draws := w.draws, outLen := 0 } e
      | none => .done { s with outMem := w.out, draws := w.draws, outLen := s.symCount } := by
  rw [hwalkRule, if_neg (by omega), if_neg (by omega), if_neg (by rintro ⟨h, h'⟩; simp [h3 h] at h'), hw] <;> rfl

theorem lzmatchRule_run {s : State} (h : s.inLen.toNat ≤ s.params.bufMax) (hc : s.cursor.toNat < s.inLen.toNat)
    {r : Matched} (hr : matchStep s.inMem s.inLen.toNat s.window.toNat s.cursor.toNat s.draws = r) :
    lzmatchRule s = .done { s with token := r.token, cursor := BitVec.ofNat 32 r.cursor, draws := r.draws } := by
  rw [lzmatchRule, if_neg (by omega), if_neg (by rintro h; simp [h] at hc), if_neg (by omega)]
  simp only [hr]

theorem lzencodeRule_run {s : State} (h : s.inLen.toNat ≤ s.params.bufMax) (h0 : s.inLen ≠ 0) {r : Encoded}
    (hr : encodeLoop s.inMem s.inLen.toNat s.window.toNat s.inLen.toNat
      { cursor := 0, token := s.token, count := 0, toks := s.tokMem, draws := s.draws } = r) :
    lzencodeRule s = .done { s with
      cursor := BitVec.ofNat 32 r.cursor, token := r.token, tokMem := r.toks
      tokBytes := BitVec.ofNat 32 (4 * r.count), draws := r.draws } := by
  rw [lzencodeRule, if_neg (by omega), if_neg h0]
  simp only [hr]

theorem lzdecodeRule_run {s : State} (h : s.tokBytes.toNat ≤ 4 * s.params.tokMax) (h4 : s.tokBytes.toNat % 4 = 0)
    {r : Reconstructed}
    (hr : decodeLoop s.params.bufMax s.tokMem (s.tokBytes.toNat / 4) 0 0 s.outMem s.draws = r) :
    lzdecodeRule s =
      match r.error with
      | some e => .raised { s with outMem := r.out, draws := r.draws, outLen := 0 } e
      | none => .done { s with outMem := r.out, draws := r.draws, outLen := BitVec.ofNat 32 r.length } := by
  rw [lzdecodeRule, if_neg (by omega), if_neg (by omega), hr] <;> rfl

/-! ## What each rule can change -/

theorem hfreqRule_state (s : State) : ∃ f d, (hfreqRule s).state = { s with freq := f, draws := d } := by
  unfold hfreqRule
  split
  · exact ⟨_, _, rfl⟩
  · split <;> exact ⟨_, _, rfl⟩

theorem hassignRule_state (s : State) :
    ∃ cs v, (hassignRule s).state = { s with code := cs, status := { s.status with codesValid := v } } := by
  unfold hassignRule
  split <;> exact ⟨_, _, rfl⟩

theorem hbuildRule_state (s : State) :
    ∃ ns nc rt cs tv cv, (hbuildRule s).state = { s with
      node := ns, nodeCount := nc, root := rt, code := cs
      status := { s.status with treeValid := tv, codesValid := cv } } := by
  rw [hbuildRule_eq]
  split <;> exact ⟨_, _, _, _, _, _, rfl⟩

/-- HEMIT writes BITMEM within its size, and BIT_LEN. -/
theorem hemitRule_state (s : State) :
    ∃ bits d n, (hemitRule s).state = { s with bitMem := bits, draws := d, bitLen := n } ∧
      (s.bitMem.wf → bits.wf) ∧ (s.bitMem.below s.params.bitMax → bits.below s.params.bitMax) := by
  have h := emitLoop_frame s.params.bitMax s.code s.inMem s.inLen.toNat 0 0 s.bitMem s.draws (Nat.zero_le _)
  obtain ⟨-, -, -, h4, h5, -⟩ := h
  unfold hemitRule
  split
  · exact ⟨_, _, _, rfl, id, id⟩
  · split
    · exact ⟨_, _, _, rfl, id, id⟩
    · split
      · exact ⟨_, _, _, rfl, id, id⟩
      · simp only
        split <;> exact ⟨_, _, _, rfl, h4, fun h => h5 _ h le_rfl⟩

/-- HPACK writes OUT_MEM within its size, and OUT_LEN. -/
theorem hpackRule_state (s : State) :
    ∃ out d n, (hpackRule s).state = { s with outMem := out, draws := d, outLen := n } ∧
      (s.outMem.wf → out.wf) ∧ (s.outMem.below s.params.bufMax → out.below s.params.bufMax) ∧
      (s.outLen.toNat ≤ s.params.bufMax → n.toNat ≤ s.params.bufMax) := by
  have hb := bufMax_pos s.params
  have hm : s.params.bitMax = 8 * s.params.bufMax := rfl
  obtain ⟨-, h2, h3⟩ := packLoop_frame s.bitMem s.bitLen.toNat ((s.bitLen.toNat + 7) / 8) 0 s.outMem s.draws
  unfold hpackRule
  split
  · exact ⟨_, _, _, rfl, id, id, id⟩
  · refine ⟨_, _, _, rfl, h2, fun h => h3 _ h (by omega), fun _ => ?_⟩
    rw [BitVec.toNat_ofNat, Nat.mod_eq_of_lt (by omega)]; omega

/-- HUNPACK writes BITMEM within its size, and BIT_LEN. -/
theorem hunpackRule_state (s : State) :
    ∃ bits d n, (hunpackRule s).state = { s with bitMem := bits, draws := d, bitLen := n } ∧
      (s.bitMem.wf → bits.wf) ∧ (s.bitMem.below s.params.bitMax → bits.below s.params.bitMax) := by
  have hm : s.params.bitMax = 8 * s.params.bufMax := rfl
  obtain ⟨-, h2, h3⟩ := unpackLoop_frame s.inMem s.inLen.toNat 0 s.bitMem s.draws
  unfold hunpackRule
  split
  · exact ⟨_, _, _, rfl, id, id⟩
  · exact ⟨_, _, _, rfl, h2, fun h => h3 _ h (by omega)⟩

/-- HWALK writes OUT_MEM within its size, and OUT_LEN. -/
theorem hwalkRule_state (s : State) :
    ∃ out d n, (hwalkRule s).state = { s with outMem := out, draws := d, outLen := n } ∧
      (s.outMem.wf → out.wf) ∧ (s.outMem.below s.params.bufMax → out.below s.params.bufMax) ∧
      (s.outLen.toNat ≤ s.params.bufMax → n.toNat ≤ s.params.bufMax) := by
  obtain ⟨-, h2, h3, -⟩ := walkThenCheck_frame s
  unfold hwalkRule
  split
  · exact ⟨_, _, _, rfl, id, id, id⟩
  · split
    · exact ⟨_, _, _, rfl, id, id, id⟩
    · split
      · exact ⟨_, _, _, rfl, id, id, id⟩
      · simp only
        split
        · exact ⟨_, _, _, rfl, h2, fun h => h3 _ h (by omega), fun _ => by simp⟩
        · exact ⟨_, _, _, rfl, h2, fun h => h3 _ h (by omega), fun _ => by omega⟩

theorem lzmatchRule_state (s : State) :
    ∃ t n d, (lzmatchRule s).state = { s with token := t, cursor := n, draws := d } := by
  unfold lzmatchRule
  split
  · exact ⟨_, _, _, rfl⟩
  · split
    · exact ⟨_, _, _, rfl⟩
    · split <;> exact ⟨_, _, _, rfl⟩

/-- LZENCODE writes TOKMEM within its size, TOKEN, CURSOR and TOK_BYTES. -/
theorem lzencodeRule_state (s : State) :
    ∃ toks t n k d, (lzencodeRule s).state = { s with
        tokMem := toks, token := t, cursor := n, tokBytes := k, draws := d } ∧
      (s.tokMem.wf → toks.wf) ∧ (s.tokMem.below (4 * s.params.tokMax) → toks.below (4 * s.params.tokMax)) := by
  have ht : s.params.tokMax = s.params.bufMax := rfl
  unfold lzencodeRule
  split
  · exact ⟨_, _, _, _, _, rfl, id, id⟩
  · split
    · exact ⟨_, _, _, _, _, rfl, id, id⟩
    · obtain ⟨toks, -, -, h3, h4, -⟩ := encodeLoop_spec s.inMem s.inLen.toNat s.window.toNat s.inLen.toNat
        { cursor := 0, token := s.token, count := 0, toks := s.tokMem, draws := s.draws } (Nat.zero_le _) (by simp)
      refine ⟨_, _, _, _, _, rfl, fun h => ?_, fun h => ?_⟩
      · rw [h4]; exact Memory.wf_writeList h _ _
      · rw [h4]
        refine Memory.below_writeList h _ ?_
        rw [flatMap_bytes_length]
        simp only at h3 ⊢
        omega

/-- LZDECODE writes OUT_MEM within its size, and OUT_LEN. -/
theorem lzdecodeRule_state (s : State) :
    ∃ out d n, (lzdecodeRule s).state = { s with outMem := out, draws := d, outLen := n } ∧
      (s.outMem.wf → out.wf) ∧ (s.outMem.below s.params.bufMax → out.below s.params.bufMax) ∧
      (s.outLen.toNat ≤ s.params.bufMax → n.toNat ≤ s.params.bufMax) := by
  have hb := bufMax_pos s.params
  obtain ⟨-, h2, -, h4, h5, -⟩ := decodeLoop_frame s.params.bufMax s.tokMem (s.tokBytes.toNat / 4) 0 0 s.outMem s.draws
    (Nat.zero_le _)
  unfold lzdecodeRule
  split
  · exact ⟨_, _, _, rfl, id, id, id⟩
  · split
    · exact ⟨_, _, _, rfl, id, id, id⟩
    · simp only
      split
      · exact ⟨_, _, _, rfl, h4, fun h => h5 _ h le_rfl, fun _ => by simp⟩
      · refine ⟨_, _, _, rfl, h4, fun h => h5 _ h le_rfl, fun _ => ?_⟩
        rw [BitVec.toNat_ofNat, Nat.mod_eq_of_lt (by omega)]; exact h2

/-! ## A rule does not depend on DONE or BUSY (R94) -/

/-- The same end, with the completion's DONE and BUSY already in the state. -/
def CmdResult.finished : CmdResult → CmdResult
  | .done s => .done s.finish
  | .raised s e => .raised s.finish e

theorem complete_finished (r : CmdResult) : complete r.finished = complete r := by cases r <;> rfl

theorem hbuildRule_finish (s : State) : hbuildRule s.finish = (hbuildRule s).finished := by
  rw [hbuildRule_eq, hbuildRule_eq]
  by_cases h : present s.freq = []
  · rw [if_pos h, if_pos (by exact h)]; rfl
  · rw [if_neg h, if_neg (by exact h)]; rfl

theorem hassignRule_finish (s : State) : hassignRule s.finish = (hassignRule s).finished := by
  by_cases h : s.status.treeValid = false
  · rw [hassignRule, if_pos (by exact h), hassignRule, if_pos h]; rfl
  · rw [hassignRule, if_neg (by exact h), hassignRule, if_neg h]; rfl

theorem hemitRule_finish (s : State) : hemitRule s.finish = (hemitRule s).finished := by
  by_cases h1 : s.params.bufMax < s.inLen.toNat
  · rw [hemitRule, if_pos (by exact h1), hemitRule, if_pos h1]; rfl
  · by_cases h2 : s.status.codesValid = false
    · rw [hemitRule, if_neg (by exact h1), if_pos (by exact h2), hemitRule, if_neg h1, if_pos h2]; rfl
    · by_cases h3 : s.inLen = 0
      · rw [hemitRule, if_neg (by exact h1), if_neg (by exact h2), if_pos (by exact h3), hemitRule, if_neg h1, if_neg h2,
          if_pos h3]; rfl
      · have a := hemitRule_run (s := s) (by omega) (by simpa using h2) h3 rfl
        have b := hemitRule_run (s := s.finish) (r := emitLoop s.params.bitMax s.code s.inMem s.inLen.toNat 0 0 s.bitMem
          s.draws) (by simp only [State.finish]; omega) (by simpa [State.finish] using h2) (by exact h3) rfl
        rw [a, b]
        split <;> rfl

theorem hpackRule_finish (s : State) : hpackRule s.finish = (hpackRule s).finished := by
  by_cases h : s.params.bitMax < s.bitLen.toNat
  · rw [hpackRule, if_pos (by exact h), hpackRule, if_pos h]; rfl
  · rw [hpackRule, if_neg (by exact h), hpackRule, if_neg h]; rfl

theorem hwalkRule_finish (s : State) : hwalkRule s.finish = (hwalkRule s).finished := by
  by_cases h1 : s.params.bitMax < s.bitLen.toNat
  · rw [hwalkRule, if_pos (by exact h1), hwalkRule, if_pos h1]; rfl
  · by_cases h2 : s.params.bufMax < s.symCount.toNat
    · rw [hwalkRule, if_neg (by exact h1), if_pos (by exact h2), hwalkRule, if_neg h1, if_pos h2]; rfl
    · by_cases h3 : s.symCount ≠ 0 ∧ s.status.treeValid = false
      · rw [hwalkRule, if_neg (by exact h1), if_neg (by exact h2), if_pos (by exact h3), hwalkRule, if_neg h1, if_neg h2,
          if_pos h3]; rfl
      · rw [hwalkRule, if_neg (by exact h1), if_neg (by exact h2), if_neg (by exact h3), hwalkRule, if_neg h1, if_neg h2,
          if_neg h3]
        have e : walkThenCheck s.finish = walkThenCheck s := rfl
        simp only [e]
        split <;> rfl

/-! ## Composites (R77, R78) -/

/-- What every stage keeps, a composite keeps. -/
theorem andThen_keeps {P : State → Prop} {r : CmdResult} {f : State → CmdResult} (hr : P r.state)
    (hf : ∀ s, P s → P (f s).state) : P (r.andThen f).state := by
  cases r with
  | done s => exact hf s hr
  | raised s e => exact hr

theorem andThen_assoc (r : CmdResult) (f g : State → CmdResult) :
    (r.andThen f).andThen g = r.andThen (fun s => (f s).andThen g) := by
  cases r <;> rfl

/-- HENCODE can change what its stages can. -/
theorem hencodeRule_keeps {P : State → Prop} {s : State} (h : P s) (h1 : ∀ s, P s → P (hfreqRule s).state)
    (h2 : ∀ s, P s → P (hbuildRule s).state) (h3 : ∀ s, P s → P (hassignRule s).state)
    (h4 : ∀ s, P s → P (hemitRule s).state) (h5 : ∀ s, P s → P (hpackRule s).state) : P (hencodeRule s).state :=
  andThen_keeps (andThen_keeps (andThen_keeps (andThen_keeps (h1 s h) h2) h3) h4) h5

/-- HDECODE can change what its stages can. -/
theorem hdecodeRule_keeps {P : State → Prop} {s : State} (h : P s) (h1 : ∀ s, P s → P (hunpackRule s).state)
    (h2 : ∀ s, P s → P (hwalkRule s).state) : P (hdecodeRule s).state :=
  andThen_keeps (h1 s h) h2

/-! ## The rule of a command -/

/-- The rule of each command. -/
def rule : Instr → State → CmdResult
  | .nop => nopRule
  | .clear => clearRule
  | .hfreq => hfreqRule
  | .hbuild => hbuildRule
  | .hassign => hassignRule
  | .hemit => hemitRule
  | .hpack => hpackRule
  | .hunpack => hunpackRule
  | .hwalk => hwalkRule
  | .hencode => hencodeRule
  | .hdecode => hdecodeRule
  | .lzmatch => lzmatchRule
  | .lzencode => lzencodeRule
  | .lzdecode => lzdecodeRule

/-- The meaning of a command is its rule and completion (R94). -/
theorem exec_eq (i : Instr) (s : State) : exec i s = .next (complete (rule i s)) := by cases i <;> rfl

end Sys2Proof.Machine
end

