-- ==== Sys2Proof/Laws/PerInstr.lean ====
section
/-! SUPPORT. Families of statements about every command, one lemma per constructor. -/

namespace Sys2Proof.Laws.WordWellFormed

/-- The command's word is legal by R59's own list. -/
def Statement (i : Instr) : Prop := (Cmd32.ofWord (encode i)).wf = true

theorem nop : Statement .nop := rfl
theorem clear : Statement .clear := rfl
theorem hfreq : Statement .hfreq := rfl
theorem hbuild : Statement .hbuild := rfl
theorem hassign : Statement .hassign := rfl
theorem hemit : Statement .hemit := rfl
theorem hpack : Statement .hpack := rfl
theorem hunpack : Statement .hunpack := rfl
theorem hwalk : Statement .hwalk := rfl
theorem hencode : Statement .hencode := rfl
theorem hdecode : Statement .hdecode := rfl
theorem lzmatch : Statement .lzmatch := rfl
theorem lzencode : Statement .lzencode := rfl
theorem lzdecode : Statement .lzdecode := rfl

end Sys2Proof.Laws.WordWellFormed
end

