-- ==== Sys2Proof/Machine/Script.lean ====
section
/-! DEFINITION. The host-script notation (30_encoding.md R64, R65): each line of a script as the events it stands for.
Nothing in the block depends on it; a script is one way to write `State.pending`. -/

namespace Sys2Proof.Machine

/-- A `<target>` (R64). -/
inductive ScriptTarget where
  | reg (r : Reg)
  | freq (sym : Byte)
  | node (i : BitVec 9) (k : Nat)
  | code (sym : Byte) (k : Nat)
  | inMem (j : Nat)
  | outMem (j : Nat)
  | tokMem (j : Nat)
  | bitMem (j : Nat)
  | raw (off : Nat)
  deriving DecidableEq, Repr

/-- The offset from BASE a target names (R64, R14, R46). -/
def ScriptTarget.offset : ScriptTarget → Nat
  | .reg r => r.offset
  | .freq sym => 0x1000 + 4 * sym.toNat
  | .node i k => 0x2000 + 16 * i.toNat + k
  | .code sym k => 0x4000 + 64 * sym.toNat + k
  | .inMem j => 0x01000000 + j
  | .outMem j => 0x02000000 + j
  | .tokMem j => 0x04000000 + j
  | .bitMem j => 0x08000000 + j
  | .raw off => off

/-- The bus address of a target of the instance. -/
def ScriptTarget.address (p : Params) (t : ScriptTarget) : Word := BitVec.ofNat 32 (p.base + t.offset)

/-- A line of a script (R64), the pseudo-instructions of R65 among them. -/
inductive ScriptLine where
  /-- `WR <target>, <data32>, strb=<4 bits>` -/
  | wr (t : ScriptTarget) (data : Word) (strb : BitVec 4)
  /-- `RD <target>` -/
  | rd (t : ScriptTarget)
  /-- `CMD <MNEMONIC>` -/
  | cmd (i : Instr)
  /-- `WAIT`: the host reads STATUS `polls` times while the block is BUSY and once after completion; how often
  depends on the command's unspecified latency (R116) -/
  | wait (polls : Nat)
  /-- `LOADB <target>, b0 b1 ...` -/
  | loadb (t : ScriptTarget) (bytes : List Byte)
  /-- `LOADBITS BITMEM+j, "<0/1 string>"` -/
  | loadbits (j : Nat) (bits : List Bool)
  deriving DecidableEq, Repr

/-- The byte of LOADB at offset `a`, when the bytes `bs` start at offset `start`. -/
def loadedAt (start : Nat) (bs : List Byte) (a : Nat) : Option Byte := if a < start then none else bs[a - start]?

/-- The data of the word at offset `w`: each listed byte in its lane, 0 in the lanes not enabled (R65). -/
def loadData (start : Nat) (bs : List Byte) (w : Nat) : Word :=
  let l (i : Nat) : Byte := (loadedAt start bs (w + i)).getD 0
  ofLanes (l 0) (l 1) (l 2) (l 3)

/-- The strobe of the word at offset `w`: exactly the lanes of the bytes listed (R65). -/
def loadStrobe (start : Nat) (bs : List Byte) (w : Nat) : BitVec 4 :=
  let e (i : Nat) : BitVec 1 := BitVec.ofBool (loadedAt start bs (w + i)).isSome
  e 3 ++ e 2 ++ e 1 ++ e 0

/-- The transactions of LOADB at offset `start`: one write for each aligned word touched, in order (R65). -/
def loadEvents (p : Params) (start : Nat) (bs : List Byte) : List Event :=
  (List.range ((start + bs.length + 3) / 4 - start / 4)).map fun k =>
    let w := 4 * (start / 4 + k)
    .write (ScriptTarget.address p (.raw w)) (loadData start bs w) (loadStrobe start bs w)

/-- The events a line stands for (R64, R65). -/
def ScriptLine.events (p : Params) : ScriptLine → List Event
  | .wr t data strb => [.write (t.address p) data strb]
  | .rd t => [.read (t.address p)]
  | .cmd i => [.write (ScriptTarget.address p (.reg .cmd)) (encode i) 0b1111]
  | .wait polls =>
    let status : Event := .read (ScriptTarget.address p (.reg .status))
    List.replicate polls status ++ [.coreTurn, status]
  | .loadb t bs => loadEvents p t.offset bs
  | .loadbits j bits =>
    loadEvents p (ScriptTarget.bitMem j).offset (bits.map (fun b => 0#7 ++ BitVec.ofBool b))

/-- The events of a script, line after line. -/
def scriptEvents (p : Params) (ls : List ScriptLine) : List Event := ls.flatMap (ScriptLine.events p)

end Sys2Proof.Machine
end

