-- ==== Sys2Proof/Tests/Slice0.lean ====
section
/-! SUPPORT. Tests with expected results from spec/ (the vectors of 95_test_vectors.md, the table of
30_encoding.md R58), and for each statement of the provers that has hypotheses a witness that meets them. -/

namespace Sys2Proof.Tests

set_option Elab.async false

open Sys2Proof Sys2Proof.Machine

/-! ## Helpers -/

/-- A memory whose first elements are the given values. -/
def mem {α : Type} (vs : List α) : Memory α := vs.zipIdx.map (fun p => (p.2, p.1))

/-- The instance with BUF_MAX = n + 1. -/
def bufMax (n : Fin (2 ^ 24)) : Params := { baseIndex := 0, bufMaxPred := n }

/-- The reset state with an input in IN_MEM. -/
def withInput (inp : List Byte) : State :=
  { State.reset with inMem := mem inp, inLen := BitVec.ofNat 32 inp.length }

/-- The reset state with tokens, as record words, in TOKMEM (R62). -/
def withTokens (ts : List Word) : State :=
  { State.reset with
    tokMem := mem (ts.flatMap (fun w => [lane w 0, lane w 1, lane w 2, lane w 3]))
    tokBytes := BitVec.ofNat 32 (4 * ts.length) }

/-- A frequency table. -/
def counts (fs : List (Nat × Nat)) : Vector Word 256 :=
  fs.foldl (fun f p => f.setIfInBounds p.1 (BitVec.ofNat 32 p.2)) noCounts

/-- A code table. -/
def codes (cs : List (Nat × List Bool)) : Vector (List Bool) 256 :=
  cs.foldl (fun c p => c.setIfInBounds p.1 p.2) noCodes

/-- The arena of "aab" (§2.1): 0:a/2 1:b/1 2:(1,0)/3. -/
def aabNodes : Vector Node 511 := arenaOf [.leaf 0x61 2, .leaf 0x62 1, .internal 3 1 0]

/-- The arena of "aaaa" (§2.1): 0:a/4. -/
def aaaaNodes : Vector Node 511 := arenaOf [.leaf 0x61 4]

/-- A state with its status changed to hold a tree and perhaps its codes. -/
def tree (s : State) (ns : Vector Node 511) (count : Nat) (codesValid : Bool) : State :=
  { s with
    node := ns, nodeCount := BitVec.ofNat 10 count, root := BitVec.ofNat 9 (count - 1)
    status := { s.status with treeValid := true, codesValid := codesValid } }

/-- A state with bits in BITMEM and the operands of HWALK. -/
def walk (s : State) (bits : List Bool) (symCount : Nat) : State :=
  { s with
    bitMem := mem bits, bitLen := BitVec.ofNat 32 bits.length, symCount := BitVec.ofNat 32 symCount }

/-- The state after one step that runs the command word `w`, placed as the host places it. -/
def ran (w : Nat) (s : State) : Option State :=
  match step (s.withFetchWord 32 w) with
  | .next t => some t
  | .fault _ => none
  | .refused _ => none

/-- What `f` reads of the state after one step that runs `w`. -/
def after {α : Type} (w : Nat) (s : State) (f : State → α) : Option α := (ran w s).map f

/-- What `f` reads of the state after one host transaction. -/
def served {α : Type} (e : Event) (s : State) (f : State → α) : Option α :=
  match step { s with pending := [e] } with
  | .next t => some (f t)
  | .fault _ => none
  | .refused _ => none

/-- STATUS and ERRINFO. -/
def ending (s : State) : Word × Word := (s.statusWord, s.errInfo)

/-! ## Words written out from the opcode table (R58) -/

theorem test_decode_control :
    decodeTableWord 32 0b00000000000000000000000000000000 = some .nop ∧
    decodeTableWord 32 0b00000000000000000000000000000001 = some .clear := by decide

theorem test_decode_huffman_tree :
    decodeTableWord 32 0b00000000000000000000000000010000 = some .hfreq ∧
    decodeTableWord 32 0b00000000000000000000000000010001 = some .hbuild ∧
    decodeTableWord 32 0b00000000000000000000000000010010 = some .hassign := by decide

theorem test_decode_huffman_bits :
    decodeTableWord 32 0b00000000000000000000000000010011 = some .hemit ∧
    decodeTableWord 32 0b00000000000000000000000000010100 = some .hpack ∧
    decodeTableWord 32 0b00000000000000000000000000010101 = some .hunpack ∧
    decodeTableWord 32 0b00000000000000000000000000010110 = some .hwalk ∧
    decodeTableWord 32 0b00000000000000000000000000011000 = some .hencode ∧
    decodeTableWord 32 0b00000000000000000000000000011001 = some .hdecode := by decide

theorem test_decode_lz77 :
    decodeTableWord 32 0b00000000000000000000000000100000 = some .lzmatch ∧
    decodeTableWord 32 0b00000000000000000000000000100001 = some .lzencode ∧
    decodeTableWord 32 0b00000000000000000000000000100010 = some .lzdecode := by decide

/-- The ends of every illegal range of R59, and RSVD bits (95_test_vectors.md §2.5). -/
theorem test_decode_refuses :
    [0x02, 0x0F, 0x17, 0x1A, 0x1F, 0x23, 0xFF, 0x100, 0x110, 0x80000018, 0xFFFFFFFF].all
      (fun w => (decodeTableWord 32 w).isNone) = true := by decide

/-! ## Ill-formed words (R59), one for each check of WellFormed -/

theorem test_wellFormed_refuses_rsvd :
    (Cmd32.mk 1 0x10).rsvdZero = false ∧ (Cmd32.mk 1 0x10).wf = false := by decide

theorem test_wellFormed_refuses_opcode :
    (Cmd32.mk 0 0x17).opcodeInMap = false ∧ (Cmd32.mk 0 0x17).wf = false ∧
    (Cmd32.mk 0 0x02).wf = false ∧ (Cmd32.mk 0 0x1F).wf = false ∧ (Cmd32.mk 0 0xFF).wf = false := by decide

theorem test_wellFormed_accepts : (Cmd32.mk 0 0x18).wf = true ∧ (Cmd32.mk 0 0x22).wf = true := by decide

/-! ## Commands, one step each (95_test_vectors.md §2) -/

/-- §2.5: from the reset state. -/
theorem test_nop : after 0x00 State.reset ending = some (0x02, 0) := by decide +kernel

/-- §2.5: after a tree and codes, and an earlier error whose code and information acceptance clears. -/
theorem test_nop_keeps_tables :
    after 0x00
      { tree State.reset aabNodes 3 true with
        errInfo := 7, status := { tree State.reset aabNodes 3 true |>.status with err := true, errCode := .parameter } }
      ending = some (0x32, 0) := by decide +kernel

/-- §2.5: STATUS 0x02, the lengths 0, WINDOW kept. -/
theorem test_clear :
    after 0x01 { tree (withInput [0x61]) aabNodes 3 true with window := 8, freq := counts [(0x61, 2)] }
      (fun t => (ending t, t.inLen, t.window, t.nodeCount, freqAt t.freq 0x61)) =
    some ((0x02, 0), 0, 8, 0, 0) := by decide +kernel

/-- §2.1: "aab". -/
theorem test_hfreq :
    after 0x10 { withInput [0x61, 0x61, 0x62] with freq := counts [(0x63, 9)] }
      (fun t => (ending t, freqAt t.freq 0x61, freqAt t.freq 0x62, freqAt t.freq 0x63)) =
    some ((0x02, 0), 2, 1, 0) := by decide +kernel

/-- §2.1: IN_LEN = 0. -/
theorem test_hfreq_empty : after 0x10 State.reset ending = some (0x106, 0) := by decide +kernel

/-- §2.1: "aabbc", where a leaf waits before a merged node of equal frequency and the first pop goes left. -/
theorem test_hbuild :
    after 0x11 { State.reset with freq := counts [(0x61, 2), (0x62, 2), (0x63, 1)] }
      (fun t => (ending t, t.nodeCount, t.root, [0, 1, 2, 3, 4, 5].map (nodeN t.node))) =
    some ((0x12, 0), 5, 4,
      [.leaf 0x61 2, .leaf 0x62 2, .leaf 0x63 1, .internal 3 2 0, .internal 5 1 3, .leaf 0 0]) := by
  decide +kernel

/-- §2.1: all 256 counts 0. -/
theorem test_hbuild_empty : after 0x11 State.reset ending = some (0x106, 0) := by decide +kernel

/-- §2.1: "aab" and "aaaa". -/
theorem test_hassign :
    after 0x12 (tree State.reset aabNodes 3 false)
      (fun t => (ending t, codeAt t.code 0x61, codeAt t.code 0x62, codeAt t.code 0x63)) =
      some ((0x32, 0), [true], [false], []) ∧
    after 0x12 (tree State.reset aaaaNodes 1 false) (fun t => codeAt t.code 0x61) = some [false] := by
  decide +kernel

/-- §2.5: no tree. -/
theorem test_hassign_no_tree : after 0x12 State.reset ending = some (0xA06, 1) := by decide +kernel

/-- §2.2: "aab" gives 110. -/
theorem test_hemit :
    after 0x13
      { tree (withInput [0x61, 0x61, 0x62]) aabNodes 3 true with
        code := codes [(0x61, [true]), (0x62, [false])] }
      (fun t => (ending t, t.bitLen, t.bitMem)) = some ((0x32, 0), 3, mem [true, true, false]) := by
  decide +kernel

/-- §2.2: a byte with no code, after one with a code; then a code that does not fit (BUF_MAX = 1). -/
theorem test_hemit_errors :
    after 0x13
      { tree (withInput [0x61, 0x7A]) aabNodes 3 true with
        code := codes [(0x61, [true])], bitLen := 5 }
      (fun t => (ending t, t.bitLen, t.bitMem)) = some ((0x436, 1), 0, mem [true]) ∧
    after 0x13
      { tree (withInput [0x30]) aabNodes 3 true with
        params := bufMax 0
        code := codes [(0x30, [true, true, true, true, true, true, true, true, false])] }
      (fun t => (ending t, t.bitLen)) = some ((0xB36, 0), 0) := by decide +kernel

/-- §2.2: 110 packs to C0; nine bits pack to two bytes. -/
theorem test_hpack :
    after 0x14 (walk State.reset [true, true, false] 0) (fun t => (t.outLen, t.outMem)) =
      some (1, mem [0xC0]) ∧
    after 0x14 (walk State.reset [false, true, true, false, true, true, true, false, true] 0)
      (fun t => (t.outLen, t.outMem)) = some (2, mem [0x6E, 0x80]) := by decide +kernel

/-- R75's order on 6E, which §2.2 packs from 01101110. -/
theorem test_hunpack :
    after 0x15 (withInput [0x6E]) (fun t => (ending t, t.bitLen, t.bitMem)) =
    some ((0x02, 0), 8, mem [false, true, true, false, true, true, true, false]) := by decide +kernel

/-- §2.2, HWALK with the tree of "aab": 11000000 and 3. -/
theorem test_hwalk :
    after 0x16 (walk (tree State.reset aabNodes 3 true) [true, true, false, false, false, false, false, false] 3)
      (fun t => (ending t, t.outLen, t.outMem)) = some ((0x32, 0), 3, mem [0x61, 0x61, 0x62]) := by
  decide +kernel

/-- §2.2: a 1 remains (11010000 and 3); the bits run out (1 and 2); TREE_MISMATCH (0010 under "aaaa"). -/
theorem test_hwalk_errors :
    after 0x16 (walk (tree State.reset aabNodes 3 true) [true, true, false, true, false, false, false, false] 3)
      (fun t => (ending t, t.outLen)) = some ((0x236, 3), 0) ∧
    after 0x16 (walk (tree State.reset aabNodes 3 true) [true] 2)
      (fun t => (ending t, t.outLen, t.outMem)) = some ((0x236, 1), 0, mem [0x61]) ∧
    after 0x16 (walk (tree State.reset aaaaNodes 1 true) [false, false, true, false] 4)
      (fun t => (ending t, t.outLen, t.outMem)) = some ((0x436, 2), 0, mem [0x61, 0x61]) := by decide +kernel

/-- §2.1 to §2.3: "aab". -/
theorem test_hencode :
    after 0x18 (withInput [0x61, 0x61, 0x62])
      (fun t => (ending t, t.outLen, t.outMem, t.bitLen)) =
    some ((0x32, 0), 1, mem [0xC0], 3) := by decide +kernel

/-- §2.3: IN_LEN = 0. -/
theorem test_hencode_empty : after 0x18 State.reset ending = some (0x106, 0) := by decide +kernel

/-- §2.3's form on §2.2's "aab": C0 and SYM_COUNT = 3. -/
theorem test_hdecode :
    after 0x19 { tree (withInput [0xC0]) aabNodes 3 true with symCount := 3 }
      (fun t => (ending t, t.outLen, t.outMem, t.bitLen)) =
    some ((0x32, 0), 3, mem [0x61, 0x61, 0x62], 8) := by decide +kernel

/-- W4: an empty stream, SYM_COUNT = 3 and no tree. -/
theorem test_hdecode_no_tree :
    after 0x19 { State.reset with symCount := 3 } ending = some (0xA06, 1) := by decide +kernel

/-- §2.4: the fourth step over "aXaYaZ", W = 8, where the earlier of two matches of length 1 wins. -/
theorem test_lzmatch :
    after 0x20 { withInput [0x61, 0x58, 0x61, 0x59, 0x61, 0x5A] with window := 8, cursor := 4 }
      (fun t => (ending t, t.token.word, t.cursor)) = some ((0x02, 0), 0x5A010004, 6) := by decide +kernel

/-- §2.4: the fifth step. -/
theorem test_lzmatch_past_end :
    after 0x20 { withInput [0x61, 0x58, 0x61, 0x59, 0x61, 0x5A] with window := 8, cursor := 6 }
      (fun t => (ending t, t.cursor)) = some ((0x906, 0x024), 6) := by decide +kernel

/-- W2: "abab", W = 4. -/
theorem test_lzencode :
    after 0x21 { withInput [0x61, 0x62, 0x61, 0x62] with window := 4 }
      (fun t => (ending t, t.tokBytes, t.cursor, t.tokMem)) =
    some ((0x02, 0), 12, 4,
      mem [0x00, 0x00, 0x00, 0x61, 0x00, 0x00, 0x00, 0x62, 0x02, 0x00, 0x01, 0x62]) := by decide +kernel

/-- §2.4: "abcabcabc", W = 8: an overlapping match. -/
theorem test_lzencode_overlap :
    after 0x21 { withInput [0x61, 0x62, 0x63, 0x61, 0x62, 0x63, 0x61, 0x62, 0x63] with window := 8 }
      (fun t => (t.tokBytes, t.token.word)) = some (16, 0x63050003) := by decide +kernel

/-- §2.4: (0,0,a) (1,4,b) with BUF_MAX = 6. -/
theorem test_lzdecode :
    after 0x22 { withTokens [0x61000000, 0x62040001] with params := bufMax 5 }
      (fun t => (ending t, t.outLen, t.outMem)) =
    some ((0x02, 0), 6, mem [0x61, 0x61, 0x61, 0x61, 0x61, 0x62]) := by decide +kernel

/-- §2.4: (0,0,a) (2,1,b); (0,0,a) (1,5,b) with BUF_MAX = 6; TOK_BYTES = 6. -/
theorem test_lzdecode_errors :
    after 0x22 (withTokens [0x61000000, 0x62010002]) (fun t => (ending t, t.outLen, t.outMem)) =
      some ((0x306, 1), 0, mem [0x61]) ∧
    after 0x22 { withTokens [0x61000000, 0x62050001] with params := bufMax 5 } ending = some (0xB06, 1) ∧
    after 0x22 { State.reset with tokBytes := 6 } ending = some (0x206, 6) := by decide +kernel

/-- §2.5. -/
theorem test_illegal_words :
    after 0x17 State.reset ending = some (0x806, 0x17) ∧
    after 0xFFFFFFFF State.reset ending = some (0x806, 0xFFFFFFFF) := by decide +kernel

/-! ## The host port (95_test_vectors.md §2.6) -/

theorem test_reads_after_reset :
    served (.read 0x000) State.reset State.response = some (some (.read 0x485A4301 .okay)) ∧
    served (.read 0x002) State.reset State.response = some (some (.read 0 .error)) ∧
    served (.read 0x03C) State.reset State.response = some (some (.read 0 .error)) ∧
    served (.read 0x1400) State.reset State.response = some (some (.read 0 .error)) ∧
    served (.read 0x3FF0) State.reset State.response = some (some (.read 0 .error)) := by decide +kernel

/-- The write of §2.5 with strb = 0b0001 issues 0x18; a zero strobe issues nothing (§2.6). -/
theorem test_issue_by_lanes :
    served (.write 0x00C 0xFFFFFF18 0b0001) State.reset State.inflight = some (some 0x18) ∧
    served (.write 0x00C 0x18 0b0000) State.reset State.inflight = some none := by decide +kernel

/-- P6 (a): a write while BUSY is dropped and sets OVR; P4: a STATUS write clears DONE and ERR and keeps
ERRCODE. -/
theorem test_status :
    served (.write 0x010 5 0b1111) { State.reset with inflight := some 0x18 }
      (fun t => (t.statusWord, t.inLen)) = some (0x09, 0) ∧
    served (.write 0x008 0x6 0b1111)
      { State.reset with
        status := { Status.cleared with done := true, err := true, errCode := .illegalCommand } }
      State.statusWord = some 0x800 := by decide +kernel

/-- §2.1's host view of "aab": NODE[2] and CODE (R31, R32; P3's rows 8-10). -/
theorem test_views :
    served (.read 0x2020) (tree State.reset aabNodes 3 false) State.response = some (some (.read 3 .okay)) ∧
    served (.read 0x2028) (tree State.reset aabNodes 3 false) State.response = some (some (.read 1 .okay)) ∧
    served (.read 0x201C) (tree State.reset aabNodes 3 false) State.response =
      some (some (.read 0x6200 .okay)) ∧
    served (.read 0x58A0) { State.reset with code := codes [(0x62, [true, true, false])] } State.response =
      some (some (.read 0xC0 .okay)) := by decide +kernel

/-! ## The host-script notation (R64, R65) -/

/-- P1 rows 1, 3 and 8, P3 row 18, and a LOADB that starts inside a word, from R65's own words. -/
theorem test_script :
    scriptEvents Params.suggested
      [.loadb (.inMem 0) [0x61, 0x62, 0x72, 0x61, 0x63, 0x61, 0x64, 0x61, 0x62, 0x72, 0x61], .cmd .hencode,
        .rd (.code 0x62 0x20), .loadbits 0 [true, true, false]] =
    [.write 0x01000000 0x61726261 0b1111, .write 0x01000004 0x61646163 0b1111,
      .write 0x01000008 0x00617262 0b0111, .write 0x0000000C 0x18 0b1111, .read 0x000058A0,
      .write 0x08000000 0x00000101 0b0111] ∧
    scriptEvents Params.suggested [.loadb (.tokMem 3) [0x11, 0x22]] =
      [.write 0x04000000 0x11000000 0b1000, .write 0x04000004 0x00000022 0b0001] := by decide +kernel

/-! ## Witnesses: concrete states and operands that meet the hypotheses of each statement -/

/-- The reset state with one host transaction to serve. -/
def host (e : Event) : State := { State.reset with pending := [e] }

/-- The same with a command in flight. -/
def hostBusy (e : Event) : State := { host e with inflight := some 0x18 }

theorem host_serves (e : Event) : (host e).serves e [] := ⟨rfl, rfl⟩

theorem hostBusy_serves (e : Event) : (hostBusy e).serves e [] := ⟨rfl, rfl⟩

/-- Address `off` at BASE = 0. -/
abbrev at_ (off : Nat) : Word := BitVec.ofNat 32 off

/-- The hypotheses common to the statements about reads while not BUSY. -/
def ReadsAt (s : State) (addr : Word) (rest : List Event) (off : Nat) : Prop :=
  s.busy = false ∧ addr.toNat = s.params.base + off ∧ s.serves (.read addr) rest

/-- The hypotheses common to the statements about writes while not BUSY. -/
def WritesAt (s : State) (addr data : Word) (strb : BitVec 4) (rest : List Event) (off : Nat) : Prop :=
  s.busy = false ∧ strb ≠ 0 ∧ addr.toNat = s.params.base + off ∧ s.serves (.write addr data strb) rest

theorem base_suggested (off : Nat) : Params.suggested.base + off = off := by
  rw [show Params.suggested.base = 0 from by decide, Nat.zero_add]

theorem readsAt {off : Nat} (h : (at_ off).toNat = off) : ReadsAt (host (.read (at_ off))) (at_ off) [] off :=
  ⟨rfl, h.trans (base_suggested off).symm, rfl, rfl⟩

theorem writesAt {off : Nat} (h : (at_ off).toNat = off) :
    WritesAt (host (.write (at_ off) 0x01020304 0b0101)) (at_ off) 0x01020304 0b0101 [] off :=
  ⟨rfl, by decide, h.trans (base_suggested off).symm, rfl, rfl⟩

/-- The decoder refuses the word. -/
def illegal (w : Word) : Bool :=
  match decode w with
  | .command _ => false
  | .illegal _ _ => true

theorem witness_IllegalWordsCompleteWithTheWordInErrinfo :
    (∀ w ∈ [0x02, 0x0F, 0x17, 0x1A, 0x1F, 0x23, 0xFF, 0x100, 0xFFFFFFFF], ¬ ∃ i, decode w = .command i) ∧
    (host (.write 0xC 0x17 15)).busy = false ∧
    (0xC : Word).toNat = (host (.write 0xC 0x17 15)).params.base + 0x00C ∧
    { host (.write 0xC 0x17 15) with pending := [.write 0xC 0x17 15, .coreTurn] }.serves (.write 0xC 0x17 0b1111)
      (.coreTurn :: []) := by
  refine ⟨?_, rfl, by decide, rfl, rfl⟩
  rintro w hw ⟨i, h⟩
  have : illegal w = true := List.all_eq_true.mp (by decide : [(0x02 : Word), 0x0F, 0x17, 0x1A, 0x1F, 0x23, 0xFF,
    0x100, 0xFFFFFFFF].all illegal = true) w hw
  rw [illegal, h] at this
  cases this

theorem witness_StepRunsTheDecodedCommand :
    ∃ s s' : State, s.rst = false ∧ s.inflight = some 0x10 ∧ decode 0x10 = .command .hfreq ∧ s.pending = [] ∧
      s'.rst = false ∧ s'.inflight = some 0x10 ∧ s'.pending = .coreTurn :: [] :=
  ⟨{ State.reset with inflight := some 0x10 }, { State.reset with inflight := some 0x10, pending := [.coreTurn] },
    rfl, rfl, by decide, rfl, rfl, rfl, rfl⟩

theorem witness_IdleCoreChangesNothing :
    ∃ s s' : State, s.busy = false ∧ s.pending = [] ∧ s'.busy = false ∧ s'.pending = .coreTurn :: [] :=
  ⟨State.reset, host .coreTurn, rfl, rfl, rfl, rfl⟩

theorem hostBusy_statusConsistent (e : Event) : StatusConsistent (hostBusy e) where
  busy _ := ⟨rfl, rfl, rfl, rfl⟩
  reset h := by cases h
  error h := by cases h
  info _ := rfl
  outLen := Nat.zero_le _

theorem witness_AcceptedCommandsComplete : ∃ s : State, StatusConsistent s ∧ s.busy = true ∧ s.pending ≠ [] :=
  ⟨hostBusy (.read 0), hostBusy_statusConsistent _, rfl, by simp [hostBusy, host]⟩

theorem witness_WriteToCmdIsAccepted :
    ∃ (s : State) (data : Word) (strb : BitVec 4) (rest : List Event), s.busy = false ∧ strb ≠ 0 ∧
      (0xC : Word).toNat = s.params.base + 0x00C ∧ s.serves (.write 0xC data strb) rest :=
  ⟨host (.write 0xC 0xFFFFFF18 1), 0xFFFFFF18, 1, [], rfl, by decide, by decide, rfl, rfl⟩

theorem witness_WriteToCmdIsAccepted_busy :
    ∃ (s : State) (data : Word) (strb : BitVec 4) (rest : List Event), s.busy = true ∧ strb ≠ 0 ∧
      (0xC : Word).toNat = s.params.base + 0x00C ∧ s.serves (.write 0xC data strb) rest :=
  ⟨hostBusy (.write 0xC 0x18 15), 0x18, 15, [], rfl, by decide, by decide, rfl, rfl⟩

/-- Mapped: the first and last words of the block, at BUF_MAX = 65536.  Unmapped or misaligned: 95_test_vectors.md
§2.6, and the first words past a memory. -/
theorem witness_ErrorResponseExactlyWhenMisalignedOrUnmapped :
    (∀ off ∈ [0x000, 0x038, 0x3FEC, 0x0100FFFC, 0x0807FFFC], AddressOf State.reset.params (at_ off) off) ∧
    (∀ a ∈ [0x002, 0x03C, 0x1400, 0x3FF0, 0x01010000, 0x08080000], ∀ off, ¬ AddressOf State.reset.params (at_ a) off) ∧
    (∀ addr, (host (.read addr)).serves (.read addr) []) ∧
    (∀ addr, (host (.write addr 1 15)).serves (.write addr 1 15) []) := by
  refine ⟨?_, ?_, fun _ => ⟨rfl, rfl⟩, fun _ => ⟨rfl, rfl⟩⟩
  · simp only [AddressOf, Mapped]; decide +kernel
  · intro a ha
    rw [← busTarget_eq_none]
    revert a; decide +kernel

theorem witness_ZeroStrobeWriteHasNoEffect :
    AddressOf (host (.write 0x10 5 0)).params 0x10 0x10 ∧ (host (.write 0x10 5 0)).serves (.write 0x10 5 0) [] :=
  ⟨by simp only [AddressOf, Mapped]; decide +kernel, rfl, rfl⟩

theorem witness_ReadsHaveNoSideEffect : ∃ (s : State) (rest : List Event), s.serves (.read 0x0100FFFC) rest :=
  ⟨_, _, host_serves _⟩

theorem witness_StrobesSelectByteLanes :
    (3 < 4) ∧ ∀ k, k < 4 → lane 0x01020304 k = lane (mergeLanes 0 0x01020304 15) k := by decide

theorem witness_WritesUpdateOperandRegistersByLane :
    ∀ off ∈ [0x004, 0x010, 0x018, 0x01C, 0x020, 0x024, 0x02C, 0x1000 + 4 * (0 : Byte).toNat,
        0x1000 + 4 * (255 : Byte).toNat],
      WritesAt (host (.write (at_ off) 0x01020304 0b0101)) (at_ off) 0x01020304 0b0101 [] off :=
  fun off h => writesAt (by revert off; decide)

theorem witness_WritesToReadOnlyStateChangeNothing :
    ∀ off ∈ [0x000, 0x014, 0x028, 0x030, 0x034, 0x038, 0x2000, 0x3FEC, 0x4000, 0x7FFC, 0x02000000, 0x0200FFFC],
      (host (.write (at_ off) 7 15)).busy = false ∧ AddressOf (host (.write (at_ off) 7 15)).params (at_ off) off ∧
      (host (.write (at_ off) 7 15)).serves (.write (at_ off) 7 15) [] ∧
      (off ∈ [0x000, 0x014, 0x028, 0x030, 0x034, 0x038] ∨ (0x2000 ≤ off ∧ off ≤ 0x7FFF) ∨
        (0x02000000 ≤ off ∧ off < 0x04000000)) := by
  intro off h
  refine ⟨rfl, ?_, host_serves _, ?_⟩
  · simp only [host, AddressOf, Mapped]; revert off; decide +kernel
  · revert off; decide

theorem witness_StatusWriteClearsTheBitsWrittenWithOne :
    ∃ (s : State) (rest : List Event), (0x8 : Word).toNat = s.params.base + 0x008 ∧ s.serves (.write 0x8 0xE 1) rest :=
  ⟨host _, [], by decide, rfl, rfl⟩

theorem witness_RegistersReadAsTheirValues :
    ∀ off ∈ [0x000, 0x004, 0x008, 0x00C, 0x010, 0x014, 0x018, 0x01C, 0x020, 0x024, 0x028, 0x02C, 0x030, 0x034, 0x038,
        0x1000 + 4 * (0 : Byte).toNat, 0x1000 + 4 * (255 : Byte).toNat],
      ReadsAt (host (.read (at_ off))) (at_ off) [] off :=
  fun off h => readsAt (by revert off; decide)

theorem witness_NodeEntriesReadAsLaidOut :
    ∀ i ∈ [0, 510], ∀ k ∈ [0, 1, 2, 3], i < 511 ∧ k < 4 ∧
      ReadsAt (host (.read (at_ (0x2000 + 16 * i + 4 * k)))) (at_ (0x2000 + 16 * i + 4 * k)) []
        (0x2000 + 16 * i + 4 * k) := by
  intro i hi k hk
  refine ⟨?_, ?_, readsAt ?_⟩
  · clear hk; revert i; decide
  · revert k; decide
  · revert k; revert i; decide

theorem witness_CodeEntriesReadAsLaidOut :
    ∀ sym ∈ [(0 : Byte), 255], ∀ k ∈ [0, 1, 7, 8, 15], k < 16 ∧ (codeAt State.reset.code sym).length ≤ 255 ∧
      ReadsAt (host (.read (at_ (0x4000 + 64 * sym.toNat + 4 * k)))) (at_ (0x4000 + 64 * sym.toNat + 4 * k)) []
        (0x4000 + 64 * sym.toNat + 4 * k) := by
  intro sym hs k hk
  refine ⟨?_, ?_, readsAt ?_⟩
  · revert k; decide
  · clear hk; revert sym; decide +kernel
  · revert k; revert sym; decide

/-- The first and last words of each memory, some bytes of them written. -/
theorem witness_MemoryWordsReadLittleEndian :
    (∀ p ∈ [(0x01000000, 0), (0x01000000, 0xFFFC), (0x02000000, 0), (0x02000000, 0xFFFC), (0x04000000, 0),
        (0x04000000, 0x3FFFC)], ReadsAt (host (.read (at_ (p.1 + p.2)))) (at_ (p.1 + p.2)) [] (p.1 + p.2) ∧
        p.2 % 4 = 0) ∧
    (0xFFFC < State.reset.params.bufMax ∧ 0x3FFFC < 4 * State.reset.params.tokMax) ∧
    (mem [(1 : Byte), 2, 3, 4]).get? (0 + 3) = some 4 ∧ ∀ k, k < 4 → (mem [(1 : Byte), 2, 3, 4]).get? (0 + k) ≠ none := by
  refine ⟨fun p h => ⟨readsAt ?_, ?_⟩, by decide, by decide, by decide⟩ <;> (revert p; decide)

theorem witness_BitMemoryReadsOneEntryALane :
    ∀ j ∈ [0, 0x7FFFC], j % 4 = 0 ∧ j < State.reset.params.bitMax ∧
      ReadsAt (host (.read (at_ (0x08000000 + j)))) (at_ (0x08000000 + j)) [] (0x08000000 + j) := by
  intro j h
  refine ⟨?_, ?_, readsAt ?_⟩ <;> (revert j; decide)

theorem witness_MemoryWritesStoreTheEnabledLanes :
    ∀ p ∈ [(0x01000000, 0), (0x01000000, 0xFFFC), (0x04000000, 0), (0x04000000, 0x3FFFC)],
      WritesAt (host (.write (at_ (p.1 + p.2)) 0x01020304 0b0101)) (at_ (p.1 + p.2)) 0x01020304 0b0101 [] (p.1 + p.2) ∧
      p.2 % 4 = 0 ∧ (p.1 = 0x01000000 → p.2 < State.reset.params.bufMax) ∧
      (p.1 = 0x04000000 → p.2 < 4 * State.reset.params.tokMax) := by
  intro p h
  refine ⟨writesAt ?_, ?_, ?_, ?_⟩ <;> (revert p; decide)

theorem witness_BitMemoryWritesStoreBitZeroOfEachLane :
    ∀ j ∈ [0, 0x7FFFC], j % 4 = 0 ∧ j < State.reset.params.bitMax ∧
      WritesAt (host (.write (at_ (0x08000000 + j)) 0x01020304 0b0101)) (at_ (0x08000000 + j)) 0x01020304 0b0101 []
        (0x08000000 + j) := by
  intro j h
  refine ⟨?_, ?_, writesAt ?_⟩ <;> (revert j; decide)

theorem witness_BusyWritesAreDroppedAndSetOvr :
    ∀ off ∈ [0x000, 0x004, 0x00C, 0x010, 0x02000000, 0x08000000],
      (hostBusy (.write (at_ off) 1 15)).busy = true ∧ (15 : BitVec 4) ≠ 0 ∧
      AddressOf (hostBusy (.write (at_ off) 1 15)).params (at_ off) off ∧
      (hostBusy (.write (at_ off) 1 15)).serves (.write (at_ off) 1 15) [] := by
  intro off h
  refine ⟨rfl, by decide, ?_, hostBusy_serves _⟩
  simp only [hostBusy, host, AddressOf, Mapped]; revert off; decide +kernel

theorem witness_BusyReadsReturnAFreeValue :
    ∀ off ∈ [0x00C, 0x010, 0x1000, 0x08000000],
      (hostBusy (.read (at_ off))).busy = true ∧ AddressOf (hostBusy (.read (at_ off))).params (at_ off) off ∧
      off ∉ [0x000, 0x004, 0x008] ∧ (hostBusy (.read (at_ off))).serves (.read (at_ off)) [] := by
  intro off h
  refine ⟨rfl, ?_, ?_, hostBusy_serves _⟩
  · simp only [hostBusy, host, AddressOf, Mapped]; revert off; decide +kernel
  · revert off; decide

theorem witness_StatusWhileBusyReportsNothing :
    ∃ (s : State) (rest : List Event), StatusConsistent s ∧ s.busy = true ∧ (0x8 : Word).toNat = s.params.base + 0x008 ∧
      s.serves (.read 0x8) rest :=
  ⟨hostBusy (.read 0x8), [], hostBusy_statusConsistent _, rfl, by decide, hostBusy_serves _⟩

theorem witness_HostCannotDisturbACommandInFlight :
    ∀ e ∈ [Event.read 0x10, .write 0x10 5 15], (hostBusy e).busy = true ∧ (hostBusy e).serves e [] ∧
      ((∃ addr, e = .read addr) ∨ ∃ addr data strb, e = .write addr data strb) := by
  intro e h
  refine ⟨rfl, hostBusy_serves _, ?_⟩
  simp only [List.mem_cons, List.not_mem_nil, or_false] at h
  rcases h with rfl | rfl
  · exact .inl ⟨_, rfl⟩
  · exact .inr ⟨_, _, _, rfl⟩

/-- OVR set, and cleared by a write to STATUS, and by reset. -/
theorem witness_OvrIsClearedOnlyByTheHostOrReset :
    ∀ e ∈ [Event.write 0x8 0x8 1, .assertReset], ∃ t,
      step { host e with status := { Status.cleared with ovr := true } } = .next t ∧ t.status.ovr = false := by
  intro e h
  simp only [List.mem_cons, List.not_mem_nil, or_false] at h
  rcases h with rfl | rfl
  · exact ⟨_, rfl, by decide +kernel⟩
  · exact ⟨_, rfl, rfl⟩

theorem witness_IrqFollowsDoneAndErrWhenEnabled :
    ∃ (s : State) (data : Word) (strb : BitVec 4), s.irq = true ∧ strb.getLsbD 0 = true ∧ data.getLsbD 1 = true ∧
      data.getLsbD 2 = true :=
  ⟨{ State.reset with irqEn := true, status := { Status.cleared with done := true } }, 6, 1, by decide, by decide,
    by decide, by decide⟩

theorem witness_IrqFollowsDoneAndErrWhenEnabled_mask :
    ∃ (s : State) (data : Word) (strb : BitVec 4), s.irq = true ∧ strb.getLsbD 0 = true ∧ data.getLsbD 0 = false :=
  ⟨{ State.reset with irqEn := true, status := { Status.cleared with done := true } }, 0, 1, by decide, by decide,
    by decide⟩

theorem witness_AssertingResetAbandonsTheCommand :
    ∃ (s : State) (rest : List Event), s.busy = true ∧ s.pending = .assertReset :: rest :=
  ⟨hostBusy .assertReset, [], rfl, rfl⟩

theorem witness_NothingIsAnsweredDuringReset :
    ∀ e ∈ [Event.read 0, .write 0x10 5 15, .coreTurn, .releaseReset],
      { host e with rst := true }.rst = true ∧ { host e with rst := true }.pending = e :: [] :=
  fun _ _ => ⟨rfl, rfl⟩

theorem witness_HfreqCountsTheInputBytes :
    (∃ s : State, s.params.bufMax < s.inLen.toNat) ∧ State.reset.inLen = 0 ∧
    (0 < (withInput [0x61, 0x62]).inLen.toNat ∧ (withInput [0x61, 0x62]).inLen.toNat ≤ (withInput [0x61, 0x62]).params.bufMax ∧
      [(0x61 : Byte), 0x62].length = (withInput [0x61, 0x62]).inLen.toNat ∧
      (withInput [0x61, 0x62]).inMem.Holds 0 [0x61, 0x62]) :=
  ⟨⟨{ State.reset with inLen := 65537 }, by decide⟩, rfl, by decide, by decide, by decide, by decide⟩

/-- The table of "aab". -/
def aabCounts : State := { State.reset with freq := counts [(0x61, 2), (0x62, 1)] }

theorem present_aab_length : (present aabCounts.freq).length = 2 := by
  rw [← leaves_length]; decide +kernel

theorem present_aab : present aabCounts.freq ≠ [] := fun h => by
  have := present_aab_length
  rw [h] at this
  cases this

theorem present_reset : present State.reset.freq = [] := by
  simp [present, State.reset, freqAt]

theorem witness_HbuildMergesTheTwoLeastNodes :
    present State.reset.freq = [] ∧ present aabCounts.freq ≠ [] ∧
    (let n := (present aabCounts.freq).length;
      0 < n ∧ (n ≤ 2 ∧ 2 < 2 * n - 1) ∧ (2 * n - 1 ≤ 3 ∧ 510 < 511)) := by
  refine ⟨present_reset, present_aab, ?_⟩
  rw [present_aab_length]; decide

/-- The block after HBUILD. -/
def built (s : State) : State := complete (hbuildRule s)

theorem witness_HbuildBuildsATreeOfItsTable :
    present aabCounts.freq ≠ [] ∧ exec .hbuild aabCounts = .next (built aabCounts) ∧
    LeadsToLeaf (built aabCounts).node (built aabCounts).root [true] 0x61 :=
  ⟨present_aab, rfl, 2, by decide +kernel⟩

/-- The block after HFREQ of "aab". -/
theorem witness_HbuildBuildsATreeOfItsTable_hfreq :
    let s := complete (hfreqRule (withInput [0x61, 0x61, 0x62]));
    exec .hfreq (withInput [0x61, 0x61, 0x62]) = .next s ∧ s.status.err = false ∧ present s.freq ≠ [] := by
  refine ⟨rfl, by decide +kernel, fun h => ?_⟩
  have h' := congrArg List.length h
  rw [← leaves_length] at h'
  revert h'
  decide +kernel

/-! The block with the two trees, and what holds of them. -/

theorem treeOf_aaaa : TreeOf aaaaNodes 1 where
  leaves := by decide
  leaf i h := by
    obtain rfl : i = 0 := by omega
    exact ⟨0x61, 4, by decide +kernel⟩
  distinct i j sym f g hi hj _ _ := by omega
  internal i h h' := by omega
  owned i h := by omega

theorem tables_aaaa (b : Bool) (hb : b = false) : TablesConsistent (tree State.reset aaaaNodes 1 b) where
  tree _ := ⟨1, treeOf_aaaa, rfl, rfl⟩
  noTree h := by cases h
  unused i h h' := by
    have h1 : 1 ≤ i := h
    show nodeN aaaaNodes i = Node.zero
    rw [aaaaNodes, nodeN_arenaOf _ (by decide) (by omega)]
    match i with
    | i + 1 => simp [nodeL]
  codes h := by subst hb; cases h

theorem node_aab : nodeN aabNodes 0 = .leaf 0x61 2 ∧ nodeN aabNodes 1 = .leaf 0x62 1 ∧
    nodeN aabNodes 2 = .internal 3 1 0 := by decide +kernel

theorem treeOf_aab : TreeOf aabNodes 2 where
  leaves := by decide
  leaf i h := by
    obtain rfl | rfl : i = 0 ∨ i = 1 := by omega
    · exact ⟨_, _, node_aab.1⟩
    · exact ⟨_, _, node_aab.2.1⟩
  distinct i j sym f g hi hj h h' := by
    obtain rfl | rfl : i = 0 ∨ i = 1 := by omega
    all_goals
      obtain rfl | rfl : j = 0 ∨ j = 1 := by omega
      all_goals first | rfl | (simp only [node_aab, Node.leaf.injEq] at h h'; have := h.1.trans h'.1.symm; revert this; decide)
  internal i h h' := by
    obtain rfl : i = 2 := by omega
    refine ⟨1, 0, ?_, by decide, by decide, by decide⟩
    rw [nodeAt_eq_nodeN, nodeAt_eq_nodeN]
    exact node_aab.2.2.trans (by rw [show (1 : BitVec 9).toNat = 1 from rfl, show (0 : BitVec 9).toNat = 0 from rfl,
      node_aab.1, node_aab.2.1]; rfl)
  owned i h := by
    refine ⟨2, ⟨by omega, by omega, ?_⟩, fun j' _ _ _ => by omega⟩
    rw [node_aab.2.2]
    obtain rfl | rfl : i = 0 ∨ i = 1 := by omega
    · exact .inr rfl
    · exact .inl rfl

theorem tables_aab : TablesConsistent (tree State.reset aabNodes 3 false) where
  tree _ := ⟨2, treeOf_aab, rfl, rfl⟩
  noTree h := by cases h
  unused i h h' := by
    have h1 : 3 ≤ i := h
    show nodeN aabNodes i = Node.zero
    rw [aabNodes, nodeN_arenaOf _ (by decide) (by omega)]
    match i with
    | i + 3 => simp [nodeL]
  codes h := by cases h

theorem witness_HassignGivesEachSymbolItsPath :
    State.reset.status.treeValid = false ∧
    (tree State.reset aabNodes 3 false).status.treeValid = true ∧ TablesConsistent (tree State.reset aabNodes 3 false) ∧
    (tree State.reset aaaaNodes 1 false).status.treeValid = true ∧
    TablesConsistent (tree State.reset aaaaNodes 1 false) :=
  ⟨rfl, rfl, tables_aab, rfl, tables_aaaa _ rfl⟩

theorem witness_CodesArePrefixFreeAndDeterministic :
    present aabCounts.freq ≠ [] ∧
    ∃ s' t' u', s' ≠ aabCounts ∧ s'.freq = aabCounts.freq ∧ exec .hbuild s' = .next t' ∧ exec .hassign t' = .next u' ∧
      codeAt u'.code 0x61 ≠ [] ∧ codeAt u'.code 0x62 ≠ [] ∧ (0x61 : Byte) ≠ 0x62 := by
  refine ⟨present_aab, { aabCounts with irqEn := true }, _, _,
    fun h => ?_, rfl, rfl, rfl, by decide +kernel, by decide +kernel, by decide⟩
  have := congrArg State.irqEn h
  cases this

/-- HEMIT's block: the tree and the codes of "aab", and an input. -/
def emits (p : Params) (inp : List Byte) (cs : List (Nat × List Bool)) : State :=
  { tree (withInput inp) aabNodes 3 true with params := p, code := codes cs }

theorem witness_HemitConcatenatesTheCodes :
    (∃ s : State, s.params.bufMax < s.inLen.toNat) ∧
    (State.reset.inLen.toNat ≤ State.reset.params.bufMax ∧ State.reset.status.codesValid = false) ∧
    ((emits Params.suggested [] []).status.codesValid = true ∧ (emits Params.suggested [] []).inLen = 0) ∧
    (let s := emits Params.suggested [0x61, 0x62] [(0x61, [true]), (0x62, [false])];
      0 < s.inLen.toNat ∧ s.inLen.toNat ≤ s.params.bufMax ∧ s.status.codesValid = true ∧
      [(0x61 : Byte), 0x62].length = s.inLen.toNat ∧ s.inMem.Holds 0 [0x61, 0x62] ∧
      (∀ b ∈ [(0x61 : Byte), 0x62], codeAt s.code b ≠ []) ∧
      ([(0x61 : Byte), 0x62].flatMap (codeAt s.code)).length ≤ s.params.bitMax) ∧
    (let s := emits Params.suggested [0x61, 0x62] [(0x61, [true])];
      0 < s.inLen.toNat ∧ s.inLen.toNat ≤ s.params.bufMax ∧ s.status.codesValid = true ∧
      s.inMem.Holds 0 ([0x61] ++ 0x62 :: []) ∧ (∀ x ∈ [(0x61 : Byte)], codeAt s.code x ≠ []) ∧
      ([(0x61 : Byte)].flatMap (codeAt s.code)).length ≤ s.params.bitMax ∧ codeAt s.code 0x62 = []) ∧
    (let s := emits (bufMax 1) [0x61, 0x62] [(0x61, List.replicate 16 true), (0x62, [false])];
      0 < s.inLen.toNat ∧ s.inLen.toNat ≤ s.params.bufMax ∧ s.status.codesValid = true ∧
      s.inMem.Holds 0 ([0x61] ++ 0x62 :: []) ∧ (∀ x ∈ [(0x61 : Byte)], codeAt s.code x ≠ []) ∧
      ([(0x61 : Byte)].flatMap (codeAt s.code)).length ≤ s.params.bitMax ∧ codeAt s.code 0x62 ≠ [] ∧
      s.params.bitMax < ([(0x61 : Byte)].flatMap (codeAt s.code)).length + (codeAt s.code 0x62).length) :=
  ⟨⟨{ State.reset with inLen := 65537 }, by decide⟩, by decide, by decide, by decide +kernel, by decide +kernel,
    by decide +kernel⟩

theorem witness_HpackPacksTheBits :
    (∃ s : State, s.params.bitMax < s.bitLen.toNat) ∧
    (let s := walk { State.reset with params := bufMax 0 } [true, true, false, true, false, true, true, true] 0;
      s.bitLen.toNat ≤ s.params.bitMax ∧ [true, true, false, true, false, true, true, true].length = s.bitLen.toNat ∧
      s.bitMem.Holds 0 [true, true, false, true, false, true, true, true]) :=
  ⟨⟨{ State.reset with bitLen := 524289 }, by decide⟩, by decide⟩

theorem witness_HunpackExpandsTheBytes :
    (∃ s : State, s.params.bufMax < s.inLen.toNat) ∧
    (let s := { withInput [0x6E] with params := bufMax 0 };
      s.inLen.toNat ≤ s.params.bufMax ∧ [(0x6E : Byte)].length = s.inLen.toNat ∧ s.inMem.Holds 0 [0x6E]) :=
  ⟨⟨{ State.reset with inLen := 65537 }, by decide⟩, by decide⟩

theorem code_a : IsCodeOf aabNodes 2 0x61 [true] := .inl ⟨⟨2, by decide +kernel⟩, by decide⟩

theorem code_b : IsCodeOf aabNodes 2 0x62 [false] := .inl ⟨⟨1, by decide +kernel⟩, by decide⟩

theorem code_aaaa : IsCodeOf aaaaNodes 0 0x61 [false] := .inr ⟨⟨4, by decide +kernel⟩, rfl⟩

theorem encodes_aab : EncodesTo aabNodes 2 [0x61, 0x61, 0x62] [true, true, false] :=
  ⟨[true], [true, false], rfl, code_a, [true], [false], rfl, code_a, [false], [], rfl, code_b, rfl⟩

theorem witness_HwalkDecodesTheSymbols :
    let s := walk (tree State.reset aabNodes 3 true) ([true, true, false] ++ List.replicate 7 false) 3;
    s.bitLen.toNat ≤ s.params.bitMax ∧ s.symCount.toNat ≤ s.params.bufMax ∧
    (s.symCount ≠ 0 → s.status.treeValid = true) ∧ [(0x61 : Byte), 0x61, 0x62].length = s.symCount.toNat ∧
    EncodesTo s.node s.root [0x61, 0x61, 0x62] [true, true, false] ∧
    s.bitLen.toNat = [true, true, false].length + (List.replicate 7 false).length ∧
    s.bitMem.Holds 0 ([true, true, false] ++ List.replicate 7 false) ∧ (List.replicate 7 false).length ≤ 7 ∧
    true ∉ List.replicate 7 false :=
  ⟨by decide, by decide, fun _ => rfl, by decide, encodes_aab, by decide, by decide, by decide, by decide⟩

/-- What HWALK's execution errors ask of the state. -/
def WalksTo (s : State) (syms : List Byte) (bits rest : List Bool) : Prop :=
  s.bitLen.toNat ≤ s.params.bitMax ∧ s.symCount.toNat ≤ s.params.bufMax ∧
  (s.symCount ≠ 0 → s.status.treeValid = true) ∧ EncodesTo s.node s.root syms bits ∧
  s.bitMem.Holds 0 (bits ++ rest) ∧ s.bitLen.toNat = bits.length + rest.length

theorem witness_HwalkErrorsKeepTheSymbolsSoFar :
    (∃ s : State, s.params.bitMax < s.bitLen.toNat) ∧
    (∃ s : State, s.bitLen.toNat ≤ s.params.bitMax ∧ s.params.bufMax < s.symCount.toNat) ∧
    (∃ s : State, s.bitLen.toNat ≤ s.params.bitMax ∧ s.symCount.toNat ≤ s.params.bufMax ∧ s.symCount ≠ 0 ∧
      s.status.treeValid = false) ∧
    (let s := walk (tree State.reset aabNodes 3 true) [true] 2;
      WalksTo s [0x61] [true] [] ∧ [(0x61 : Byte)].length < s.symCount.toNat ∧ LeadsInside s.node s.root []) ∧
    (let s := walk (tree State.reset aaaaNodes 1 true) [false] 2;
      WalksTo s [0x61] [false] [] ∧ [(0x61 : Byte)].length < s.symCount.toNat ∧
        ∃ sym, LeadsToLeaf s.node s.root [] sym) ∧
    (let s := walk (tree State.reset aaaaNodes 1 true) [false, true] 2;
      WalksTo s [0x61] [false] [true] ∧ [(0x61 : Byte)].length < s.symCount.toNat ∧
        (∃ sym, LeadsToLeaf s.node s.root [] sym) ∧ [true].head? = some true) ∧
    (let s := walk (tree State.reset aabNodes 3 true) (true :: List.replicate 8 false) 1;
      WalksTo s [0x61] [true] (List.replicate 8 false) ∧ [(0x61 : Byte)].length = s.symCount.toNat ∧
        7 < (List.replicate 8 false).length) ∧
    (let s := walk (tree State.reset aabNodes 3 true) [true, true] 1;
      WalksTo s [0x61] [true] [true] ∧ [(0x61 : Byte)].length = s.symCount.toNat ∧ true ∈ [true]) := by
  refine ⟨⟨{ State.reset with bitLen := 524289 }, by decide⟩, ⟨{ State.reset with symCount := 65537 }, by decide⟩,
    ⟨{ State.reset with symCount := 1 }, by decide⟩, ⟨⟨by decide, by decide, fun _ => rfl, ?_, by decide, by decide⟩,
      by decide, 3, 1, 0, by decide +kernel⟩, ⟨⟨by decide, by decide, fun _ => rfl, ?_, by decide, by decide⟩,
      by decide, 0x61, 4, by decide +kernel⟩, ⟨⟨by decide, by decide, fun _ => rfl, ?_, by decide, by decide⟩,
      by decide, ⟨0x61, 4, by decide +kernel⟩, rfl⟩, ⟨⟨by decide, by decide, fun _ => rfl, ?_, by decide, by decide⟩,
      by decide, by decide⟩, ⟨⟨by decide, by decide, fun _ => rfl, ?_, by decide, by decide⟩, by decide, by decide⟩⟩
  · exact ⟨[true], [], rfl, code_a, rfl⟩
  · exact ⟨[false], [], rfl, code_aaaa, rfl⟩
  · exact ⟨[false], [], rfl, code_aaaa, rfl⟩
  · exact ⟨[true], [], rfl, code_a, rfl⟩
  · exact ⟨[true], [], rfl, code_a, rfl⟩

theorem witness_CompositesRunTheirStagesInOrder : (withInput [0x61]).status.err = false := rfl

theorem witness_HencodeEncodesItsInput :
    let s := { withInput [0x61, 0x61, 0x62] with params := bufMax 2 };
    0 < s.inLen.toNat ∧ s.inLen.toNat ≤ s.params.bufMax ∧ [(0x61 : Byte), 0x61, 0x62].length = s.inLen.toNat ∧
    s.inMem.Holds 0 [0x61, 0x61, 0x62] := by decide

theorem witness_HdecodeDecodesItsInput :
    let s := { tree (withInput [0xC0]) aabNodes 3 true with symCount := 3 };
    let inp : List Byte := [0xC0];
    let bits := [true, true, false];
    let pad := List.replicate 5 false;
    s.inLen.toNat ≤ s.params.bufMax ∧ inp.length = s.inLen.toNat ∧ s.inMem.Holds 0 inp ∧
    (∀ j m, (h : j < inp.length) → m < 8 → (bits ++ pad)[8 * j + m]? = some (inp[j].getLsbD (7 - m))) ∧
    (bits ++ pad).length = 8 * inp.length ∧ pad.length ≤ 7 ∧ true ∉ pad ∧
    s.symCount.toNat ≤ s.params.bufMax ∧ [(0x61 : Byte), 0x61, 0x62].length = s.symCount.toNat ∧
    (s.symCount ≠ 0 → s.status.treeValid = true) ∧ EncodesTo s.node s.root [0x61, 0x61, 0x62] bits := by
  refine ⟨by decide, by decide, by decide, ?_, by decide, by decide, by decide, by decide, by decide, fun _ => rfl,
    encodes_aab⟩
  intro j m h hm
  obtain rfl : j = 0 := by simpa using h
  revert m; exact (by decide : ∀ m, m < 8 → ([true, true, false] ++ List.replicate 5 false)[8 * 0 + m]? =
    some ((0xC0 : Byte).getLsbD (7 - m)))

/-- The block after HENCODE of "aab", and the block that decodes its output. -/
theorem witness_HuffmanRoundTripReturnsTheInput :
    let s := withInput [0x61, 0x61, 0x62];
    let t := complete (hencodeRule s);
    let u := { t with inMem := mem [0xC0], inLen := 1, symCount := 3 };
    0 < s.inLen.toNat ∧ s.inLen.toNat ≤ s.params.bufMax ∧ [(0x61 : Byte), 0x61, 0x62].length = s.inLen.toNat ∧
    s.inMem.Holds 0 [0x61, 0x61, 0x62] ∧ exec .hencode s = .next t ∧
    [(0xC0 : Byte)].length = t.outLen.toNat ∧ t.outMem.Holds 0 [0xC0] ∧
    u.params = t.params ∧ u.node = t.node ∧ u.root = t.root ∧ u.status.treeValid = true ∧
    u.inMem.Holds 0 [0xC0] ∧ u.inLen = t.outLen ∧ u.symCount = s.inLen :=
  ⟨by decide, by decide, by decide, by decide, rfl, by decide +kernel, by decide +kernel, rfl, rfl, rfl, by decide +kernel,
    by decide +kernel, by decide +kernel, by decide⟩

theorem witness_LzmatchFindsTheLongestEarliestMatch :
    (∃ s : State, s.params.bufMax < s.inLen.toNat) ∧ State.reset.inLen = 0 ∧
    (let s := { withInput [0x61, 0x62] with cursor := 2 };
      0 < s.inLen.toNat ∧ s.inLen.toNat ≤ s.params.bufMax ∧ s.inLen.toNat ≤ s.cursor.toNat) ∧
    (let s := { withInput [0x61, 0x62] with cursor := 1, window := 1 };
      s.inLen.toNat ≤ s.params.bufMax ∧ s.cursor.toNat < s.inLen.toNat ∧
      [(0x61 : Byte), 0x62].length = s.inLen.toNat ∧ s.inMem.Holds 0 [0x61, 0x62]) :=
  ⟨⟨{ State.reset with inLen := 65537 }, by decide⟩, rfl, by decide, by decide⟩

theorem witness_LzencodeTokenisesTheInput :
    (∃ s : State, s.params.bufMax < s.inLen.toNat) ∧ State.reset.inLen = 0 ∧
    (let s := { withInput [0x61, 0x61] with window := 8, params := bufMax 1 };
      0 < s.inLen.toNat ∧ s.inLen.toNat ≤ s.params.bufMax ∧ [(0x61 : Byte), 0x61].length = s.inLen.toNat ∧
      s.inMem.Holds 0 [0x61, 0x61]) :=
  ⟨⟨{ State.reset with inLen := 65537 }, by decide⟩, rfl, by decide⟩

/-- (0,0,a), then (1,4,b). -/
def tokA : Token := { offset := 0, length := 0, next := 0x61 }
def tokRun : Token := { offset := 1, length := 4, next := 0x62 }

/-- The record bytes of tokens, as the statements write them. -/
abbrev records (ts : List Token) : List Byte :=
  ts.flatMap (fun t => [t.offset.extractLsb' 0 8, t.offset.extractLsb' 8 8, t.length, t.next])

theorem reconstructs_a : Reconstructs [] [tokA] [0x61] :=
  ⟨[0x61], ⟨.inl ⟨rfl, rfl⟩, [], rfl, rfl, fun _ h => absurd h (by simp)⟩, rfl⟩

/-- The output of both. -/
def runOut : List Byte := [0x61, 0x61, 0x61, 0x61, 0x61, 0x62]

theorem reconstructs_run : Reconstructs [] [tokA, tokRun] runOut := by
  refine ⟨[0x61], ⟨.inl ⟨rfl, rfl⟩, [], rfl, rfl, fun _ h => absurd h (by simp)⟩, _, ⟨.inr (by decide), ?_⟩, rfl⟩
  exact ⟨[0x61, 0x61, 0x61, 0x61], rfl, rfl, by decide⟩

theorem witness_LzdecodeReconstructsTheOutput :
    let s := { withTokens [0x61000000, 0x62040001] with params := bufMax 5 };
    [tokA, tokRun].length ≤ s.params.tokMax ∧ s.tokBytes.toNat = 4 * [tokA, tokRun].length ∧
    s.tokMem.Holds 0 (records [tokA, tokRun]) ∧ Reconstructs [] [tokA, tokRun] runOut ∧
    runOut.length ≤ s.params.bufMax :=
  ⟨by decide, by decide, by decide, reconstructs_run, by decide⟩

/-- What LZDECODE's execution errors ask of the state, after the token (0,0,a). -/
abbrev DecodesTo (s : State) (t : Token) : Prop :=
  s.tokBytes.toNat = 4 * ([tokA] ++ t :: []).length ∧ ([tokA] ++ t :: []).length ≤ s.params.tokMax ∧
  s.tokMem.Holds 0 (records ([tokA] ++ t :: [])) ∧ [(0x61 : Byte)].length ≤ s.params.bufMax

theorem witness_LzdecodeErrorsKeepTheBytesSoFar :
    (∃ s : State, 4 * s.params.tokMax < s.tokBytes.toNat) ∧
    (∃ s : State, s.tokBytes.toNat ≤ 4 * s.params.tokMax ∧ s.tokBytes.toNat % 4 ≠ 0) ∧
    Reconstructs [] [tokA] [0x61] ∧
    DecodesTo (withTokens [0x61000000, 0x62010002]) { offset := 2, length := 1, next := 0x62 } ∧
    DecodesTo (withTokens [0x61000000, 0x62030000]) { offset := 0, length := 3, next := 0x62 } ∧
    (let s := { withTokens [0x61000000, 0x62050001] with params := bufMax 5 };
      DecodesTo s { offset := 1, length := 5, next := 0x62 } ∧ s.params.bufMax < 1 + 5 + 1) :=
  ⟨⟨{ State.reset with tokBytes := 262148 }, by decide⟩, ⟨{ State.reset with tokBytes := 6 }, by decide⟩,
    reconstructs_a, by decide, by decide, by decide⟩

/-- A literal that does not fit: the earlier tokens have filled the 6 bytes of OUT_MEM. -/
theorem witness_LzdecodeErrors_literal :
    let s := { withTokens [0x61000000, 0x62040001, 0x63000000] with params := bufMax 5 };
    let t : Token := { offset := 0, length := 0, next := 0x63 };
    s.tokBytes.toNat = 4 * ([tokA, tokRun] ++ t :: []).length ∧
    ([tokA, tokRun] ++ t :: []).length ≤ s.params.tokMax ∧ s.tokMem.Holds 0 (records ([tokA, tokRun] ++ t :: [])) ∧
    Reconstructs [] [tokA, tokRun] runOut ∧ runOut.length ≤ s.params.bufMax ∧
    (t.offset.toNat = 0 ∧ t.length.toNat = 0) ∧ s.params.bufMax < runOut.length + 1 :=
  ⟨by decide, by decide, by decide, reconstructs_run, by decide, by decide, by decide⟩

theorem witness_LzRoundTripReturnsTheInput :
    let s := { withInput [0x61, 0x61, 0x61] with params := bufMax 2, window := 1 };
    0 < s.inLen.toNat ∧ s.inLen.toNat ≤ s.params.bufMax ∧ [(0x61 : Byte), 0x61, 0x61].length = s.inLen.toNat ∧
    s.inMem.Holds 0 [0x61, 0x61, 0x61] := by decide

theorem witness_CommandsWriteOnlyTheirOwnState :
    ∀ i, ∃ t, exec i (withInput [0x61]) = .next t := fun i => ⟨_, exec_eq i _⟩

/-- HUNPACK about to run on a state whose memories hold something. -/
theorem witness_StepsKeepMemoriesCanonical :
    let s := { withInput [0x61, 0x62] with inflight := some 0x15 };
    MemoriesCanonical s ∧ s.inMem ≠ [] ∧ ∃ t, step s = .next t :=
  ⟨⟨by decide, by decide, by decide, by decide⟩, by decide, _, rfl⟩

theorem witness_StepsKeepStatusConsistent :
    StatusConsistent (hostBusy (.write 0x10 5 15)) ∧ ∃ t, step (hostBusy (.write 0x10 5 15)) = .next t :=
  ⟨hostBusy_statusConsistent _, _, rfl⟩

/-- HASSIGN about to run on a tree. -/
theorem witness_StepsKeepTablesConsistent :
    let s := { tree State.reset aabNodes 3 false with inflight := some 0x12 };
    TablesConsistent s ∧ s.status.treeValid = true ∧ ∃ t, step s = .next t :=
  ⟨⟨tables_aab.tree, tables_aab.noTree, tables_aab.unused, tables_aab.codes⟩, rfl, _, rfl⟩

end Sys2Proof.Tests
end

section
/-! PROOFS. The two invariants of the state that every step keeps: the memories' canonical form (10_state.md
R33-R36, R39) and what TREE_VALID and CODES_VALID promise (R38).  Each invariant is a property of a few fields, so a
transition that leaves those fields keeps it; the others are gone through command by command. -/

namespace Sys2Proof.Machine

/-- What a command's rule and its completion keep, the command keeps. -/
theorem exec_keeps {P : State → Prop} (hcomplete : ∀ r : CmdResult, P r.state → P (complete r)) {i : Instr}
    {s t : State} (hrule : P (rule i s).state) (h : exec i s = .next t) : P t := by
  rw [exec_eq] at h
  cases h
  exact hcomplete _ hrule

/-! ## The memories (R33-R36) -/

/-- The fields `MemoriesCanonical` speaks of. -/
def State.memories (s : State) : Params × Memory Byte × Memory Byte × Memory Byte × Memory Bool :=
  (s.params, s.inMem, s.outMem, s.tokMem, s.bitMem)

theorem MemoriesCanonical.congr {s t : State} (h : MemoriesCanonical s) (e : t.memories = s.memories) :
    MemoriesCanonical t := by
  simp only [State.memories, Prod.mk.injEq] at e
  obtain ⟨hparams, hin, hout, htok, hbit⟩ := e
  refine ⟨?_, ?_, ?_, ?_⟩
  · rw [hin, hparams]; exact h.inMem
  · rw [hout, hparams]; exact h.outMem
  · rw [htok, hparams]; exact h.tokMem
  · rw [hbit, hparams]; exact h.bitMem

theorem complete_memories (r : CmdResult) : (complete r).memories = r.state.memories := by cases r <;> rfl

/-- A new OUT_MEM that is in form where the old one was (HPACK, HWALK, LZDECODE). -/
theorem MemoriesCanonical.outMem_replaced {s : State} (h : MemoriesCanonical s) {out : Memory Byte}
    (hwf : s.outMem.wf → out.wf) (hbelow : s.outMem.below s.params.bufMax → out.below s.params.bufMax) (d : Nat)
    (n : Word) : MemoriesCanonical { s with outMem := out, draws := d, outLen := n } :=
  ⟨h.inMem, h.outMem.imp hwf hbelow, h.tokMem, h.bitMem⟩

/-- A new BITMEM that is in form where the old one was (HEMIT, HUNPACK). -/
theorem MemoriesCanonical.bitMem_replaced {s : State} (h : MemoriesCanonical s) {bits : Memory Bool}
    (hwf : s.bitMem.wf → bits.wf) (hbelow : s.bitMem.below s.params.bitMax → bits.below s.params.bitMax) (d : Nat)
    (n : Word) : MemoriesCanonical { s with bitMem := bits, draws := d, bitLen := n } :=
  ⟨h.inMem, h.outMem, h.tokMem, h.bitMem.imp hwf hbelow⟩

theorem hfreqRule_keeps_memories {s : State} (h : MemoriesCanonical s) : MemoriesCanonical (hfreqRule s).state := by
  obtain ⟨f, d, e⟩ := hfreqRule_state s
  rw [e]; exact h.congr rfl

theorem hbuildRule_keeps_memories {s : State} (h : MemoriesCanonical s) : MemoriesCanonical (hbuildRule s).state := by
  obtain ⟨ns, nc, rt, cs, tv, cv, e⟩ := hbuildRule_state s
  rw [e]; exact h.congr rfl

theorem hassignRule_keeps_memories {s : State} (h : MemoriesCanonical s) :
    MemoriesCanonical (hassignRule s).state := by
  obtain ⟨cs, v, e⟩ := hassignRule_state s
  rw [e]; exact h.congr rfl

theorem hemitRule_keeps_memories {s : State} (h : MemoriesCanonical s) : MemoriesCanonical (hemitRule s).state := by
  obtain ⟨bits, d, n, e, hwf, hbelow⟩ := hemitRule_state s
  rw [e]; exact h.bitMem_replaced hwf hbelow d n

theorem hpackRule_keeps_memories {s : State} (h : MemoriesCanonical s) : MemoriesCanonical (hpackRule s).state := by
  obtain ⟨out, d, n, e, hwf, hbelow, -⟩ := hpackRule_state s
  rw [e]; exact h.outMem_replaced hwf hbelow d n

theorem hunpackRule_keeps_memories {s : State} (h : MemoriesCanonical s) :
    MemoriesCanonical (hunpackRule s).state := by
  obtain ⟨bits, d, n, e, hwf, hbelow⟩ := hunpackRule_state s
  rw [e]; exact h.bitMem_replaced hwf hbelow d n

theorem hwalkRule_keeps_memories {s : State} (h : MemoriesCanonical s) : MemoriesCanonical (hwalkRule s).state := by
  obtain ⟨out, d, n, e, hwf, hbelow, -⟩ := hwalkRule_state s
  rw [e]; exact h.outMem_replaced hwf hbelow d n

/-- Every command's rule keeps the memories in canonical form and within their sizes. -/
theorem rule_keeps_memories (i : Instr) {s : State} (h : MemoriesCanonical s) : MemoriesCanonical (rule i s).state := by
  cases i with
  | nop => exact h
  | clear => exact h.congr rfl
  | hfreq => exact hfreqRule_keeps_memories h
  | hbuild => exact hbuildRule_keeps_memories h
  | hassign => exact hassignRule_keeps_memories h
  | hemit => exact hemitRule_keeps_memories h
  | hpack => exact hpackRule_keeps_memories h
  | hunpack => exact hunpackRule_keeps_memories h
  | hwalk => exact hwalkRule_keeps_memories h
  | hencode =>
    exact hencodeRule_keeps h (fun _ => hfreqRule_keeps_memories) (fun _ => hbuildRule_keeps_memories)
      (fun _ => hassignRule_keeps_memories) (fun _ => hemitRule_keeps_memories) (fun _ => hpackRule_keeps_memories)
  | hdecode => exact hdecodeRule_keeps h (fun _ => hunpackRule_keeps_memories) (fun _ => hwalkRule_keeps_memories)
  | lzmatch =>
    obtain ⟨t, n, d, e⟩ := lzmatchRule_state s
    rw [rule, e]; exact h.congr rfl
  | lzencode =>
    obtain ⟨toks, t, n, k, d, e, hwf, hbelow⟩ := lzencodeRule_state s
    rw [rule, e]; exact ⟨h.inMem, h.outMem, h.tokMem.imp hwf hbelow, h.bitMem⟩
  | lzdecode =>
    obtain ⟨out, d, n, e, hwf, hbelow, -⟩ := lzdecodeRule_state s
    rw [rule, e]; exact h.outMem_replaced hwf hbelow d n

/-- No register is a memory. -/
theorem writeReg_memories (s : State) (r : Reg) (data : Word) (strb : BitVec 4) :
    (s.writeReg r data strb).memories = s.memories := by
  cases r
  case ctrl => simp only [State.writeReg]; split <;> rfl
  all_goals rfl

/-- A host write keeps the memories in form: only word writes within the size store anything. -/
theorem writeTarget_keeps_memories {s : State} (h : MemoriesCanonical s) (t : Target) (data : Word)
    (strb : BitVec 4) : MemoriesCanonical (s.writeTarget t data strb) := by
  cases t with
  | reg r => exact h.congr (writeReg_memories s r data strb)
  | freq sym => exact h.congr rfl
  | node i k => exact h
  | code sym k => exact h
  | inMem j => exact ⟨wf_writeLanes h.inMem, h.outMem, h.tokMem, h.bitMem⟩
  | outMem j => exact h
  | tokMem j => exact ⟨h.inMem, h.outMem, wf_writeLanes h.tokMem, h.bitMem⟩
  | bitMem j => exact ⟨h.inMem, h.outMem, h.tokMem, wf_writeBitLanes h.bitMem⟩

theorem assertReset_memoriesCanonical (s : State) : MemoriesCanonical s.assertReset := by
  have empty {α : Type} (n : Nat) : Memory.wf ([] : Memory α) ∧ Memory.below ([] : Memory α) n :=
    ⟨List.Pairwise.nil, by simp⟩
  exact ⟨empty _, empty _, empty _, empty _⟩

/-- Settles O56, by cases on what a step can be, then on the command. -/
theorem stepsKeepMemoriesCanonical : Obligations.StepsKeepMemoriesCanonical := by
  intro s t
  refine step_invariant ?pending ?exec ?illegal ?answer ?write ?drop ?assert ?release
  case pending => exact fun s rest h => h.congr rfl
  case exec =>
    exact fun i s w t h _ _ => exec_keeps (fun r hr => hr.congr (complete_memories r)) (rule_keeps_memories i h)
  case illegal => exact fun v s w h _ _ => h.congr rfl
  case answer => exact fun s r d h => h.congr rfl
  case write => exact fun s t data strb h _ _ => writeTarget_keeps_memories h t data strb
  case drop => exact fun s h _ => h.congr rfl
  case assert => exact fun s _ => assertReset_memoriesCanonical s
  case release => exact fun s h => h.congr rfl

/-! ## The tree and the code table (R38) -/

/-- The fields `TablesConsistent` speaks of. -/
def State.tables (s : State) : Vector Node 511 × BitVec 10 × BitVec 9 × Vector (List Bool) 256 × Bool × Bool :=
  (s.node, s.nodeCount, s.root, s.code, s.status.treeValid, s.status.codesValid)

theorem TablesConsistent.congr {s t : State} (h : TablesConsistent s) (e : t.tables = s.tables) :
    TablesConsistent t := by
  simp only [State.tables, Prod.mk.injEq] at e
  obtain ⟨hnode, hcount, hroot, hcode, htree, hcodes⟩ := e
  refine ⟨?_, ?_, ?_, ?_⟩
  · rw [hnode, hcount, hroot, htree]; exact h.tree
  · rw [hcount, hroot, htree]; exact h.noTree
  · rw [hnode, hcount]; exact h.unused
  · rw [hnode, hroot, hcode, htree, hcodes]; exact h.codes

theorem complete_tables (r : CmdResult) : (complete r).tables = r.state.tables := by cases r <;> rfl

theorem nodeN_noNodes {i : Nat} (hi : i < 511) : nodeN noNodes i = Node.zero := by
  have hm : (BitVec.ofNat 9 i).toNat = i := by simp [Nat.mod_eq_of_lt (show i < 512 by omega)]
  simp [nodeN, nodeAt, noNodes, hm, hi]

/-- Empty tables, as CLEAR and reset leave them, promise nothing (R88, R106). -/
theorem tablesConsistent_of_empty {s : State}
    (e : s.tables = (noNodes, 0, 0, noCodes, false, false)) : TablesConsistent s := by
  simp only [State.tables, Prod.mk.injEq] at e
  obtain ⟨hnode, hcount, hroot, -, htree, hcodes⟩ := e
  refine ⟨?_, fun _ => ⟨hcount, hroot⟩, fun i _ hi => ?_, ?_⟩
  · rw [htree]; exact (nomatch ·)
  · rw [hnode]; exact nodeN_noNodes hi
  · rw [hcodes]; exact (nomatch ·)

theorem hfreqRule_tables (s : State) : (hfreqRule s).state.tables = s.tables := by
  obtain ⟨f, d, e⟩ := hfreqRule_state s
  rw [e]; rfl

theorem hemitRule_tables (s : State) : (hemitRule s).state.tables = s.tables := by
  obtain ⟨bits, d, n, e, -⟩ := hemitRule_state s
  rw [e]; rfl

theorem hpackRule_tables (s : State) : (hpackRule s).state.tables = s.tables := by
  obtain ⟨out, d, n, e, -⟩ := hpackRule_state s
  rw [e]; rfl

theorem hunpackRule_tables (s : State) : (hunpackRule s).state.tables = s.tables := by
  obtain ⟨bits, d, n, e, -⟩ := hunpackRule_state s
  rw [e]; rfl

theorem hwalkRule_tables (s : State) : (hwalkRule s).state.tables = s.tables := by
  obtain ⟨out, d, n, e, -⟩ := hwalkRule_state s
  rw [e]; rfl

theorem lzmatchRule_tables (s : State) : (lzmatchRule s).state.tables = s.tables := by
  obtain ⟨t, n, d, e⟩ := lzmatchRule_state s
  rw [e]; rfl

theorem lzencodeRule_tables (s : State) : (lzencodeRule s).state.tables = s.tables := by
  obtain ⟨toks, t, n, k, d, e, -⟩ := lzencodeRule_state s
  rw [e]; rfl

theorem lzdecodeRule_tables (s : State) : (lzdecodeRule s).state.tables = s.tables := by
  obtain ⟨out, d, n, e, -⟩ := lzdecodeRule_state s
  rw [e]; rfl

/-- HBUILD leaves the tree of the present symbols and no codes, or, without one, what there was (R69). -/
theorem hbuildRule_keeps_tables {s : State} (h : TablesConsistent s) : TablesConsistent (hbuildRule s).state := by
  rw [hbuildRule_eq]
  split
  · exact h
  · rename_i hp
    obtain ⟨htree, -, -, hzero, -⟩ := buildNodes_arena s.freq hp
    have hn := htree.leaves
    have hcount : (BitVec.ofNat 10 (2 * (present s.freq).length - 1)).toNat = 2 * (present s.freq).length - 1 := by
      rw [BitVec.toNat_ofNat, Nat.mod_eq_of_lt (by omega)]
    have hroot : (BitVec.ofNat 9 (2 * (present s.freq).length - 2)).toNat = 2 * (present s.freq).length - 2 := by
      rw [BitVec.toNat_ofNat, Nat.mod_eq_of_lt (by omega)]
    exact ⟨fun _ => ⟨_, htree, hcount, hroot⟩, (nomatch ·), fun i hi => hzero i (hcount ▸ hi), (nomatch ·)⟩

/-- HASSIGN gives the code table of the tree it finds, or, without one, leaves what there was (R71). -/
theorem hassignRule_keeps_tables {s : State} (h : TablesConsistent s) : TablesConsistent (hassignRule s).state := by
  cases hv : s.status.treeValid with
  | false => rw [hassignRule, if_pos hv]; exact h
  | true =>
    obtain ⟨n, htree, -, hroot⟩ := h.tree hv
    rw [hassignRule_run hv]
    exact ⟨h.tree, h.noTree, h.unused, fun _ => ⟨hv, htree.assignCodes_isCodeTable hroot⟩⟩

/-- Every command's rule keeps what the validity bits promise. -/
theorem rule_keeps_tables (i : Instr) {s : State} (h : TablesConsistent s) : TablesConsistent (rule i s).state := by
  cases i with
  | nop => exact h
  | clear => exact tablesConsistent_of_empty rfl
  | hfreq => exact h.congr (hfreqRule_tables s)
  | hbuild => exact hbuildRule_keeps_tables h
  | hassign => exact hassignRule_keeps_tables h
  | hemit => exact h.congr (hemitRule_tables s)
  | hpack => exact h.congr (hpackRule_tables s)
  | hunpack => exact h.congr (hunpackRule_tables s)
  | hwalk => exact h.congr (hwalkRule_tables s)
  | hencode =>
    exact hencodeRule_keeps h (fun s h => h.congr (hfreqRule_tables s)) (fun _ => hbuildRule_keeps_tables)
      (fun _ => hassignRule_keeps_tables) (fun s h => h.congr (hemitRule_tables s))
      (fun s h => h.congr (hpackRule_tables s))
  | hdecode =>
    exact hdecodeRule_keeps h (fun s h => h.congr (hunpackRule_tables s)) (fun s h => h.congr (hwalkRule_tables s))
  | lzmatch => exact h.congr (lzmatchRule_tables s)
  | lzencode => exact h.congr (lzencodeRule_tables s)
  | lzdecode => exact h.congr (lzdecodeRule_tables s)

/-- A write to STATUS clears none but DONE, ERR and OVR (R17). -/
theorem Status.writeOneToClear_eq (st : Status) (data : Word) (strb : BitVec 4) :
    st.writeOneToClear data strb =
      { st with
        done := st.done && !(strb.getLsbD 0 && data.getLsbD 1)
        err := st.err && !(strb.getLsbD 0 && data.getLsbD 2)
        ovr := st.ovr && !(strb.getLsbD 0 && data.getLsbD 3) } := by
  unfold Status.writeOneToClear
  cases strb.getLsbD 0 <;> simp

/-- The host writes no part of the tree, of the code table or of what is said of them (R46). -/
theorem writeTarget_tables (s : State) (t : Target) (data : Word) (strb : BitVec 4) :
    (s.writeTarget t data strb).tables = s.tables := by
  cases t
  case reg r =>
    cases r
    case ctrl => simp only [State.writeTarget, State.writeReg]; split <;> rfl
    case status => simp [State.writeTarget, State.writeReg, State.tables, Status.writeOneToClear_eq]
    all_goals rfl
  all_goals rfl

/-- Settles O58, by cases on what a step can be, then on the command: HBUILD leaves a tree, HASSIGN its codes. -/
theorem stepsKeepTablesConsistent : Obligations.StepsKeepTablesConsistent := by
  intro s t
  refine step_invariant ?pending ?exec ?illegal ?answer ?write ?drop ?assert ?release
  case pending => exact fun s rest h => h.congr rfl
  case exec =>
    exact fun i s w t h _ _ => exec_keeps (fun r hr => hr.congr (complete_tables r)) (rule_keeps_tables i h)
  case illegal => exact fun v s w h _ _ => h.congr rfl
  case answer => exact fun s r d h => h.congr rfl
  case write => exact fun s t data strb h _ _ => h.congr (writeTarget_tables s t data strb)
  case drop => exact fun s h _ => h.congr rfl
  case assert => exact fun s _ => tablesConsistent_of_empty rfl
  case release => exact fun s h => h.congr rfl

end Sys2Proof.Machine
end

section
/-! PROOFS. What the host reads and clears of the state (10_state.md R14-R32): the STATUS word, the registers, the
tables' entries, and the write-one-to-clear bits.  A read of a word that draws nothing answers that word
(`step_read_answers`), so each of these is what an address reaches and what its word is. -/

namespace Sys2Proof.Machine

/-! ## STATUS -/

/-- The single-bit fields of STATUS (R17). -/
theorem statusWord_flags (s : State) :
    s.statusWord.getLsbD 0 = s.busy ∧ s.statusWord.getLsbD 1 = s.status.done ∧
    s.statusWord.getLsbD 2 = s.status.err ∧ s.statusWord.getLsbD 3 = s.status.ovr ∧
    s.statusWord.getLsbD 4 = s.status.treeValid ∧ s.statusWord.getLsbD 5 = s.status.codesValid := by
  simp only [State.statusWord, BitVec.getLsbD_append]
  simp

/-- Above its flags STATUS has ERRCODE from bit 8, and zeros (R17). -/
theorem statusWord_getLsbD_of_six_le (s : State) {n : Nat} (h : 6 ≤ n) :
    s.statusWord.getLsbD n = (decide (8 ≤ n) && s.status.errCode.toBits.getLsbD (n - 8)) := by
  simp only [State.statusWord, BitVec.getLsbD_append, BitVec.getLsbD_zero]
  iterate 6 rw [if_neg (by omega)]
  by_cases h8 : n < 8
  · rw [if_pos (by omega)]
    simp [show ¬ 8 ≤ n by omega]
  · rw [if_neg (by omega), show n - 1 - 1 - 1 - 1 - 1 - 1 - 2 = n - 8 by omega]
    split
    · simp [show 8 ≤ n by omega]
    · rw [BitVec.getLsbD_of_ge _ _ (by omega), Bool.and_false]

theorem statusWord_errCode (s : State) : s.statusWord.extractLsb' 8 4 = s.status.errCode.toBits := by
  refine BitVec.eq_of_getLsbD_eq fun i hi => ?_
  rw [BitVec.getLsbD_extractLsb', statusWord_getLsbD_of_six_le s (by omega)]
  simp [hi]

/-- Settles O16: the flags bit by bit, and the fields above them from ERRCODE's place. -/
theorem statusWordShowsItsFields : Obligations.StatusWordShowsItsFields := by
  intro s
  obtain ⟨h0, h1, h2, h3, h4, h5⟩ := statusWord_flags s
  refine ⟨h0, h1, h2, h3, h4, h5, ?_, ?_, ?_⟩
  · refine BitVec.eq_of_getLsbD_eq fun i hi => ?_
    rw [BitVec.getLsbD_extractLsb', statusWord_getLsbD_of_six_le s (by omega)]
    simp [show ¬ 8 ≤ 6 + i by omega]
  · refine BitVec.eq_of_getLsbD_eq fun i hi => ?_
    rw [BitVec.getLsbD_extractLsb', statusWord_getLsbD_of_six_le s (by omega),
      BitVec.getLsbD_of_ge _ _ (by omega)]
    simp
  · rw [statusWord_errCode]
    cases s.status.errCode <;> rfl

/-- A write with a zero strobe is answered and has no effect, BUSY or not (R41). -/
theorem step_write_zeroStrobe {s : State} {addr data : Word} {rest : List Event} {t : Target}
    (h : s.serves (.write addr data 0) rest) (ht : busTarget s.params addr = some t) :
    step s = .next (s.answered rest (.write .okay)) := by
  rw [step_write h]
  simp [State.busWrite, ht, State.answered]

/-- A register's offset reaches it. -/
theorem busTarget_reg {p : Params} {addr : Word} (r : Reg) (h : addr.toNat = p.base + r.offset) :
    busTarget p addr = some (.reg r) := by
  rw [busTarget_of_address h (by cases r <;> rfl), decodeOffset_reg (by cases r <;> decide), Reg.ofOffset_eq_some.2 rfl]
  rfl

/-- Settles O17: a zero strobe clears nothing, and any other is a write to STATUS, which no BUSY drops. -/
theorem statusWriteClearsTheBitsWrittenWithOne : Obligations.StatusWriteClearsTheBitsWrittenWithOne := by
  intro s addr data strb rest ha hs
  have ht := busTarget_reg .status ha
  by_cases h0 : strb = 0
  · subst h0
    rw [step_write_zeroStrobe hs ht]
    simp [State.answered]
  · rw [step_write_idle hs ht h0 (Or.inr rfl), ← Status.writeOneToClear_eq]
    rfl

/-! ## Reads -/

/-- A served read of a word that draws nothing answers the word and changes nothing else (R40, R47). -/
theorem step_read_answers {s : State} {addr : Word} {rest : List Event} {t : Target} {w : Word}
    (h : s.serves (.read addr) rest) (ht : busTarget s.params addr = some t)
    (hb : s.busy = false ∨ t.readableWhileBusy = true) (hw : s.readTarget t = (w, s.draws)) :
    step s = .next (s.answered rest (.read w .okay)) := by
  rw [step_read_idle h ht hb, hw]
  rfl

theorem ctrl_regWord (s : State) : s.regWord .ctrl = if s.irqEn then 1 else 0 := by
  simp only [State.regWord]
  cases s.irqEn <;> rfl

/-- Settles O18: every register reads as `regWord` says, and FREQ as its entries. -/
theorem registersReadAsTheirValues : Obligations.RegistersReadAsTheirValues := by
  intro s addr rest off ha hs reads
  have reg (r : Reg) (hb : s.busy = false ∨ (Target.reg r).readableWhileBusy = true) (ho : off = r.offset) :
      reads (s.regWord r) :=
    step_read_answers hs (busTarget_reg r (ho ▸ ha)) hb rfl
  refine ⟨reg .id (.inr rfl), fun ho => ?_, reg .status (.inr rfl), fun hb => ?_⟩
  · exact ctrl_regWord s ▸ reg .ctrl (.inr rfl) ho
  · refine ⟨reg .cmd (.inl hb), reg .inLen (.inl hb), reg .outLen (.inl hb), reg .bitLen (.inl hb),
      reg .symCount (.inl hb), reg .window (.inl hb), reg .cursor (.inl hb), reg .token (.inl hb),
      reg .tokBytes (.inl hb), reg .nodeCount (.inl hb), reg .root (.inl hb), reg .errInfo (.inl hb),
      fun sym ho => ?_⟩
    subst ho
    have ht := (busTarget_of_address ha (by omega)).trans (decodeOffset_freq sym)
    exact step_read_answers hs ht (.inl hb) rfl

/-- Settles O19: the entry's host view, word by word. -/
theorem nodeEntriesReadAsLaidOut : Obligations.NodeEntriesReadAsLaidOut := by
  intro s addr rest i k hi hk hb ha hs
  have ht : busTarget s.params addr = some (.node (BitVec.ofNat 9 i) k) :=
    (busTarget_of_address (ha.trans (by omega)) (by omega)).trans (decodeOffset_node hi hk)
  refine ⟨(nodeN s.node i).viewWord k, step_read_answers hs ht (.inl hb) rfl, ?_⟩
  obtain ⟨h0, h1, h2, h3⟩ := viewWord_toNat (nodeN s.node i)
  refine ⟨?_, ?_, ?_, ?_⟩
  · rintro rfl; exact h0
  · rintro rfl; exact h1
  · rintro rfl
    cases e : nodeN s.node i with
    | leaf sym f => rfl
    | internal f l r => simpa only [e] using h2
  · rintro rfl
    cases e : nodeN s.node i with
    | leaf sym f => simpa only [e] using h3
    | internal f l r => rfl

/-- Settles O20: the entry's length, zeros, and the packed bytes of the code, lane by lane. -/
theorem codeEntriesReadAsLaidOut : Obligations.CodeEntriesReadAsLaidOut := by
  intro s addr rest sym k hk hb hlen ha hs
  have ht : busTarget s.params addr = some (.code sym k) :=
    (busTarget_of_address (ha.trans (by omega)) (by omega)).trans (decodeOffset_code sym hk)
  obtain ⟨hword0, hzero, hbits⟩ := codeViewWord_eq (codeAt s.code sym) hlen
  refine ⟨codeViewWord (codeAt s.code sym) k, step_read_answers hs ht (.inl hb) rfl, ?_, hzero k, ?_⟩
  · rintro rfl; exact hword0
  · intro h8 i m hi hm
    have hlane := congrArg (·.getLsbD (7 - m)) (hbits k h8 i hi)
    simpa only [lane_getLsbD, show 7 - m < 8 by omega, decide_true, Bool.true_and, codeByte, packByte_getLsbD _ hm]
      using hlane

end Sys2Proof.Machine
end

section
/-! PROOFS. The host's transactions by the address map (20_memory.md R40-R47): which answer ERROR, what a read leaves,
and what a write to each kind of word stores.  Each proof finds what the address reaches and takes the step's equation
for it; a write outside BUSY whose zero strobe changes nothing has one equation for every strobe
(`step_write_notBusy`). -/

namespace Sys2Proof.Machine

/-! ## Answers (R41, R42, R47) -/

theorem step_read_unmapped {s : State} {addr : Word} {rest : List Event} (h : s.serves (.read addr) rest)
    (ht : busTarget s.params addr = none) : step s = .next (s.answered rest (.read 0 .error)) := by
  rw [step_read h]
  simp [State.busRead, ht, State.answered]

theorem step_write_unmapped {s : State} {addr data : Word} {strb : BitVec 4} {rest : List Event}
    (h : s.serves (.write addr data strb) rest) (ht : busTarget s.params addr = none) :
    step s = .next (s.answered rest (.write .error)) := by
  rw [step_write h]
  simp [State.busWrite, ht, State.answered]

/-- A read of a mapped word is answered OKAY, BUSY or not. -/
theorem step_read_mapped {s : State} {addr : Word} {rest : List Event} {t : Target} (h : s.serves (.read addr) rest)
    (ht : busTarget s.params addr = some t) : ∃ u d, step s = .next u ∧ u.response = some (.read d .okay) := by
  rw [step_read h]
  simp only [State.busRead, ht]
  split
  · exact ⟨_, _, rfl, rfl⟩ -- BUSY: a free value (R111)
  · exact ⟨_, _, rfl, rfl⟩

/-- A write to a mapped word is answered OKAY, dropped or not. -/
theorem step_write_mapped {s : State} {addr data : Word} {strb : BitVec 4} {rest : List Event} {t : Target}
    (h : s.serves (.write addr data strb) rest) (ht : busTarget s.params addr = some t) :
    ∃ u, step s = .next u ∧ u.response = some (.write .okay) := by
  refine ⟨_, step_write h, ?_⟩
  simp only [State.busWrite, ht]
  split
  · rfl
  · split <;> rfl

/-- Settles O10: an address reaches nothing exactly when it is that of no mapped offset. -/
theorem errorResponseExactlyWhenMisalignedOrUnmapped : Obligations.ErrorResponseExactlyWhenMisalignedOrUnmapped := by
  intro s addr data strb rest
  refine ⟨fun h => ⟨fun hn => ?_, ?_⟩, fun h => ⟨fun hn => ?_, ?_⟩⟩
  · exact step_read_unmapped h ((busTarget_eq_none _ _).2 hn)
  · rintro ⟨off, ha⟩
    obtain ⟨t, ht, -⟩ := ha.target
    exact step_read_mapped h ht
  · exact step_write_unmapped h ((busTarget_eq_none _ _).2 hn)
  · rintro ⟨off, ha⟩
    obtain ⟨t, ht, -⟩ := ha.target
    exact step_write_mapped h ht

/-- Settles O11: the zero strobe is met before BUSY and before the word itself. -/
theorem zeroStrobeWriteHasNoEffect : Obligations.ZeroStrobeWriteHasNoEffect := by
  intro s addr data rest off ha hs
  obtain ⟨t, ht, -⟩ := ha.target
  exact step_write_zeroStrobe hs ht

/-- Settles O12, from all that a read can do (`busRead_eq`). -/
theorem readsHaveNoSideEffect : Obligations.ReadsHaveNoSideEffect := by
  intro s addr rest hs
  obtain ⟨r, d, e⟩ := busRead_eq { s with pending := rest } addr
  exact ⟨r, d, by rw [step_read hs, e]; rfl⟩

/-! ## Writes outside BUSY (R41) -/

/-- Settles O13: the lanes of a merged word, and that lanes determine a word. -/
theorem strobesSelectByteLanes : Obligations.StrobesSelectByteLanes :=
  fun old data strb => ⟨fun _ hk => lane_mergeLanes old data strb hk, fun _ h => word_ext_lanes h⟩

/-- A write outside BUSY, whatever its strobe, to a word on which a zero strobe would change nothing: any word but CMD,
where even an all-zero word would be an issue. -/
theorem step_write_notBusy {s : State} {addr data : Word} {strb : BitVec 4} {rest : List Event} {t : Target}
    (h : s.serves (.write addr data strb) rest) (ht : busTarget s.params addr = some t) (hb : s.busy = false)
    (hz : s.writeTarget t data 0 = s) :
    step s = .next { s.writeTarget t data strb with pending := rest, response := some (.write .okay) } := by
  by_cases h0 : strb = 0
  · subst h0
    rw [step_write_zeroStrobe h ht, hz]
    rfl
  · exact step_write_idle h ht h0 (.inl hb)

theorem writeReg_ctrl (s : State) (data : Word) (strb : BitVec 4) :
    s.writeReg .ctrl data strb = { s with irqEn := if strb.getLsbD 0 then data.getLsbD 0 else s.irqEn } := by
  simp only [State.writeReg]
  split <;> rfl

/-- Keeping a word's low half is masking it, as WINDOW does with what is written (R23). -/
theorem setWidth_setWidth_eq_and (w : Word) : (w.setWidth 16).setWidth 32 = w &&& 0xFFFF := by
  apply BitVec.eq_of_toNat_eq
  have hmask : (0xFFFF : Word).toNat = 2 ^ 16 - 1 := rfl
  rw [BitVec.toNat_and, hmask, Nat.and_two_pow_sub_one_eq_mod, BitVec.toNat_setWidth, BitVec.toNat_setWidth]
  omega

/-- Setting an entry of FREQ leaves every other (R30). -/
theorem freqAt_set (f : Vector Word 256) (sym v : Byte) (w : Word) :
    freqAt (f.set sym.toNat w) v = if v = sym then w else freqAt f v := by
  simp only [freqAt, Vector.getElem_set, BitVec.toNat_inj, eq_comm (a := sym)]

/-- Settles O14: what each register's write and an entry's write store. -/
theorem writesUpdateOperandRegistersByLane : Obligations.WritesUpdateOperandRegistersByLane := by
  intro s addr data strb rest off hb h0 ha hs a
  have reg (r : Reg) (ho : off = r.offset) :
      step s = .next { s.writeReg r data strb with pending := rest, response := some (.write .okay) } :=
    step_write_idle hs (busTarget_reg r (ho ▸ ha)) h0 (.inl hb)
  refine ⟨fun ho => ?_, reg .inLen, reg .bitLen, reg .symCount, fun ho => ?_, reg .cursor, reg .tokBytes,
    fun sym ho => ?_⟩
  · rw [reg .ctrl ho, writeReg_ctrl]
    rfl
  · exact ⟨_, reg .window ho, setWidth_setWidth_eq_and _⟩
  · subst ho
    have ht := (busTarget_of_address ha (by omega)).trans (decodeOffset_freq sym)
    exact ⟨_, step_write_idle hs ht h0 (.inl hb), fun v => freqAt_set _ _ _ _⟩

/-- A word that no write changes. -/
def Target.ReadOnly (t : Target) : Prop := ∀ s data strb, State.writeTarget s t data strb = s

/-- The read-only registers (R15, R20, R25, R27-R29). -/
theorem readOnly_reg {r : Reg} (h : r.offset ∈ [0x000, 0x014, 0x028, 0x030, 0x034, 0x038]) :
    (Target.reg r).ReadOnly := by
  intro s data strb
  cases r
  case id | outLen | token | nodeCount | root | errInfo => rfl
  all_goals exact absurd h (by decide)

/-- The read-only rows of the map reach read-only words (R46). -/
theorem decodeOffset_readOnly {p : Params} {off : Nat} {t : Target} (h : decodeOffset p off = some t)
    (ho : off ∈ [0x000, 0x014, 0x028, 0x030, 0x034, 0x038] ∨ (0x2000 ≤ off ∧ off ≤ 0x7FFF) ∨
      (0x02000000 ≤ off ∧ off < 0x04000000)) : t.ReadOnly := by
  have hr := decodeOffset_reaches p off
  have hbuf := bufMax_pos p
  rw [h] at hr
  generalize hx : some t = x at hr
  have far (hlo : 0x1000 ≤ off) : off ∉ [0x000, 0x014, 0x028, 0x030, 0x034, 0x038] := by
    simp only [List.mem_cons, List.not_mem_nil, or_false]; omega
  cases hr with
  | reg hlt =>
    obtain ⟨r, hr, rfl⟩ := Option.map_eq_some_iff.1 hx.symm
    obtain rfl := Reg.ofOffset_eq_some.1 hr
    exact readOnly_reg (ho.resolve_right (by omega))
  | node | code | outMem => cases hx; exact fun _ _ _ => rfl
  | unmapped => cases hx
  | freq | inMem | tokMem | bitMem =>
    have := ho.resolve_left (far (by omega))
    omega

/-- Settles O15: the offsets reach read-only words, which a write of any strobe leaves. -/
theorem writesToReadOnlyStateChangeNothing : Obligations.WritesToReadOnlyStateChangeNothing := by
  intro s addr data strb rest off hb ha hs ho
  obtain ⟨t, ht, hd⟩ := ha.target
  have hro := decodeOffset_readOnly hd ho
  rw [step_write_notBusy hs ht hb (hro s data 0), hro s data strb]
  rfl

/-! ## The memories (R43, R44) -/

/-- Settles O21: the memory's row of the map, then its word's lanes. -/
theorem memoryWordsReadLittleEndian : Obligations.MemoryWordsReadLittleEndian := by
  intro s addr rest off j hb ha hs hj reads
  have word (m : Memory Byte) (t : Target) (ht : busTarget s.params addr = some t)
      (hm : s.readTarget t = readLanes m j s.draws) : reads m := by
    obtain ⟨hlanes, hdraws⟩ := readLanes_getLane m j s.draws
    exact ⟨_, _, hm ▸ step_read_idle hs ht (.inl hb), hlanes, hdraws⟩
  refine ⟨?_, ?_, ?_⟩ <;> rintro rfl hlt
  · exact word _ _ ((busTarget_of_address ha (by omega)).trans (decodeOffset_inMem hlt)) rfl
  · exact word _ _ ((busTarget_of_address ha (by omega)).trans (decodeOffset_outMem hlt)) rfl
  · exact word _ _ ((busTarget_of_address ha (by omega)).trans (decodeOffset_tokMem hlt)) rfl

/-- A BITMEM word's address reaches it. -/
theorem busTarget_bitMem {p : Params} {addr : Word} {j : Nat} (h : addr.toNat = p.base + 0x08000000 + j)
    (hj : j % 4 = 0) (hlt : j < p.bitMax) : busTarget p addr = some (.bitMem j) :=
  (busTarget_of_address (h.trans (Nat.add_assoc _ _ _)) (by omega)).trans (decodeOffset_bitMem hlt)

/-- Settles O22: BITMEM's row of the map, then its word's lanes. -/
theorem bitMemoryReadsOneEntryALane : Obligations.BitMemoryReadsOneEntryALane := by
  intro s addr rest j hb ha hs hj hlt
  obtain ⟨hbits, hlanes⟩ := readBitLanes_getLane s.bitMem j s.draws
  exact ⟨_, _, step_read_idle hs (busTarget_bitMem ha hj hlt) (.inl hb), hbits, hlanes⟩

theorem writeLanes_zeroStrobe (size j : Nat) (data : Word) (m : Memory Byte) : writeLanes size j data 0 m = m := by
  simp [writeLanes, writeLane]

theorem writeBitLanes_zeroStrobe (size j : Nat) (data : Word) (m : Memory Bool) :
    writeBitLanes size j data 0 m = m := by
  simp [writeBitLanes, writeBitLane]

/-- Settles O23: the memory's row of the map, then what a word write stores. -/
theorem memoryWritesStoreTheEnabledLanes : Obligations.MemoryWritesStoreTheEnabledLanes := by
  intro s addr data strb rest off j hb ha hs hj stores
  refine ⟨?_, ?_⟩ <;> rintro rfl hlt
  · have ht := (busTarget_of_address ha (by omega)).trans (decodeOffset_inMem hlt)
    have hz : s.writeTarget (.inMem j) data 0 = s := by rw [State.writeTarget, writeLanes_zeroStrobe]
    exact ⟨_, step_write_notBusy hs ht hb hz, get?_writeLanes _ _ _ _ _⟩
  · have ht := (busTarget_of_address ha (by omega)).trans (decodeOffset_tokMem hlt)
    have hz : s.writeTarget (.tokMem j) data 0 = s := by rw [State.writeTarget, writeLanes_zeroStrobe]
    exact ⟨_, step_write_notBusy hs ht hb hz, get?_writeLanes _ _ _ _ _⟩

/-- Settles O24: BITMEM's size is a multiple of 4, so every lane of a mapped word names an entry. -/
theorem bitMemoryWritesStoreBitZeroOfEachLane : Obligations.BitMemoryWritesStoreBitZeroOfEachLane := by
  intro s addr data strb rest j hb ha hs hj hlt
  have hz : s.writeTarget (.bitMem j) data 0 = s := by rw [State.writeTarget, writeBitLanes_zeroStrobe]
  have inside {k : Nat} (hk : k < 4) : j + k < s.params.bitMax := by
    simp only [Params.bitMax] at hlt ⊢; omega
  obtain ⟨hstored, hkept⟩ := get?_writeBitLanes s.params.bitMax j data strb s.bitMem
  exact ⟨_, step_write_notBusy hs (busTarget_bitMem ha hj hlt) hb hz, fun k hk hstrb => hstored k hk hstrb (inside hk),
    fun a hne => hkept a fun k hk hstrb _ => hne k hk hstrb⟩

/-! ## Transactions while BUSY (R53, R110) -/

/-- While BUSY the host writes CTRL and STATUS alone (R110). -/
theorem writableWhileBusy_cases {t : Target} (h : t.writableWhileBusy = true) : t = .reg .ctrl ∨ t = .reg .status := by
  cases t
  case reg r =>
    cases r
    case ctrl => exact .inl rfl
    case status => exact .inr rfl
    all_goals cases h
  all_goals cases h

/-- A write to STATUS can change DONE, ERR and OVR alone (R17). -/
theorem writeOneToClear_frame (st : Status) (data : Word) (strb : BitVec 4) :
    ∃ done err ovr, st.writeOneToClear data strb = { st with done := done, err := err, ovr := ovr } := by
  unfold Status.writeOneToClear
  split
  · exact ⟨_, _, _, rfl⟩
  · exact ⟨_, _, _, rfl⟩

/-- A write while BUSY changes at most CTRL, DONE, ERR and OVR, and answers. -/
theorem step_write_whileBusy {s : State} {addr data : Word} {strb : BitVec 4} {rest : List Event}
    (h : s.serves (.write addr data strb) rest) (hb : s.busy = true) :
    ∃ irqEn done err ovr r, step s = .next { s.answered rest r with
      irqEn := irqEn, status := { s.status with done := done, err := err, ovr := ovr } } := by
  cases ht : busTarget s.params addr with
  | none => exact ⟨_, _, _, _, _, step_write_unmapped h ht⟩
  | some t =>
    by_cases h0 : strb = 0
    · subst h0
      exact ⟨_, _, _, _, _, step_write_zeroStrobe h ht⟩
    cases hw : t.writableWhileBusy with
    | false => exact ⟨_, _, _, _, _, step_write_busy h ht h0 hb hw⟩
    | true =>
      have hstep := step_write_idle h ht h0 (.inr hw)
      rcases writableWhileBusy_cases hw with rfl | rfl
      · rw [State.writeTarget, writeReg_ctrl] at hstep
        exact ⟨_, _, _, _, _, hstep⟩
      · obtain ⟨done, err, ovr, e⟩ := writeOneToClear_frame s.status data strb
        rw [State.writeTarget, State.writeReg, State.acknowledge, e] at hstep
        exact ⟨_, done, err, ovr, _, hstep⟩

/-- Settles O28: a read changes its answer and the draws, and a write is one of those that BUSY allows or drops. -/
theorem hostCannotDisturbACommandInFlight : Obligations.HostCannotDisturbACommandInFlight := by
  rintro s e rest hb hs (⟨addr, rfl⟩ | ⟨addr, data, strb, rfl⟩)
  · obtain ⟨r, d, hstep⟩ := readsHaveNoSideEffect s addr rest hs
    exact ⟨_, _, _, _, r, d, hstep⟩
  · obtain ⟨irqEn, done, err, ovr, r, hstep⟩ := step_write_whileBusy hs hb
    exact ⟨irqEn, done, err, ovr, r, s.draws, hstep⟩

end Sys2Proof.Machine
end

section
/-! PROOFS. Command words (30_encoding.md R56-R60) and what each command leaves unchanged (R57).  A word is its two
fields, and the decoder's map of OPCODEs is the inverse of the table's; the operand table is read off what each
command's rule can change. -/

namespace Sys2Proof

/-! ## The fields of a command word (R56) -/

@[simp] theorem Cmd32.ofWord_toWord (c : Cmd32) : Cmd32.ofWord c.toWord = c := by
  rw [Cmd32.ofWord, Cmd32.toWord, BitVec.extractLsb'_append_eq_left, BitVec.extractLsb'_append_eq_right]

@[simp] theorem Cmd32.toWord_ofWord (w : Word) : (Cmd32.ofWord w).toWord = w :=
  (BitVec.extractLsb'_append_extractLsb'_eq_extractLsb' rfl).trans BitVec.extractLsb'_eq_self

/-- No two words have the same fields. -/
theorem Cmd32.ofWord_eq_iff {w : Word} {c : Cmd32} : Cmd32.ofWord w = c ↔ w = c.toWord :=
  ⟨fun h => h ▸ (Cmd32.toWord_ofWord w).symm, fun h => h ▸ Cmd32.ofWord_toWord c⟩

theorem Cmd32.ofWord_rsvd_eq_zero_iff (w : Word) : (Cmd32.ofWord w).rsvd = 0 ↔ w.toNat / 256 = 0 := by
  rw [← BitVec.toNat_inj, Cmd32.ofWord, BitVec.extractLsb'_toNat, Nat.shiftRight_eq_div_pow,
    Nat.mod_eq_of_lt (by omega)]
  rfl

theorem Cmd32.ofWord_opcode_toNat (w : Word) : (Cmd32.ofWord w).opcode.toNat = w.toNat % 256 := by
  rw [Cmd32.ofWord, BitVec.extractLsb'_toNat]
  rfl

/-! ## The opcode map (R58, R60) -/

theorem decodeOpcode_opcodeOf (i : Instr) : decodeOpcode (opcodeOf i) = some i := by cases i <;> rfl

/-- Each OPCODE the decoder knows is the one the table gives its command. -/
theorem opcodeOf_of_decodeOpcode {op : BitVec 8} {i : Instr} (h : decodeOpcode op = some i) : op = opcodeOf i := by
  unfold decodeOpcode at h
  split at h <;> cases h <;> exact BitVec.eq_of_toNat_eq ‹_›

theorem decodeOpcode_eq_some_iff {op : BitVec 8} {i : Instr} : decodeOpcode op = some i ↔ op = opcodeOf i :=
  ⟨opcodeOf_of_decodeOpcode, fun h => h ▸ decodeOpcode_opcodeOf i⟩

/-- The OPCODEs the decoder does not know are those R59 lists: a known one is none of them, and one that is not known
is in a range between two known ones, or above the last. -/
theorem decodeOpcode_eq_none_iff (op : BitVec 8) :
    decodeOpcode op = none ↔ (0x02 ≤ op.toNat ∧ op.toNat ≤ 0x0F) ∨ op.toNat = 0x17 ∨
      (0x1A ≤ op.toNat ∧ op.toNat ≤ 0x1F) ∨ (0x23 ≤ op.toNat ∧ op.toNat ≤ 0xFF) := by
  unfold decodeOpcode
  split <;> simp only [true_iff, reduceCtorEq, false_iff, imp_false] at * <;> omega

/-! ## The decoder (R60) -/

section
variable {w : Word}

theorem decode_rsvdNotZero (hr : (Cmd32.ofWord w).rsvd ≠ 0) : decode w = .illegal w .rsvdNotZero := if_pos hr

theorem decode_opcodeInMap {i : Instr} (hr : (Cmd32.ofWord w).rsvd = 0)
    (ho : decodeOpcode (Cmd32.ofWord w).opcode = some i) : decode w = .command i := by
  simp only [decode, hr, ho, ne_eq, not_true_eq_false, if_false]

theorem decode_opcodeNotInMap (hr : (Cmd32.ofWord w).rsvd = 0)
    (ho : decodeOpcode (Cmd32.ofWord w).opcode = none) : decode w = .illegal w .opcodeNotInMap := by
  simp only [decode, hr, ho, ne_eq, not_true_eq_false, if_false]

end

/-- A word is a command when its RSVD is 0 and its OPCODE is the command's. -/
theorem decode_eq_command_iff_fields (w : Word) (i : Instr) :
    decode w = .command i ↔ (Cmd32.ofWord w).rsvd = 0 ∧ decodeOpcode (Cmd32.ofWord w).opcode = some i := by
  by_cases hr : (Cmd32.ofWord w).rsvd = 0
  · cases ho : decodeOpcode (Cmd32.ofWord w).opcode with
    | none => simp [decode_opcodeNotInMap hr ho]
    | some j => simp [decode_opcodeInMap hr ho, hr]
  · simp only [decode_rsvdNotZero hr, hr, reduceCtorEq, false_and]

/-- Settles O2: a word is its fields, and its OPCODE decodes to the command whose OPCODE it is. -/
theorem onlyACommandsOwnWordDecodesToIt : Obligations.OnlyACommandsOwnWordDecodesToIt := by
  intro w i
  calc decode w = .command i
    _ ↔ (Cmd32.ofWord w).rsvd = 0 ∧ decodeOpcode (Cmd32.ofWord w).opcode = some i := decode_eq_command_iff_fields ..
    _ ↔ (Cmd32.ofWord w).rsvd = 0 ∧ (Cmd32.ofWord w).opcode = opcodeOf i := by rw [decodeOpcode_eq_some_iff]
    _ ↔ Cmd32.ofWord w = { rsvd := 0, opcode := opcodeOf i } := (Cmd32.mk.injEq ..).to_iff.symm
    _ ↔ w = encode i := Cmd32.ofWord_eq_iff

theorem decode_encode (i : Instr) : decode (encode i) = .command i := (onlyACommandsOwnWordDecodesToIt _ i).2 rfl

/-- Settles O1: six of the words are encodings; the other two are met by the tests of RSVD and OPCODE. -/
theorem tableWordsDecodeToTheirCommands : Obligations.TableWordsDecodeToTheirCommands :=
  ⟨decode_encode .nop, decode_encode .clear, decode_encode .hbuild, decode_encode .hwalk, decode_encode .hencode,
    decode_encode .lzdecode, by decide, by decide⟩

/-! ## Illegal words (R59) -/

/-- A word is no command when its RSVD is not 0 or the decoder does not know its OPCODE. -/
theorem decode_ne_command_iff (w : Word) :
    (¬ ∃ i, decode w = .command i) ↔
      (Cmd32.ofWord w).rsvd ≠ 0 ∨ decodeOpcode (Cmd32.ofWord w).opcode = none := by
  simp only [decode_eq_command_iff_fields, exists_and_left, ← Option.isSome_iff_exists, not_and_or,
    Option.not_isSome_iff_eq_none, ne_eq]

/-- A word that is no command is kept whole (R95). -/
theorem decode_eq_illegal {w : Word} (h : ¬ ∃ i, decode w = .command i) : ∃ why, decode w = .illegal w why := by
  by_cases hr : (Cmd32.ofWord w).rsvd = 0
  · exact ⟨_, decode_opcodeNotInMap hr (((decode_ne_command_iff w).1 h).resolve_left (not_not_intro hr))⟩
  · exact ⟨_, decode_rsvdNotZero hr⟩

end Sys2Proof

namespace Sys2Proof.Machine

/-- A write of all four lanes stores the data (R41). -/
theorem mergeLanes_allLanes (old data : Word) : mergeLanes old data 0b1111 = data :=
  word_ext_lanes fun k hk => by
    rw [lane_mergeLanes old data _ hk, if_pos (by interval_cases k <;> rfl)]

/-- A whole word written to CMD outside BUSY is accepted (R18, R93). -/
theorem step_write_cmd {s : State} {addr w : Word} {rest : List Event} (hb : s.busy = false)
    (ha : addr.toNat = s.params.base + 0x00C) (hs : s.serves (.write addr w 0b1111) rest) :
    step s = .next ((s.accept w).answered rest (.write .okay)) := by
  rw [step_write_idle hs (busTarget_reg .cmd ha) (by decide) (.inl hb), State.writeTarget, State.writeReg,
    mergeLanes_allLanes]
  rfl

/-- The core's turn on an accepted illegal word (R59, R94). -/
theorem step_coreTurn_illegal {s : State} {w : Word} {rest : List Event} (hr : s.rst = false)
    (hp : s.pending = .coreTurn :: rest) (hf : s.inflight = some w) (hd : ¬ ∃ i, decode w = .command i) :
    step s = .next (State.endsWith { s with pending := rest } .illegalCommand w) := by
  obtain ⟨why, hd⟩ := decode_eq_illegal hd
  rw [step_cons hp]
  exact coreStep_illegal (s := { s with pending := rest }) hr hf hd

/-- Settles O3: the fields of an illegal word, then the step that accepts it and the core's turn. -/
theorem illegalWordsCompleteWithTheWordInErrinfo : Obligations.IllegalWordsCompleteWithTheWordInErrinfo := by
  refine fun w => ⟨?_, fun hd s addr rest hb ha hs => ?_⟩
  · rw [decode_ne_command_iff, decodeOpcode_eq_none_iff, Cmd32.ofWord_opcode_toNat, ne_eq,
      Cmd32.ofWord_rsvd_eq_zero_iff]
  · exact ⟨_, step_write_cmd hb ha hs, rfl, step_coreTurn_illegal hs.1 rfl rfl hd⟩

/-! ## What a command leaves unchanged (R57) -/

/-- What no stage of HENCODE or HDECODE writes. -/
def State.besidesCodec (s : State) :=
  (s.params, s.irqEn, s.window, s.status.ovr, s.inMem, s.rst, s.response, s.pending, s.tokMem, s.tokBytes, s.token,
    s.cursor, s.inLen, s.symCount)

/-- HENCODE writes FREQ, the tables, the bits and the output alone, as its stages do (R77). -/
theorem hencodeRule_besidesCodec (s : State) : (hencodeRule s).state.besidesCodec = s.besidesCodec := by
  refine hencodeRule_keeps (P := fun t => t.besidesCodec = s.besidesCodec) rfl ?freq ?build ?assign ?emit ?pack <;>
    intro t h
  case freq => obtain ⟨f, d, e⟩ := hfreqRule_state t; rw [e]; exact h
  case build => obtain ⟨ns, nc, rt, cs, tv, cv, e⟩ := hbuildRule_state t; rw [e]; exact h
  case assign => obtain ⟨cs, v, e⟩ := hassignRule_state t; rw [e]; exact h
  case emit => obtain ⟨bits, d, n, e, -⟩ := hemitRule_state t; rw [e]; exact h
  case pack => obtain ⟨out, d, n, e, -⟩ := hpackRule_state t; rw [e]; exact h

/-- HDECODE writes the bits and the output alone, as its stages do (R78). -/
theorem hdecodeRule_besidesCodec (s : State) :
    ((hdecodeRule s).state.besidesCodec, (hdecodeRule s).state.freq, (hdecodeRule s).state.tables) =
      (s.besidesCodec, s.freq, s.tables) := by
  refine hdecodeRule_keeps (P := fun t => (t.besidesCodec, t.freq, t.tables) = (s.besidesCodec, s.freq, s.tables)) rfl
    ?unpack ?walk <;> intro t h
  case unpack => obtain ⟨bits, d, n, e, -⟩ := hunpackRule_state t; rw [e]; exact h
  case walk => obtain ⟨out, d, n, e, -⟩ := hwalkRule_state t; rw [e]; exact h

/-- Settles O55: completion writes none of the items (R94), and each rule only those of its row. -/
theorem commandsWriteOnlyTheirOwnState : Obligations.CommandsWriteOnlyTheirOwnState := by
  intro i s t h
  rw [exec_eq] at h
  cases h
  cases i with
  | nop => simp [rule, nopRule]
  | clear => simp [rule, clearRule]
  | hfreq => obtain ⟨f, d, e⟩ := hfreqRule_state s; simp [rule, e]
  | hbuild => obtain ⟨ns, nc, rt, cs, tv, cv, e⟩ := hbuildRule_state s; simp [rule, e]
  | hassign => obtain ⟨cs, v, e⟩ := hassignRule_state s; simp [rule, e]
  | hemit => obtain ⟨bits, d, n, e, -⟩ := hemitRule_state s; simp [rule, e]
  | hpack => obtain ⟨out, d, n, e, -⟩ := hpackRule_state s; simp [rule, e]
  | hunpack => obtain ⟨bits, d, n, e, -⟩ := hunpackRule_state s; simp [rule, e]
  | hwalk => obtain ⟨out, d, n, e, -⟩ := hwalkRule_state s; simp [rule, e]
  | hencode =>
    have e := hencodeRule_besidesCodec s
    simp only [State.besidesCodec, Prod.mk.injEq] at e
    simp [rule, e]
  | hdecode =>
    have e := hdecodeRule_besidesCodec s
    simp only [State.besidesCodec, State.tables, Prod.mk.injEq] at e
    simp [rule, e]
  | lzmatch => obtain ⟨t, n, d, e⟩ := lzmatchRule_state s; simp [rule, e]
  | lzencode => obtain ⟨toks, t, n, k, d, e, -⟩ := lzencodeRule_state s; simp [rule, e]
  | lzdecode => obtain ⟨out, d, n, e, -⟩ := lzdecodeRule_state s; simp [rule, e]

end Sys2Proof.Machine
end

section
/-! PROOFS. The frequency table, the tree and the codes (40_huffman_tree.md R68-R72).  What HFREQ, HBUILD and HASSIGN
end in is said once by `exec_hfreq`, `exec_hbuild` and `exec_hassign`; what the counts, the arena and the table are
is the subject of Laws/Frequency, Laws/Arena and Laws/Codes. -/

namespace Sys2Proof.Machine

/-! ## HFREQ (R68) -/

theorem exec_hfreq_of_bufMax_lt {s : State} (h : s.params.bufMax < s.inLen.toNat) :
    exec .hfreq s = .next (s.endsWith .parameter 0x010) := by
  rw [exec_eq, rule, hfreqRule, if_pos h]; rfl

theorem exec_hfreq_of_empty {s : State} (h : s.inLen = 0) : exec .hfreq s = .next (s.endsWith .emptyInput 0) := by
  have hfits : ¬ s.params.bufMax < s.inLen.toNat := by simp [h]
  rw [exec_eq, rule, hfreqRule, if_neg hfits, if_pos h]; rfl

/-- HFREQ with an input that passes its checks writes FREQ alone. -/
theorem exec_hfreq {s : State} (h : s.inLen.toNat ≤ s.params.bufMax) (h0 : s.inLen ≠ 0) :
    exec .hfreq s = .next { s.endsWell with
      freq := (countBytes s.inMem s.inLen.toNat 0 noCounts s.draws).1
      draws := (countBytes s.inMem s.inLen.toNat 0 noCounts s.draws).2 } := by
  rw [exec_eq, rule, hfreqRule_run h h0]; rfl

/-- The counts of an input's bytes, whatever they are, add up to its length. -/
theorem tableSum_countBytes_noCounts (m : Memory Byte) (len : Word) (d : Nat) :
    tableSum (countBytes m len.toNat 0 noCounts d).1 = len.toNat := by
  have hlen : tableSum noCounts + len.toNat < 2 ^ 32 := by rw [tableSum_noCounts, Nat.zero_add]; exact len.isLt
  rw [tableSum_countBytes m _ _ _ _ hlen, tableSum_noCounts, Nat.zero_add]

/-- Settles O36, by the checks in their order; the counts of a written input are a fold over its bytes. -/
theorem hfreqCountsTheInputBytes : Obligations.HfreqCountsTheInputBytes := by
  refine ⟨decode_encode .hfreq, fun s => ⟨exec_hfreq_of_bufMax_lt, exec_hfreq_of_empty, fun hpos hle => ?_⟩⟩
  have h0 : s.inLen ≠ 0 := fun h => by simp [h] at hpos
  refine ⟨_, _, exec_hfreq hle h0, tableSum_countBytes_noCounts .., fun inp hlen hin => ?_⟩
  have hfits : inp.length < 2 ^ 32 := hlen ▸ s.inLen.isLt
  rw [← hlen, countBytes_of_holds hin]
  exact ⟨rfl, freqAt_count inp hfits⟩

/-- Right after an HFREQ that raised nothing FREQ adds up to IN_LEN. -/
theorem tableSum_of_exec_hfreq {r s : State} (h : exec .hfreq r = .next s) (herr : s.status.err = false) :
    tableSum s.freq = s.inLen.toNat := by
  by_cases hlt : r.params.bufMax < r.inLen.toNat
  · rw [exec_hfreq_of_bufMax_lt hlt] at h
    cases h; cases herr
  · by_cases h0 : r.inLen = 0
    · rw [exec_hfreq_of_empty h0] at h
      cases h; cases herr
    · rw [exec_hfreq (Nat.le_of_not_lt hlt) h0] at h
      cases h
      exact tableSum_countBytes_noCounts ..

/-! ## HBUILD (R69, R70) -/

/-- The block after HBUILD of a table with a present symbol (R69). -/
def State.afterHbuild (s : State) : State :=
  { s with
    node := arenaOf (buildNodes s.freq)
    nodeCount := BitVec.ofNat 10 (2 * (present s.freq).length - 1)
    root := BitVec.ofNat 9 (2 * (present s.freq).length - 2)
    code := noCodes
    status := { s.status with treeValid := true, codesValid := false, done := true }
    inflight := none }

theorem exec_hbuild_of_empty {s : State} (h : present s.freq = []) :
    exec .hbuild s = .next (s.endsWith .emptyInput 0) := by
  rw [exec_eq, rule, hbuildRule_eq, if_pos h]; rfl

theorem exec_hbuild {s : State} (h : present s.freq ≠ []) : exec .hbuild s = .next s.afterHbuild := by
  rw [exec_eq, rule, hbuildRule_eq, if_neg h]; rfl

/-- ROOT holds the index of the last node made: at most 256 symbols make a tree of at most 511 nodes. -/
theorem afterHbuild_root_toNat (s : State) : s.afterHbuild.root.toNat = 2 * (present s.freq).length - 2 := by
  have hn := present_length_le s.freq
  rw [State.afterHbuild, BitVec.toNat_ofNat, Nat.mod_eq_of_lt (by omega)]

theorem treeOf_afterHbuild {s : State} (h : present s.freq ≠ []) :
    TreeOf s.afterHbuild.node (present s.freq).length :=
  (buildNodes_arena s.freq h).1

/-- The root carries the frequencies of the whole table (R70). -/
theorem afterHbuild_root_freq {s : State} (h : present s.freq ≠ []) :
    (nodeAt s.afterHbuild.node s.afterHbuild.root).freq.toNat = tableSum s.freq := by
  obtain ⟨-, -, -, -, hweight⟩ := buildNodes_arena s.freq h
  rw [nodeAt_eq_nodeN, afterHbuild_root_toNat]
  exact hweight

/-- Settles O37: the arena is that of the merge loop, whose leaves, merges and zero tail are known. -/
theorem hbuildMergesTheTwoLeastNodes : Obligations.HbuildMergesTheTwoLeastNodes := by
  refine ⟨decode_encode .hbuild, fun s => ⟨exec_hbuild_of_empty, fun h => ?_⟩⟩
  obtain ⟨-, hleaves, hmerges, hzeros, -⟩ := buildNodes_arena s.freq h
  exact ⟨_, _, exec_hbuild h, codeAt_noCodes, hleaves, hmerges, hzeros⟩

/-- Settles O38: every move of a path leaves a merged node for a lower index, and a tree has n - 1 merged nodes. -/
theorem hbuildBuildsATreeOfItsTable : Obligations.HbuildBuildsATreeOfItsTable := by
  intro s h n
  have htree := treeOf_afterHbuild h
  have hroot := afterHbuild_root_toNat s
  have hn := htree.leaves
  refine ⟨_, exec_hbuild h, hroot, htree, afterHbuild_root_freq h, fun r hr herr => ?_, fun path sym hp => ?_⟩
  · rw [afterHbuild_root_freq h, tableSum_of_exec_hfreq hr herr]
  · have := htree.depth_le (by omega) hp
    omega

/-! ## HASSIGN (R71, R72) -/

/-- The block after HASSIGN with a tree (R71). -/
def State.afterHassign (s : State) : State :=
  { s with
    code := assignCodes s.node s.root
    status := { s.status with codesValid := true, done := true }
    inflight := none }

theorem exec_hassign_of_noTree {s : State} (h : s.status.treeValid = false) :
    exec .hassign s = .next (s.endsWith .state 1) := by
  rw [exec_eq, rule, hassignRule, if_pos h]; rfl

theorem exec_hassign {s : State} (h : s.status.treeValid = true) : exec .hassign s = .next s.afterHassign := by
  rw [exec_eq, rule, hassignRule_run h]; rfl

/-- Settles O39: TREE_VALID promises a tree, and the traversal of a tree writes its code table. -/
theorem hassignGivesEachSymbolItsPath : Obligations.HassignGivesEachSymbolItsPath := by
  refine ⟨decode_encode .hassign, fun s => ⟨exec_hassign_of_noTree, fun hv => ⟨_, exec_hassign hv, fun hs => ?_⟩⟩⟩
  obtain ⟨n, htree, -, hroot⟩ := hs.tree hv
  exact htree.assignCodes_isCodeTable hroot

/-- A symbol with a code under a table is the only one whose code can begin with it (R72). -/
theorem IsCodeTable.prefixFree {ns : Vector Node 511} {root : BitVec 9} {cs : Vector (List Bool) 256}
    (h : IsCodeTable ns root cs) {x y : Byte} (hxy : x ≠ y) (hx : codeAt cs x ≠ []) : ¬ codeAt cs x <+: codeAt cs y := by
  intro hp
  have hy : codeAt cs y ≠ [] := fun e => hx (List.prefix_nil.1 (e ▸ hp))
  exact hxy ((h.isCodeOf hx).prefixFree (h.isCodeOf hy) hp)

/-- Settles O40: after HBUILD the table HASSIGN writes is the code table of a tree whose symbols are the present
ones, and both are functions of FREQ. -/
theorem codesArePrefixFreeAndDeterministic : Obligations.CodesArePrefixFreeAndDeterministic := by
  intro s h
  have htree := treeOf_afterHbuild h
  have hroot := afterHbuild_root_toNat s
  have htable := htree.assignCodes_isCodeTable hroot
  refine ⟨_, _, exec_hbuild h, exec_hassign rfl, fun sym => ?_, fun x y hxy hx => htable.prefixFree hxy hx,
    fun sym hne => ?_, fun s' t' u' hfreq ht hu => ?_⟩
  · exact htable.ne_nil_iff.trans (leads_iff_present s.freq h hroot sym)
  · have hcode := htable.isCodeOf hne
    obtain ⟨hlo, hhi⟩ := htree.code_length hroot hcode
    exact ⟨hlo, hhi, hcode⟩
  · rw [exec_hbuild (hfreq ▸ h)] at ht
    cases ht
    rw [exec_hassign rfl] at hu
    cases hu
    simp only [State.afterHassign, State.afterHbuild, hfreq, and_self]

end Sys2Proof.Machine
end

section
/-! PROOFS. The Huffman bit stream (41_huffman_bits.md R73-R79).  What each of the four stages ends in is said once, by
equations of its rule on written elements; the composites are those equations chained, and the round trip is the
decoder's equation on the encoder's output. -/

namespace Sys2Proof.Machine

/-! ## Positions, lengths and runs -/

/-- A bit count of BITMEM fits its register (R8, R21). -/
theorem toNat_ofNat_of_le_bitMax {p : Params} {n : Nat} (h : n ≤ p.bitMax) : (BitVec.ofNat 32 n).toNat = n := by
  have hmax := bufMax_pos p
  rw [Params.bitMax] at h
  rw [BitVec.toNat_ofNat, Nat.mod_eq_of_lt (by omega)]

/-- A run written from index 0 is held there, and every entry past it is as it was. -/
theorem Memory.writeList_zero_spec {α : Type} (m : Memory α) (vs : List α) :
    (m.writeList 0 vs).Holds 0 vs ∧ (m.writeList 0 vs).SameOutside m 0 vs.length := by
  have hrest := Memory.sameOutside_writeList m 0 vs
  rw [Nat.zero_add] at hrest
  exact ⟨Memory.holds_writeList m 0 vs, hrest⟩

theorem ne_zero_of_toNat_pos {n : Nat} {x : BitVec n} (h : 0 < x.toNat) : x ≠ 0 := fun e => by simp [e] at h

/-! ## HEMIT (R73) -/

/-- The block with the codes of an input, as the rule of HEMIT leaves it when they all fit. -/
def State.emitted (s : State) (inp : List Byte) : State :=
  { s with
    bitMem := s.bitMem.writeList 0 (inp.flatMap (codeAt s.code))
    bitLen := BitVec.ofNat 32 (inp.flatMap (codeAt s.code)).length }

section
variable {s : State} (hle : s.inLen.toNat ≤ s.params.bufMax) (hvalid : s.status.codesValid = true)
  (hpos : 0 < s.inLen.toNat)

/-- The loop of HEMIT past the bytes `pre`, which have codes that fit. -/
theorem emitLoop_past {pre : List Byte} {k : Nat} (hlen : s.inLen.toNat = pre.length + k)
    (hin : s.inMem.Holds 0 pre) (hcodes : ∀ b ∈ pre, codeAt s.code b ≠ [])
    (hfits : (pre.flatMap (codeAt s.code)).length ≤ s.params.bitMax) :
    emitLoop s.params.bitMax s.code s.inMem s.inLen.toNat 0 0 s.bitMem s.draws =
      emitLoop s.params.bitMax s.code s.inMem k pre.length (pre.flatMap (codeAt s.code)).length
        (s.bitMem.writeList 0 (pre.flatMap (codeAt s.code))) s.draws := by
  rw [hlen, emitLoop_append hin hcodes k 0 s.bitMem s.draws (by omega), Nat.zero_add, Nat.zero_add]

include hle hvalid hpos

/-- HEMIT of an input whose bytes all have codes, which fit together. -/
theorem hemitRule_of_codes {inp : List Byte} (hlen : inp.length = s.inLen.toNat) (hin : s.inMem.Holds 0 inp)
    (hcodes : ∀ b ∈ inp, codeAt s.code b ≠ []) (hfits : (inp.flatMap (codeAt s.code)).length ≤ s.params.bitMax) :
    hemitRule s = .done (s.emitted inp) :=
  hemitRule_run hle hvalid (ne_zero_of_toNat_pos hpos) (emitLoop_past (k := 0) hlen.symm hin hcodes hfits)

/-- HEMIT of an input whose loop stops with the error `e` after the bytes `pre`. -/
theorem exec_hemit_stops {pre : List Byte} {k : Nat} {e : BlockError} (hlen : s.inLen.toNat = pre.length + k)
    (hin : s.inMem.Holds 0 pre) (hcodes : ∀ b ∈ pre, codeAt s.code b ≠ [])
    (hfits : (pre.flatMap (codeAt s.code)).length ≤ s.params.bitMax)
    (hstop : ∀ p bits d, p = (pre.flatMap (codeAt s.code)).length →
      emitLoop s.params.bitMax s.code s.inMem k pre.length p bits d =
        { error := some e, pos := p, bits := bits, draws := d }) :
    exec .hemit s = .next { s.endsWith e.code e.info with
      bitMem := s.bitMem.writeList 0 (pre.flatMap (codeAt s.code)), bitLen := 0 } := by
  rw [exec_eq, rule, hemitRule_run hle hvalid (ne_zero_of_toNat_pos hpos)
    ((emitLoop_past hlen hin hcodes hfits).trans (hstop _ _ _ rfl))]
  rfl

end

/-- Settles O41: the checks in their order, then the loop past the bytes whose codes fit, to the end or to the first
byte at which it stops. -/
theorem hemitConcatenatesTheCodes : Obligations.HemitConcatenatesTheCodes := by
  refine ⟨decode_encode .hemit, fun s => ⟨fun hlt => ?_, fun hle hvalid => ?_, fun hvalid h0 => ?_,
    fun hpos hle hvalid inp hlen hin => ⟨fun hcodes hfits => ?_, fun pre b post hsplit hcodes hfits => ?_⟩⟩⟩
  · rw [exec_eq, rule, hemitRule, if_pos hlt]; rfl
  · rw [exec_eq, rule, hemitRule, if_neg (Nat.not_lt.2 hle), if_pos hvalid]; rfl
  · rw [exec_eq, rule, hemitRule, if_neg (by simp [h0]), if_neg (by simp [hvalid]), if_pos h0]; rfl
  · refine ⟨_, ?_, Memory.writeList_zero_spec _ _⟩
    rw [exec_eq, rule, hemitRule_of_codes hle hvalid hpos hlen hin hcodes hfits]; rfl
  · subst hsplit
    rw [Memory.holds_append, Memory.holds_cons, Nat.zero_add] at hin
    obtain ⟨hpre, hb, -⟩ := hin
    rw [List.length_append, List.length_cons] at hlen
    refine ⟨fun hnone => ⟨_, ?_, Memory.writeList_zero_spec _ _⟩,
      fun hcode hroom => ⟨_, ?_, Memory.writeList_zero_spec _ _⟩⟩
    · exact exec_hemit_stops (e := .treeMismatch pre.length) hle hvalid hpos hlen.symm hpre hcodes hfits
        fun p bits d _ => emitLoop_noCode hb hnone _ p bits d
    · exact exec_hemit_stops (e := .capacity pre.length) hle hvalid hpos hlen.symm hpre hcodes hfits
        fun p bits d hp => emitLoop_noRoom hb hcode _ p bits d (hp ▸ hroom)

/-! ## HPACK (R74) -/

theorem exec_hpack {s : State} (h : s.bitLen.toNat ≤ s.params.bitMax) {r : Memory Byte × Nat}
    (hr : packLoop s.bitMem s.bitLen.toNat ((s.bitLen.toNat + 7) / 8) 0 s.outMem s.draws = r) :
    exec .hpack s = .next { s.endsWell with
      outMem := r.1, draws := r.2, outLen := BitVec.ofNat 32 ((s.bitLen.toNat + 7) / 8) } := by
  rw [exec_eq, rule, hpackRule_run h hr]; rfl

/-- The loop of HPACK on bits that have been written. -/
theorem packLoop_written {s : State} {bits : List Bool} (hlen : bits.length = s.bitLen.toNat)
    (hbits : s.bitMem.Holds 0 bits) :
    packLoop s.bitMem s.bitLen.toNat ((s.bitLen.toNat + 7) / 8) 0 s.outMem s.draws =
      (s.outMem.writeList 0 (packedBytes bits), s.draws) := by
  rw [← hlen]; exact packLoop_packs hbits _ _

/-- HPACK of BIT_LEN bits that have been written. -/
theorem hpackRule_of_holds {s : State} {bits : List Bool} (hfits : bits.length ≤ s.params.bitMax)
    (hlen : s.bitLen = BitVec.ofNat 32 bits.length) (hbits : s.bitMem.Holds 0 bits) :
    hpackRule s = .done { s with
      outMem := s.outMem.writeList 0 (packedBytes bits), outLen := BitVec.ofNat 32 ((bits.length + 7) / 8) } := by
  have hn : s.bitLen.toNat = bits.length := by rw [hlen, toNat_ofNat_of_le_bitMax hfits]
  rw [hpackRule_run (hn ▸ hfits) (packLoop_written hn.symm hbits), hn]

/-- Settles O42: the loop writes the bytes below OUT_LEN alone, and on written bits they are the packed bytes. -/
theorem hpackPacksTheBits : Obligations.HpackPacksTheBits := by
  refine ⟨decode_encode .hpack, fun s => ⟨fun hlt => ?_,
    fun hle => ⟨_, _, exec_hpack hle rfl, ?_, fun bits hlen hbits => ?_⟩⟩⟩
  · rw [exec_eq, rule, hpackRule, if_pos hlt]; rfl
  · have hframe := (packLoop_frame s.bitMem s.bitLen.toNat ((s.bitLen.toNat + 7) / 8) 0 s.outMem s.draws).1
    rwa [Nat.zero_add] at hframe
  · rw [packLoop_written hlen hbits]
    exact ⟨rfl, packedAs_of_holds (Memory.holds_writeList _ _ _)⟩

/-! ## HUNPACK (R75) -/

theorem exec_hunpack {s : State} (h : s.inLen.toNat ≤ s.params.bufMax) {r : Memory Bool × Nat}
    (hr : unpackLoop s.inMem s.inLen.toNat 0 s.bitMem s.draws = r) :
    exec .hunpack s = .next { s.endsWell with
      bitMem := r.1, draws := r.2, bitLen := BitVec.ofNat 32 (8 * s.inLen.toNat) } := by
  rw [exec_eq, rule, hunpackRule_run h hr]; rfl

/-- The loop of HUNPACK on an input that has been written. -/
theorem unpackLoop_written {s : State} {inp : List Byte} (hlen : inp.length = s.inLen.toNat)
    (hin : s.inMem.Holds 0 inp) :
    unpackLoop s.inMem s.inLen.toNat 0 s.bitMem s.draws =
      (s.bitMem.writeList 0 (inp.flatMap unpackByte), s.draws) := by
  rw [← hlen]; exact unpackLoop_of_holds hin _ _

/-- The block with the bits of an input, as the rule of HUNPACK leaves it. -/
def State.unpacked (s : State) (inp : List Byte) : State :=
  { s with
    bitMem := s.bitMem.writeList 0 (inp.flatMap unpackByte)
    bitLen := BitVec.ofNat 32 (8 * inp.length) }

section
variable {s : State} {inp : List Byte} (hle : s.inLen.toNat ≤ s.params.bufMax) (hlen : inp.length = s.inLen.toNat)
include hle hlen

theorem unpackedBits_length_le : (inp.flatMap unpackByte).length ≤ s.params.bitMax := by
  rw [flatMap_unpackByte_length, hlen]; exact Nat.mul_le_mul_left 8 hle

/-- HPACK of the bits that HUNPACK expanded packs the bytes again (R75). -/
theorem exec_hpack_of_unpacked : exec .hpack (s.unpacked inp).endsWell = .next { (s.unpacked inp).endsWell with
    outMem := s.outMem.writeList 0 inp, outLen := s.inLen } := by
  have hbits := flatMap_unpackByte_length inp
  have hbytes : (8 * s.inLen.toNat + 7) / 8 = s.inLen.toNat := by omega
  rw [exec_eq, rule, hpackRule_of_holds (s := (s.unpacked inp).endsWell) (unpackedBits_length_le hle hlen)
    (congrArg (BitVec.ofNat 32) hbits.symm) (Memory.holds_writeList _ _ _), packedBytes_unpack, hbits, hlen, hbytes,
    BitVec.ofNat_toNat, BitVec.setWidth_eq]
  rfl

theorem hunpackRule_of_holds (hin : s.inMem.Holds 0 inp) : hunpackRule s = .done (s.unpacked inp) := by
  rw [hunpackRule_run hle (unpackLoop_written hlen hin), ← hlen]
  rfl

end

/-- Settles O43: the loop writes the entries below BIT_LEN alone, on a written input they are its bytes' bits, and
packing undoes the expansion. -/
theorem hunpackExpandsTheBytes : Obligations.HunpackExpandsTheBytes := by
  refine ⟨decode_encode .hunpack, fun s => ⟨fun hlt => ?_,
    fun hle => ⟨_, _, exec_hunpack hle rfl, ?_, fun inp hlen hin => ?_⟩⟩⟩
  · rw [exec_eq, rule, hunpackRule, if_pos hlt]; rfl
  · have hframe := (unpackLoop_frame s.inMem s.inLen.toNat 0 s.bitMem s.draws).1
    rwa [Nat.zero_add] at hframe
  · have hexec : exec .hunpack s = .next (s.unpacked inp).endsWell := by
      rw [exec_eq, rule, hunpackRule_of_holds hle hlen hin, complete_done]
    rw [unpackLoop_written hlen hin]
    refine ⟨rfl, fun j m hj hm => ?_, _, _, hexec, exec_hpack_of_unpacked hle hlen, Memory.holds_writeList _ _ _, rfl⟩
    have hlt : 8 * j + m < (inp.flatMap unpackByte).length := by rw [flatMap_unpackByte_length]; omega
    have hbit := Memory.holds_writeList s.bitMem 0 (inp.flatMap unpackByte) (8 * j + m) hlt
    rwa [Nat.zero_add, ← List.getElem?_eq_getElem hlt, flatMap_unpackByte_getElem inp hj hm] at hbit

/-! ## HWALK (R76) -/

section
variable {s : State} (hbits : s.bitLen.toNat ≤ s.params.bitMax) (hsyms : s.symCount.toNat ≤ s.params.bufMax)
  (htree : s.symCount ≠ 0 → s.status.treeValid = true)
include hbits hsyms htree

/-- HWALK of the codes of SYM_COUNT symbols and at most 7 zero bits. -/
theorem hwalkRule_of_encodes {syms : List Byte} {bits pad : List Bool} (hlen : syms.length = s.symCount.toNat)
    (henc : EncodesTo s.node s.root syms bits) (hend : s.bitLen.toNat = bits.length + pad.length)
    (hmem : s.bitMem.Holds 0 (bits ++ pad)) (hpad : pad.length ≤ 7) (hzero : true ∉ pad) :
    hwalkRule s = .done { s with outMem := s.outMem.writeList 0 syms, outLen := s.symCount } := by
  have hwalk := walkThenCheck_of_encodes hlen henc hend hmem
  rw [if_neg (not_or.2 ⟨Nat.not_lt.2 hpad, hzero⟩)] at hwalk
  exact hwalkRule_run hbits hsyms htree hwalk

/-- HWALK whose Operation stops with the error `e` after the symbols `syms`. -/
theorem exec_hwalk_stops {syms : List Byte} {e : BlockError} {p : Nat}
    (hwalk : walkThenCheck s =
      { error := some e, pos := p, out := s.outMem.writeList 0 syms, draws := s.draws }) :
    ∃ out, exec .hwalk s = .next { s.endsWith e.code e.info with outMem := out, outLen := 0 } ∧
      out.Holds 0 syms ∧ out.SameOutside s.outMem 0 syms.length := by
  refine ⟨_, ?_, Memory.writeList_zero_spec s.outMem syms⟩
  rw [exec_eq, rule, hwalkRule_run hbits hsyms htree hwalk]; rfl

end

/-- The Operation of HWALK past the codes of `syms`, when the walk of the next symbol stops it. -/
theorem walkThenCheck_of_stop {s : State} {syms : List Byte} {bits rest : List Bool} {e : BlockError} {p : Nat}
    (henc : EncodesTo s.node s.root syms bits) (hmem : s.bitMem.Holds 0 (bits ++ rest))
    (hend : s.bitLen.toNat = bits.length + rest.length) (hmore : syms.length < s.symCount.toNat)
    (hstop : ∀ k out, walkFrom s.node s.root s.bitMem (bits.length + rest.length) (k + 1) syms.length bits.length out
      s.draws = { error := some e, pos := p, out := out, draws := s.draws }) :
    walkThenCheck s = { error := some e, pos := p, out := s.outMem.writeList 0 syms, draws := s.draws } := by
  obtain ⟨k, hk⟩ : ∃ k, s.symCount.toNat = syms.length + (k + 1) := ⟨s.symCount.toNat - syms.length - 1, by omega⟩
  refine walkThenCheck_of_error ?_ rfl
  rw [walkAll_eq, hk, hend, walkFrom_append henc (Memory.holds_append.1 hmem).1 (by omega), Nat.zero_add, Nat.zero_add,
    hstop]

/-- Settles O44: the walk decodes the codes one after another, and the end check accepts the padding. -/
theorem hwalkDecodesTheSymbols : Obligations.HwalkDecodesTheSymbols := by
  intro s syms bits pad hbits hsyms htree hlen henc hend hmem hpad hzero
  refine ⟨_, ?_, Memory.writeList_zero_spec s.outMem syms⟩
  rw [exec_eq, rule, hwalkRule_of_encodes hbits hsyms htree hlen henc hend hmem hpad hzero]; rfl

/-- Settles O45: the checks in their order, then what stops the walk of the next symbol, or the end check. -/
theorem hwalkErrorsKeepTheSymbolsSoFar : Obligations.HwalkErrorsKeepTheSymbolsSoFar := by
  refine ⟨decode_encode .hwalk, fun s => ⟨fun hlt => ?_, fun hbits hlt => ?_, fun hbits hsyms h0 hinvalid => ?_,
    fun hbits hsyms htree syms bits rest henc hmem hend => ?_⟩⟩
  · rw [exec_eq, rule, hwalkRule, if_pos hlt]; rfl
  · rw [exec_eq, rule, hwalkRule, if_neg (Nat.not_lt.2 hbits), if_pos hlt]; rfl
  · rw [exec_eq, rule, hwalkRule, if_neg (Nat.not_lt.2 hbits), if_neg (Nat.not_lt.2 hsyms), if_pos ⟨h0, hinvalid⟩]; rfl
  have hrest := (Memory.holds_append.1 hmem).2
  rw [Nat.zero_add] at hrest
  refine ⟨fun hmore hinside => ?_, fun hmore hleaf hempty => ?_, fun hmore hleaf hone => ?_, fun hall hover => ?_⟩
  · exact exec_hwalk_stops (e := .corruptStream (bits.length + rest.length)) hbits hsyms htree
      (walkThenCheck_of_stop henc hmem hend hmore fun k out => walkFrom_inside hinside hrest k _ out _)
  · subst hempty
    exact exec_hwalk_stops (e := .corruptStream bits.length) hbits hsyms htree
      (walkThenCheck_of_stop henc hmem hend hmore fun k out => walkFrom_oneLeaf_end hleaf _ k _ _ out _)
  · obtain ⟨tail, rfl⟩ := List.head?_eq_some_iff.1 hone
    exact exec_hwalk_stops (e := .treeMismatch bits.length) hbits hsyms htree
      (walkThenCheck_of_stop henc hmem hend hmore fun k out =>
        walkFrom_oneLeaf_one hleaf (Memory.holds_cons.1 hrest).1 (by simp) k _ out _)
  · have hwalk := walkThenCheck_of_encodes hall henc hend hmem
    rw [if_pos hover] at hwalk
    exact exec_hwalk_stops (e := .corruptStream bits.length) hbits hsyms htree hwalk

end Sys2Proof.Machine
end

section
/-! PROOFS. HENCODE, HDECODE and the round trip (41_huffman_bits.md R77-R79).  The composites are their stages in
order; on a written input each is one equation, and the round trip is the decoder's equation on what the
encoder leaves. -/

namespace Sys2Proof.Machine

/-! ## Composites as their stages (R77, R78) -/

@[simp] theorem CmdResult.andThen_done_left (s : State) (f : State → CmdResult) : (CmdResult.done s).andThen f = f s := rfl

@[simp] theorem CmdResult.andThen_done_right (r : CmdResult) : r.andThen .done = r := by cases r <;> rfl

/-- The rules of commands one after another, as one rule. -/
def stagesRule : List Instr → State → CmdResult
  | [], s => .done s
  | i :: is, s => (rule i s).andThen (stagesRule is)

theorem stagesRule_nil : stagesRule [] = .done := rfl

theorem stagesRule_cons (i : Instr) (is : List Instr) :
    stagesRule (i :: is) = fun s => (rule i s).andThen (stagesRule is) := rfl

theorem hencodeRule_eq_stages (s : State) :
    hencodeRule s = stagesRule [.hfreq, .hbuild, .hassign, .hemit, .hpack] s := by
  simp only [hencodeRule, andThen_assoc, stagesRule_cons, stagesRule_nil, CmdResult.andThen_done_right, rule]

theorem hdecodeRule_eq_stages (s : State) : hdecodeRule s = stagesRule [.hunpack, .hwalk] s := by
  simp only [hdecodeRule, stagesRule_cons, stagesRule_nil, CmdResult.andThen_done_right, rule]

/-- No rule of a command writes STATUS.ERR: its completion does (R94). -/
theorem rule_keeps_err (i : Instr) (s : State) : (rule i s).state.status.err = s.status.err := by
  have hfreq (t : State) : (hfreqRule t).state.status.err = t.status.err := by
    obtain ⟨f, d, e⟩ := hfreqRule_state t; rw [e]
  have hbuild (t : State) : (hbuildRule t).state.status.err = t.status.err := by
    obtain ⟨ns, nc, rt, cs, tv, cv, e⟩ := hbuildRule_state t; rw [e]
  have hassign (t : State) : (hassignRule t).state.status.err = t.status.err := by
    obtain ⟨cs, v, e⟩ := hassignRule_state t; rw [e]
  have hemit (t : State) : (hemitRule t).state.status.err = t.status.err := by
    obtain ⟨bits, d, n, e, -⟩ := hemitRule_state t; rw [e]
  have hpack (t : State) : (hpackRule t).state.status.err = t.status.err := by
    obtain ⟨out, d, n, e, -⟩ := hpackRule_state t; rw [e]
  have hunpack (t : State) : (hunpackRule t).state.status.err = t.status.err := by
    obtain ⟨bits, d, n, e, -⟩ := hunpackRule_state t; rw [e]
  have hwalk (t : State) : (hwalkRule t).state.status.err = t.status.err := by
    obtain ⟨out, d, n, e, -⟩ := hwalkRule_state t; rw [e]
  cases i with
  | nop => rfl
  | clear => rfl
  | hfreq => exact hfreq s
  | hbuild => exact hbuild s
  | hassign => exact hassign s
  | hemit => exact hemit s
  | hpack => exact hpack s
  | hunpack => exact hunpack s
  | hwalk => exact hwalk s
  | hencode =>
    exact hencodeRule_keeps (P := fun t => t.status.err = s.status.err) rfl (fun t h => (hfreq t).trans h)
      (fun t h => (hbuild t).trans h) (fun t h => (hassign t).trans h) (fun t h => (hemit t).trans h)
      (fun t h => (hpack t).trans h)
  | hdecode =>
    exact hdecodeRule_keeps (P := fun t => t.status.err = s.status.err) rfl (fun t h => (hunpack t).trans h)
      (fun t h => (hwalk t).trans h)
  | lzmatch => obtain ⟨t, n, d, e⟩ := lzmatchRule_state s; simp [rule, e]
  | lzencode => obtain ⟨toks, t, n, k, d, e, -⟩ := lzencodeRule_state s; simp [rule, e]
  | lzdecode => obtain ⟨out, d, n, e, -⟩ := lzdecodeRule_state s; simp [rule, e]

theorem complete_done_err (s : State) : (complete (.done s)).status.err = s.status.err := rfl

/-- Running commands one after another is one completion of their rules in order, when the later ones do not depend on
the DONE and BUSY that the completions between them leave. -/
theorem runStages_eq_complete (i : Instr) (is : List Instr)
    (hfin : ∀ k ∈ is, ∀ t, rule k t.finish = (rule k t).finished) (s : State) (herr : s.status.err = false) :
    runStages (i :: is) s = some (complete (stagesRule (i :: is) s)) := by
  induction is generalizing i s with
  | nil => simp only [runStages, exec_eq, stagesRule, CmdResult.andThen_done_right, ite_self]
  | cons k is ih =>
    have hrule := rule_keeps_err i s
    have hnext (t : State) : runStages (k :: is) t.finish = runStages (k :: is) t := by
      simp only [runStages, exec_eq, hfin k (by simp), complete_finished]
    rw [runStages, exec_eq, stagesRule]
    cases hr : rule i s with
    | done t =>
      have ht : t.status.err = false := by rw [hr] at hrule; exact hrule.trans herr
      simp only [complete_done_err, ht, CmdResult.andThen_done_left]
      exact (hnext t).trans (ih k (fun j hj => hfin j (by simp [hj])) t ht)
    | raised t e => rfl

/-- Settles O46: a composite's rule is its stages' in order, and no stage after the first reads DONE or BUSY. -/
theorem compositesRunTheirStagesInOrder : Obligations.CompositesRunTheirStagesInOrder := by
  refine ⟨decode_encode .hencode, decode_encode .hdecode, fun s herr => ⟨⟨_, ?_, exec_eq .hencode s⟩,
    ⟨_, ?_, exec_eq .hdecode s⟩⟩⟩
  · rw [rule, hencodeRule_eq_stages]
    refine runStages_eq_complete .hfreq _ (fun k hk => ?_) s herr
    simp only [List.mem_cons, List.not_mem_nil, or_false] at hk
    rcases hk with rfl | rfl | rfl | rfl
    exacts [hbuildRule_finish, hassignRule_finish, hemitRule_finish, hpackRule_finish]
  · rw [rule, hdecodeRule_eq_stages]
    refine runStages_eq_complete .hunpack _ (fun k hk => ?_) s herr
    rw [List.mem_singleton.1 hk]
    exact hwalkRule_finish

/-! ## The tree and the codes of an input (R77) -/

/-- The counts HENCODE leaves for an input. -/
def inputCounts (inp : List Byte) : Vector Word 256 := inp.foldl bumpCount noCounts

/-- The arena HENCODE leaves for an input. -/
def inputNodes (inp : List Byte) : Vector Node 511 := arenaOf (buildNodes (inputCounts inp))

/-- The ROOT HENCODE leaves for an input. -/
def inputRoot (inp : List Byte) : BitVec 9 := BitVec.ofNat 9 (2 * (present (inputCounts inp)).length - 2)

/-- The code table HENCODE leaves for an input. -/
def inputCodes (inp : List Byte) : Vector (List Bool) 256 := assignCodes (inputNodes inp) (inputRoot inp)

/-- The bit string HENCODE leaves for an input. -/
def inputStream (inp : List Byte) : List Bool := inp.flatMap (codeAt (inputCodes inp))

theorem inputRoot_toNat (inp : List Byte) : (inputRoot inp).toNat = 2 * (present (inputCounts inp)).length - 2 := by
  have hn := present_length_le (inputCounts inp)
  rw [inputRoot, BitVec.toNat_ofNat, Nat.mod_eq_of_lt (by omega)]

theorem mem_present_of_freqAt {f : Vector Word 256} {b : Byte} (h : freqAt f b ≠ 0) : b.toNat ∈ present f := by
  simpa [present, b.isLt] using h

section
variable {inp : List Byte} (hfits : inp.length < 2 ^ 32)
include hfits

theorem inputCounts_ne_zero {b : Byte} (hb : b ∈ inp) : freqAt (inputCounts inp) b ≠ 0 := by
  intro h
  have hcount := freqAt_count inp hfits b
  rw [← inputCounts, h] at hcount
  exact absurd hcount.symm (List.count_pos_iff.2 hb).ne'

/-- The counts of an input add up to its length. -/
theorem tableSum_inputCounts : tableSum (inputCounts inp) = inp.length := by
  have hin := Memory.holds_writeList ([] : Memory Byte) 0 inp
  have hsum := tableSum_countBytes (Memory.writeList [] 0 inp) inp.length 0 noCounts 0
    (by rw [tableSum_noCounts]; omega)
  rwa [countBytes_of_holds hin, tableSum_noCounts, Nat.zero_add] at hsum

variable (hne : inp ≠ [])
include hne

theorem present_inputCounts : present (inputCounts inp) ≠ [] := by
  obtain ⟨b, hb⟩ := List.exists_mem_of_ne_nil inp hne
  exact List.ne_nil_of_mem (mem_present_of_freqAt (inputCounts_ne_zero hfits hb))

/-- The table of an input is the code table of its tree. -/
theorem isCodeTable_inputCodes : IsCodeTable (inputNodes inp) (inputRoot inp) (inputCodes inp) :=
  (buildNodes_arena _ (present_inputCounts hfits hne)).1.assignCodes_isCodeTable (inputRoot_toNat inp)

/-- Every byte of an input has a code in its table. -/
theorem inputCodes_ne_nil {b : Byte} (hb : b ∈ inp) : codeAt (inputCodes inp) b ≠ [] :=
  (isCodeTable_inputCodes hfits hne).ne_nil_iff.2
    ((leads_iff_present _ (present_inputCounts hfits hne) (inputRoot_toNat inp) b).2 (inputCounts_ne_zero hfits hb))

theorem encodesTo_inputStream : EncodesTo (inputNodes inp) (inputRoot inp) inp (inputStream inp) :=
  (isCodeTable_inputCodes hfits hne).encodesTo inp fun _ hb => inputCodes_ne_nil hfits hne hb

/-- An input's codes take at most eight bits a byte (G1): one bit each under a one-leaf tree, and otherwise their
lengths are depths of the tree, whose cost is bounded. -/
theorem inputStream_length_le : (inputStream inp).length ≤ 8 * inp.length := by
  have hcode {b : Byte} (hb : b ∈ inp) := (isCodeTable_inputCodes hfits hne).isCodeOf (inputCodes_ne_nil hfits hne hb)
  rw [inputStream, List.length_flatMap]
  cases hroot : nodeAt (inputNodes inp) (inputRoot inp) with
  | leaf sym f =>
    have hone : ∀ n ∈ inp.map (fun b => (codeAt (inputCodes inp) b).length), n ≤ 1 := by
      simp only [List.mem_map, forall_exists_index, and_imp, forall_apply_eq_imp_iff₂]
      intro b hb
      rcases hcode hb with ⟨hleads, hnil⟩ | ⟨-, hzero⟩
      · exact absurd ((leadsToLeaf_of_leaf hroot).1 hleads).1 hnil
      · simp [hzero]
    have hsum := List.sum_le_card_nsmul _ _ hone
    simp only [List.length_map, smul_eq_mul] at hsum
    omega
  | internal f l r =>
    obtain ⟨depths, hcost, hmem⟩ := buildNodes_cost _ (present_inputCounts hfits hne) (inputRoot_toNat inp)
    have hcounts : (fun b => (freqAt (inputCounts inp) b).toNat) = fun b => inp.count b :=
      funext (freqAt_count inp hfits)
    rw [tableSum_inputCounts hfits, hcounts] at hcost
    refine (sum_lengths_le_cost depths _ inp fun b hb => ?_).trans hcost
    rcases hcode hb with ⟨hleads, -⟩ | ⟨hleads, -⟩
    · exact hmem _ _ hleads
    · rw [leadsToLeaf_nil, hroot] at hleads; simp at hleads

end

/-! ## HENCODE (R77) -/

/-- The block with an input's counts, tree and codes, as HENCODE's first three stages leave them. -/
def State.withCodesOf (s : State) (inp : List Byte) : State :=
  { s with
    freq := inputCounts inp
    node := inputNodes inp
    nodeCount := BitVec.ofNat 10 (2 * (present (inputCounts inp)).length - 1)
    root := inputRoot inp
    code := inputCodes inp
    status := { s.status with treeValid := true, codesValid := true } }

/-- The block after HENCODE of a written input. -/
def State.afterHencode (s : State) (inp : List Byte) : State :=
  { (s.withCodesOf inp).endsWell with
    bitMem := s.bitMem.writeList 0 (inputStream inp)
    bitLen := BitVec.ofNat 32 (inputStream inp).length
    outMem := s.outMem.writeList 0 (packedBytes (inputStream inp))
    outLen := BitVec.ofNat 32 (((inputStream inp).length + 7) / 8) }

section
variable {s : State} {inp : List Byte} (hpos : 0 < s.inLen.toNat) (hle : s.inLen.toNat ≤ s.params.bufMax)
  (hlen : inp.length = s.inLen.toNat)
include hpos hlen

theorem ne_nil_of_inLen_pos : inp ≠ [] := List.ne_nil_of_length_pos (hlen ▸ hpos)

include hle

theorem inputStream_length_le_bitMax : (inputStream inp).length ≤ s.params.bitMax :=
  (inputStream_length_le (hlen ▸ s.inLen.isLt) (ne_nil_of_inLen_pos hpos hlen)).trans
    (Nat.mul_le_mul_left 8 (hlen ▸ hle))

variable (hin : s.inMem.Holds 0 inp)
include hin

theorem buildCodes_of_holds :
    ((hfreqRule s).andThen hbuildRule).andThen hassignRule = .done (s.withCodesOf inp) := by
  have hcount : countBytes s.inMem s.inLen.toNat 0 noCounts s.draws = (inputCounts inp, s.draws) :=
    hlen ▸ countBytes_of_holds hin noCounts s.draws
  have hpresent := present_inputCounts (hlen ▸ s.inLen.isLt) (ne_nil_of_inLen_pos hpos hlen)
  rw [hfreqRule_run hle (ne_zero_of_toNat_pos hpos), hcount, CmdResult.andThen_done_left, hbuildRule_eq,
    if_neg hpresent, CmdResult.andThen_done_left, hassignRule_run rfl]
  rfl

/-- HENCODE of a written input: every byte has a code, the codes fit, and the packed stream fits. -/
theorem exec_hencode : exec .hencode s = .next (s.afterHencode inp) := by
  have hfits := inputStream_length_le_bitMax hpos hle hlen
  have hcodes : ∀ b ∈ inp, codeAt (s.withCodesOf inp).code b ≠ [] :=
    fun _ hb => inputCodes_ne_nil (hlen ▸ s.inLen.isLt) (ne_nil_of_inLen_pos hpos hlen) hb
  rw [exec_eq, rule, hencodeRule, buildCodes_of_holds hpos hle hlen hin, CmdResult.andThen_done_left,
    hemitRule_of_codes (s := s.withCodesOf inp) hle rfl hpos hlen hin hcodes hfits, CmdResult.andThen_done_left,
    hpackRule_of_holds (s := (s.withCodesOf inp).emitted inp) (bits := inputStream inp) hfits rfl
      (Memory.holds_writeList _ _ _)]
  rfl

end

/-- Settles O47: HENCODE on a written input, and what its counts, codes and stream are. -/
theorem hencodeEncodesItsInput : Obligations.HencodeEncodesItsInput := by
  intro s inp hpos hle hlen hin
  have hfits : inp.length < 2 ^ 32 := hlen ▸ s.inLen.isLt
  have hne := ne_nil_of_inLen_pos hpos hlen
  obtain ⟨hbits, hbitsRest⟩ := Memory.writeList_zero_spec s.bitMem (inputStream inp)
  obtain ⟨hout, houtRest⟩ := Memory.writeList_zero_spec s.outMem (packedBytes (inputStream inp))
  rw [packedBytes_length] at houtRest
  exact ⟨_, _, _, _, _, _, _, exec_hencode hpos hle hlen hin, freqAt_count inp hfits, isCodeTable_inputCodes hfits hne,
    encodesTo_inputStream hfits hne, inputStream_length_le hfits hne, hbits, hbitsRest, packedAs_of_holds hout, houtRest⟩

/-! ## HDECODE (R78) -/

section
variable {s : State} {inp syms : List Byte} {bits pad : List Bool} (hle : s.inLen.toNat ≤ s.params.bufMax)
  (hlen : inp.length = s.inLen.toNat) (hin : s.inMem.Holds 0 inp) (hunpack : inp.flatMap unpackByte = bits ++ pad)
  (hpad : pad.length ≤ 7) (hzero : true ∉ pad) (hsyms : s.symCount.toNat ≤ s.params.bufMax)
  (hcount : syms.length = s.symCount.toNat) (htree : s.symCount ≠ 0 → s.status.treeValid = true)
  (henc : EncodesTo s.node s.root syms bits)
include hle hlen hin hunpack hpad hzero hsyms hcount htree henc

/-- HDECODE of written bytes whose bits are the codes of SYM_COUNT symbols and at most 7 zero bits. -/
theorem exec_hdecode : exec .hdecode s = .next { (s.unpacked inp).endsWell with
    outMem := s.outMem.writeList 0 syms, outLen := s.symCount } := by
  have hbits := flatMap_unpackByte_length inp
  have hmax := unpackedBits_length_le hle hlen
  have hn : (s.unpacked inp).bitLen.toNat = (inp.flatMap unpackByte).length := by
    rw [State.unpacked, ← hbits, toNat_ofNat_of_le_bitMax hmax]
  have hmem := Memory.holds_writeList s.bitMem 0 (inp.flatMap unpackByte)
  rw [exec_eq, rule, hdecodeRule, hunpackRule_of_holds hle hlen hin, CmdResult.andThen_done_left,
    hwalkRule_of_encodes (s := s.unpacked inp) (hn.trans_le hmax) hsyms htree hcount henc
      (hn.trans (by rw [hunpack, List.length_append])) (hunpack ▸ hmem) hpad hzero]
  rfl

end

/-- The bits of bytes, given one by one (R75). -/
theorem flatMap_unpackByte_eq {inp : List Byte} {bits : List Bool} (hlen : bits.length = 8 * inp.length)
    (h : ∀ j m, (h : j < inp.length) → m < 8 → bits[8 * j + m]? = some (inp[j].getLsbD (7 - m))) :
    inp.flatMap unpackByte = bits := by
  have hl := flatMap_unpackByte_length inp
  apply List.ext_getElem?
  intro i
  rcases Nat.lt_or_ge i (8 * inp.length) with hlt | hge
  · have hj : i / 8 < inp.length := by omega
    have hi : 8 * (i / 8) + i % 8 = i := by omega
    rw [← hi, flatMap_unpackByte_getElem inp hj (by omega), h (i / 8) (i % 8) hj (by omega)]
  · rw [List.getElem?_eq_none (by omega), List.getElem?_eq_none (by omega)]

/-- Settles O48: HUNPACK expands the bytes to the stream, which HWALK decodes. -/
theorem hdecodeDecodesItsInput : Obligations.HdecodeDecodesItsInput := by
  intro s inp syms bits pad hle hlen hin hbits hbitsLen hpad hzero hsyms hcount htree henc
  have hunpack := flatMap_unpackByte_eq hbitsLen hbits
  exact ⟨_, _, exec_hdecode hle hlen hin hunpack hpad hzero hsyms hcount htree henc, Memory.writeList_zero_spec _ _⟩

/-! ## The round trip (R79) -/

/-- Settles O49: the packed stream unpacks to the stream and the zeros that fill its last byte, which HDECODE accepts
under the tree that encoded it. -/
theorem huffmanRoundTripReturnsTheInput : Obligations.HuffmanRoundTripReturnsTheInput := by
  intro s inp hpos hle hlen hin
  refine ⟨_, exec_hencode hpos hle hlen hin, rfl, fun packed hpackedLen hpacked u hparams hnode hroot htree hmem hinLen
    hsymCount => ?_⟩
  have hstream := inputStream_length_le_bitMax hpos hle hlen
  have hbytes : ((inputStream inp).length + 7) / 8 ≤ s.params.bufMax := by rw [Params.bitMax] at hstream; omega
  have houtLen : (s.afterHencode inp).outLen.toNat = ((inputStream inp).length + 7) / 8 :=
    toNat_ofNat_of_le_bitMax (p := s.params) (by rw [Params.bitMax]; omega)
  have hpackedEq : packed = packedBytes (inputStream inp) :=
    hpacked.unique (Memory.holds_writeList _ _ _) (by rw [hpackedLen, houtLen, packedBytes_length])
  subst hpackedEq
  have hencodes : EncodesTo u.node u.root inp (inputStream inp) := by
    rw [hnode, hroot]; exact encodesTo_inputStream (hlen ▸ s.inLen.isLt) (ne_nil_of_inLen_pos hpos hlen)
  refine ⟨_, exec_hdecode ?_ (hpackedLen.trans (by rw [hinLen])) hmem (unpack_packedBytes _) ?_ (by simp) ?_ ?_
    (fun _ => htree) hencodes, rfl, Memory.holds_writeList _ _ _, hsymCount⟩
  · rw [hinLen, houtLen, hparams]; exact hbytes
  · rw [List.length_replicate]; omega
  · rw [hsymCount, hparams]; exact hle
  · rw [hsymCount, hlen]

end Sys2Proof.Machine
end

section
/-! PROOFS. The LZ77 commands (42_lz77.md R83-R86).  What LZMATCH and LZENCODE end in is said once, by `exec_lzmatch`
and `exec_lzencode`, and LZDECODE's loop past the tokens that fit by `decodeLoop_past`; the round trip is LZDECODE's
statement on what LZENCODE leaves. -/

namespace Sys2Proof.Machine

/-! ## LZMATCH (R83) -/

/-- LZMATCH that passes its checks takes one step of the matcher, which moves the cursor past the token. -/
theorem exec_lzmatch {s : State} (hle : s.inLen.toNat ≤ s.params.bufMax) (hcur : s.cursor.toNat < s.inLen.toNat)
    {r : Matched} (hr : matchStep s.inMem s.inLen.toNat s.window.toNat s.cursor.toNat s.draws = r) :
    exec .lzmatch s = .next { s.endsWell with
      token := r.token, draws := r.draws
      cursor := BitVec.ofNat 32 (s.cursor.toNat + r.token.length.toNat + 1) } := by
  have hmove := (matchStep_cursor s.inMem s.inLen.toNat s.window.toNat s.cursor.toNat s.draws hcur).1
  rw [hr] at hmove
  rw [exec_eq, rule, lzmatchRule_run hle hcur hr, hmove]; rfl

/-- Settles O50: the checks in their order; the step on a written input finds the token of its cursor. -/
theorem lzmatchFindsTheLongestEarliestMatch : Obligations.LzmatchFindsTheLongestEarliestMatch := by
  refine ⟨decode_encode .lzmatch, fun s => ⟨fun hlt => ?_, fun h0 => ?_, fun hpos hle hpast => ?_,
    fun hle hcur => ⟨_, _, exec_lzmatch hle hcur rfl, fun inp hlen hin => ?_⟩⟩⟩
  · rw [exec_eq, rule, lzmatchRule, if_pos hlt]; rfl
  · rw [exec_eq, rule, lzmatchRule, if_neg (by simp [h0]), if_pos h0]; rfl
  · rw [exec_eq, rule, lzmatchRule, if_neg (Nat.not_lt.2 hle), if_neg (ne_zero_of_toNat_pos hpos), if_pos hpast]; rfl
  · rw [← hlen] at hcur ⊢
    exact (matchStep_of_holds hin s.window.isLt hcur s.draws).symm

/-! ## LZENCODE (R84) -/

/-- The block with the records of `toks`, the last of them in TOKEN, as LZENCODE leaves it after `d` draws. -/
def State.afterLzencode (s : State) (toks : List Token) (last : Token) (d : Nat) : State :=
  { s.endsWell with
    cursor := s.inLen, token := last, tokMem := s.tokMem.writeList 0 (toks.flatMap Token.bytes), draws := d
    tokBytes := BitVec.ofNat 32 (4 * toks.length) }

/-- LZENCODE of a non-empty input stores the records of some tokens and ends with the cursor past the input; on a
written input they are its token stream. -/
theorem exec_lzencode {s : State} (hpos : 0 < s.inLen.toNat) (hle : s.inLen.toNat ≤ s.params.bufMax) :
    ∃ (toks : List Token) (last : Token) (d : Nat), exec .lzencode s = .next (s.afterLzencode toks last d) ∧
      toks.length ≤ s.inLen.toNat ∧ toks.getLast? = some last ∧
      ∀ inp : List Byte, inp.length = s.inLen.toNat → s.inMem.Holds 0 inp →
        d = s.draws ∧ IsTokenStream inp s.window.toNat 0 toks := by
  obtain ⟨toks, hcur, hcount, hlen, hmem, htok, hne, hwritten⟩ :=
    encodeLoop_spec s.inMem s.inLen.toNat s.window.toNat s.inLen.toNat
      { cursor := 0, token := s.token, count := 0, toks := s.tokMem, draws := s.draws } (Nat.zero_le _) (by simp)
  rw [List.getLast?_eq_some_getLast (hne hpos), Option.getD_some] at htok
  rw [Nat.zero_add] at hcount
  refine ⟨toks, _, _, ?_, hlen, List.getLast?_eq_some_getLast (hne hpos), hwritten s.window.isLt⟩
  rw [exec_eq, rule, lzencodeRule_run hle (ne_zero_of_toNat_pos hpos) rfl, hcur, hcount, hmem, htok, BitVec.ofNat_toNat,
    BitVec.setWidth_eq]
  rfl

/-- Settles O51: the checks in their order; then the tokens the loop appends. -/
theorem lzencodeTokenisesTheInput : Obligations.LzencodeTokenisesTheInput := by
  refine ⟨decode_encode .lzencode, fun s => ⟨fun hlt => ?_, fun h0 => ?_, fun hpos hle => ?_⟩⟩
  · rw [exec_eq, rule, lzencodeRule, if_pos hlt]; rfl
  · rw [exec_eq, rule, lzencodeRule, if_neg (by simp [h0]), if_pos h0]; rfl
  · obtain ⟨toks, last, d, hexec, hlen, hlast, hwritten⟩ := exec_lzencode hpos hle
    obtain ⟨hholds, hrest⟩ := Memory.writeList_zero_spec s.tokMem (toks.flatMap Token.bytes)
    rw [flatMap_bytes_length] at hrest
    have hne : toks ≠ [] := by rintro rfl; cases hlast
    exact ⟨toks, last, _, d, hexec, List.length_pos_iff.2 hne, hlen, hlast, hholds, hrest, hwritten⟩

/-! ## LZDECODE (R85) -/

section
variable {s : State} {pre : List Token} {out : List Byte} {k : Nat}
  (hbytes : s.tokBytes.toNat = 4 * (pre.length + k)) (hmax : pre.length + k ≤ s.params.tokMax)
  (hpre : s.tokMem.Holds 0 (pre.flatMap Token.bytes)) (hrec : Reconstructs [] pre out)
  (hfit : out.length ≤ s.params.bufMax)
include hbytes hpre hrec hfit

/-- The loop of LZDECODE past the tokens `pre`, which reconstruct an output that fits. -/
theorem decodeLoop_past :
    ∃ mem, decodeLoop s.params.bufMax s.tokMem (s.tokBytes.toNat / 4) 0 0 s.outMem s.draws =
        decodeLoop s.params.bufMax s.tokMem k pre.length out.length mem s.draws ∧
      mem.Holds 0 out ∧ mem.SameOutside s.outMem 0 out.length := by
  have happend := decodeLoop_append (t := 0) hpre hrec hfit (Memory.holds_nil s.outMem 0) k s.draws
  rwa [Nat.zero_add, ← Nat.mul_div_cancel_left (pre.length + k) (show 0 < 4 by decide), ← hbytes] at happend

include hmax

/-- LZDECODE whose loop stops with the error `e` after the tokens `pre`. -/
theorem exec_lzdecode_stops {e : BlockError}
    (hstop : ∀ mem, decodeLoop s.params.bufMax s.tokMem k pre.length out.length mem s.draws =
      { error := some e, length := out.length, out := mem, draws := s.draws }) :
    ∃ mem, exec .lzdecode s = .next { s.endsWith e.code e.info with outMem := mem, outLen := 0 } ∧
      mem.Holds 0 out ∧ mem.SameOutside s.outMem 0 out.length := by
  obtain ⟨mem, hloop, hmem⟩ := decodeLoop_past hbytes hpre hrec hfit
  refine ⟨mem, ?_, hmem⟩
  rw [exec_eq, rule, lzdecodeRule_run (by omega) (by omega) (hloop.trans (hstop mem))]; rfl

end

/-- Settles O52: the loop past all the tokens of the stream. -/
theorem lzdecodeReconstructsTheOutput : Obligations.LzdecodeReconstructsTheOutput := by
  intro s toks out hmax hbytes htoks hrec hfit
  obtain ⟨mem, hloop, hmem⟩ := decodeLoop_past (k := 0) hbytes htoks hrec hfit
  refine ⟨mem, ?_, hmem⟩
  rw [exec_eq, rule, lzdecodeRule_run (by omega) (by omega) hloop]; rfl

/-- Settles O53: the checks in their order; then the loop past the tokens that fit, to the first that it stops at. -/
theorem lzdecodeErrorsKeepTheBytesSoFar : Obligations.LzdecodeErrorsKeepTheBytesSoFar := by
  refine ⟨decode_encode .lzdecode, fun s => ⟨fun hlt => ?_, fun hle hrecords => ?_,
    fun pre t post out hbytes hmax htoks hrec hfit => ?_⟩⟩
  · rw [exec_eq, rule, lzdecodeRule, if_pos hlt]; rfl
  · rw [exec_eq, rule, lzdecodeRule, if_neg (Nat.not_lt.2 hle), if_pos hrecords, complete_raised, BlockError.info,
      BitVec.ofNat_toNat, BitVec.setWidth_eq]
    rfl
  · rw [List.length_append, List.length_cons] at hbytes hmax
    rw [List.flatMap_append, List.flatMap_cons, Memory.holds_append, Memory.holds_append] at htoks
    obtain ⟨hpre, ht, -⟩ := htoks
    rw [Nat.zero_add] at ht
    have hrecord : s.tokMem.Holds (4 * pre.length) t.bytes := flatMap_bytes_length pre ▸ ht
    have hstop := fun mem =>
      decodeLoop_stops (bufMax := s.params.bufMax) hrecord post.length out.length mem s.draws
    refine ⟨fun hlit hfull => ?_, fun hcopy hoff => ?_, fun hcopy hpos hoff hfull => ?_⟩
    · exact exec_lzdecode_stops (e := .capacity pre.length) hbytes hmax hpre hrec hfit
        fun mem => have ⟨hnoRoom, _, _⟩ := hstop mem; hnoRoom hlit hfull
    · exact exec_lzdecode_stops (e := .invalidOffset pre.length) hbytes hmax hpre hrec hfit
        fun mem => have ⟨_, hinvalid, _⟩ := hstop mem; hinvalid hcopy hoff
    · exact exec_lzdecode_stops (e := .capacity pre.length) hbytes hmax hpre hrec hfit
        fun mem => have ⟨_, _, hnoRoom⟩ := hstop mem; hnoRoom hcopy hpos hoff hfull

/-! ## The round trip (R86) -/

/-- Settles O54: the tokens that LZENCODE leaves are the input's token stream, which reconstructs the input, and
LZDECODE reconstructs what its stream does. -/
theorem lzRoundTripReturnsTheInput : Obligations.LzRoundTripReturnsTheInput := by
  intro s inp hpos hle hlen hin
  obtain ⟨toks, last, d, hencode, hcount, -, hwritten⟩ := exec_lzencode hpos hle
  obtain ⟨-, hstream⟩ := hwritten inp hlen hin
  have hmax : toks.length ≤ s.params.tokMax := hcount.trans hle
  have hbytes : (BitVec.ofNat 32 (4 * toks.length)).toNat = 4 * toks.length :=
    toNat_ofNat_of_le_bitMax (p := s.params) (by rw [Params.bitMax]; omega)
  obtain ⟨mem, hdecode, hmem, -⟩ := lzdecodeReconstructsTheOutput (s.afterLzencode toks last d) toks inp hmax hbytes
    (Memory.holds_writeList _ _ _) hstream.reconstructs (hlen.trans_le hle)
  refine ⟨_, _, hencode, hdecode, rfl, hmem, ?_⟩
  rw [hlen, BitVec.ofNat_toNat, BitVec.setWidth_eq]

end Sys2Proof.Machine
end

section
/-! PROOFS. The control commands (43_control.md R87, R88).  Neither has a check, so each is its rule and completion
(`exec_eq`, `complete_done`); what is left to say of CLEAR is that its empty tables hold reset values at every entry. -/

namespace Sys2Proof.Machine

/-! ## NOP (R87) -/

/-- Settles O34: 0x00000000 is NOP's encoding, and a rule that leaves the state as it is ends well. -/
theorem nopOnlyCompletes : Obligations.NopOnlyCompletes := by
  refine ⟨decode_encode .nop, fun s => ?_⟩
  rw [exec_eq, rule, nopRule, complete_done]

/-! ## CLEAR (R88) -/

/-- An all-zero arena reads as the zero node at every 9-bit index, the one past its end too (R31, assumption 8). -/
@[simp] theorem nodeAt_noNodes (i : BitVec 9) : nodeAt noNodes i = Node.zero := by
  rcases Nat.lt_or_ge i.toNat 511 with hlt | hge
  · rw [nodeAt_eq_nodeN, nodeN_noNodes hlt]
  · rw [nodeAt, Vector.getElem?_eq_none hge, Option.getD_none]

/-- Settles O35: 0x00000001 is CLEAR's encoding; its rule writes the empty tables and the zero registers, and
completion DONE and BUSY alone. -/
theorem clearResetsTheDatapath : Obligations.ClearResetsTheDatapath := by
  refine ⟨decode_encode .clear, fun s => ⟨noCounts, noNodes, noCodes, ?result, fun sym => ?entry, fun i => ?node⟩⟩
  case result => rw [exec_eq, rule, clearRule, complete_done]; rfl
  case entry => exact ⟨freqAt_noCounts sym, codeAt_noCodes sym⟩
  case node => exact nodeAt_noNodes _

end Sys2Proof.Machine
end

section
/-! PROOFS. How a command is accepted, performed and completed (60_exceptions.md R90-R97).  The status fields are kept
consistent by cases on what a step can be: completion needs no more than the fields the rule leaves, because it ends
BUSY and brings a code with every error, and a rule writes none of the fields but OUT_LEN.  The rest follows from the
step's equations and from `exec_eq`. -/

namespace Sys2Proof.Machine

/-! ## The status fields (R20, R93, R94, R107, R112) -/

/-- The fields `StatusConsistent` speaks of. -/
def State.reports (s : State) : Params × Bool × Bool × ErrCode × Word × Option Word × Bool × Word :=
  (s.params, s.status.done, s.status.err, s.status.errCode, s.errInfo, s.inflight, s.rst, s.outLen)

theorem StatusConsistent.congr {s t : State} (h : StatusConsistent s) (e : t.reports = s.reports) :
    StatusConsistent t := by
  simp only [State.reports, Prod.mk.injEq] at e
  obtain ⟨hparams, hdone, herr, hcode, hinfo, hinflight, hrst, hout⟩ := e
  refine ⟨?_, ?_, ?_, ?_, ?_⟩
  · rw [State.busy, hinflight, hdone, herr, hcode, hinfo]; exact h.busy
  · rw [hrst, hinflight]; exact h.reset
  · rw [herr, hcode]; exact h.error
  · rw [hcode, hinfo]; exact h.info
  · rw [hout, hparams]; exact h.outLen

/-- A new OUT_LEN that is in range where the old one was (HPACK, HWALK, LZDECODE). -/
theorem StatusConsistent.outLen_replaced {s : State} (h : StatusConsistent s) {n : Word}
    (hlen : s.outLen.toNat ≤ s.params.bufMax → n.toNat ≤ s.params.bufMax) (out : Memory Byte) (d : Nat) :
    StatusConsistent { s with outMem := out, draws := d, outLen := n } :=
  ⟨h.busy, h.reset, h.error, h.info, hlen h.outLen⟩

theorem BlockError.code_ne_none (e : BlockError) : e.code ≠ .none := by cases e <;> exact nofun

/-- Completion ends BUSY, and the error it records, if any, comes with a code (R91, R94). -/
theorem complete_keeps_statusConsistent (r : CmdResult) (h : StatusConsistent r.state) :
    StatusConsistent (complete r) := by
  cases r with
  | done s => exact ⟨nofun, fun _ => rfl, h.error, h.info, h.outLen⟩
  | raised s e =>
    exact ⟨nofun, fun _ => rfl, fun _ => e.code_ne_none, fun hc => absurd hc e.code_ne_none, h.outLen⟩

theorem hfreqRule_reports (s : State) : (hfreqRule s).state.reports = s.reports := by
  obtain ⟨f, d, e⟩ := hfreqRule_state s
  rw [e]; rfl

theorem hbuildRule_reports (s : State) : (hbuildRule s).state.reports = s.reports := by
  obtain ⟨ns, nc, rt, cs, tv, cv, e⟩ := hbuildRule_state s
  rw [e]; rfl

theorem hassignRule_reports (s : State) : (hassignRule s).state.reports = s.reports := by
  obtain ⟨cs, v, e⟩ := hassignRule_state s
  rw [e]; rfl

theorem hemitRule_reports (s : State) : (hemitRule s).state.reports = s.reports := by
  obtain ⟨bits, d, n, e, -⟩ := hemitRule_state s
  rw [e]; rfl

theorem hunpackRule_reports (s : State) : (hunpackRule s).state.reports = s.reports := by
  obtain ⟨bits, d, n, e, -⟩ := hunpackRule_state s
  rw [e]; rfl

theorem hpackRule_keeps_statusConsistent {s : State} (h : StatusConsistent s) :
    StatusConsistent (hpackRule s).state := by
  obtain ⟨out, d, n, e, -, -, hlen⟩ := hpackRule_state s
  rw [e]; exact h.outLen_replaced hlen out d

theorem hwalkRule_keeps_statusConsistent {s : State} (h : StatusConsistent s) :
    StatusConsistent (hwalkRule s).state := by
  obtain ⟨out, d, n, e, -, -, hlen⟩ := hwalkRule_state s
  rw [e]; exact h.outLen_replaced hlen out d

/-- CLEAR zeroes OUT_LEN, and leaves what the block reports (R88). -/
theorem clearRule_keeps_statusConsistent {s : State} (h : StatusConsistent s) :
    StatusConsistent (clearRule s).state :=
  ⟨h.busy, h.reset, h.error, h.info, Nat.zero_le _⟩

/-- Every command's rule keeps the status fields consistent. -/
theorem rule_keeps_statusConsistent (i : Instr) {s : State} (h : StatusConsistent s) :
    StatusConsistent (rule i s).state := by
  cases i with
  | nop => exact h
  | clear => exact clearRule_keeps_statusConsistent h
  | hfreq => exact h.congr (hfreqRule_reports s)
  | hbuild => exact h.congr (hbuildRule_reports s)
  | hassign => exact h.congr (hassignRule_reports s)
  | hemit => exact h.congr (hemitRule_reports s)
  | hpack => exact hpackRule_keeps_statusConsistent h
  | hunpack => exact h.congr (hunpackRule_reports s)
  | hwalk => exact hwalkRule_keeps_statusConsistent h
  | hencode =>
    exact hencodeRule_keeps h (fun s h => h.congr (hfreqRule_reports s)) (fun s h => h.congr (hbuildRule_reports s))
      (fun s h => h.congr (hassignRule_reports s)) (fun s h => h.congr (hemitRule_reports s))
      (fun _ => hpackRule_keeps_statusConsistent)
  | hdecode =>
    exact hdecodeRule_keeps h (fun s h => h.congr (hunpackRule_reports s)) (fun _ => hwalkRule_keeps_statusConsistent)
  | lzmatch =>
    obtain ⟨t, n, d, e⟩ := lzmatchRule_state s
    rw [rule, e]; exact h.congr rfl
  | lzencode =>
    obtain ⟨toks, t, n, k, d, e, -⟩ := lzencodeRule_state s
    rw [rule, e]; exact h.congr rfl
  | lzdecode =>
    obtain ⟨out, d, n, e, -, -, hlen⟩ := lzdecodeRule_state s
    rw [rule, e]; exact h.outLen_replaced hlen out d

/-- Acceptance clears what the block reports; it cannot happen during reset (R93, R107). -/
theorem StatusConsistent.accept {s : State} (h : StatusConsistent s) (hrst : s.rst = false) (w : Word) :
    StatusConsistent (s.accept w) :=
  ⟨fun _ => ⟨rfl, rfl, rfl, rfl⟩, fun hr => absurd (hrst.symm.trans hr) Bool.false_ne_true, nofun, fun _ => rfl,
    h.outLen⟩

/-- The host's acknowledgement only clears bits, and leaves ERRCODE and ERRINFO (R17, R98). -/
theorem StatusConsistent.acknowledge {s : State} (h : StatusConsistent s) (data : Word) (strb : BitVec 4) :
    StatusConsistent (s.acknowledge data strb) := by
  rw [State.acknowledge, Status.writeOneToClear_eq]
  refine ⟨fun hb => ?_, h.reset, fun he => h.error (Bool.and_eq_true_iff.1 he).1, h.info, h.outLen⟩
  obtain ⟨hdone, herr, hcode, hinfo⟩ := h.busy hb
  exact ⟨by rw [hdone, Bool.false_and], by rw [herr, Bool.false_and], hcode, hinfo⟩

/-- A host write outside reset keeps the status fields consistent: only CMD and STATUS touch them (R14, R46). -/
theorem writeTarget_keeps_statusConsistent {s : State} (h : StatusConsistent s) (hrst : s.rst = false) (t : Target)
    (data : Word) (strb : BitVec 4) : StatusConsistent (s.writeTarget t data strb) := by
  cases t
  case reg r =>
    cases r
    case ctrl => rw [State.writeTarget, writeReg_ctrl]; exact h.congr rfl
    case status => exact h.acknowledge data strb
    case cmd => exact h.accept hrst _
    all_goals exact h.congr rfl
  all_goals exact h.congr rfl

theorem assertReset_statusConsistent (s : State) : StatusConsistent s.assertReset :=
  ⟨nofun, fun _ => rfl, nofun, fun _ => rfl, Nat.zero_le _⟩

/-- Settles O57, by cases on what a step can be, then on the command. -/
theorem stepsKeepStatusConsistent : Obligations.StepsKeepStatusConsistent := by
  intro s t
  refine step_invariant ?pending ?exec ?illegal ?answer ?write ?drop ?assert ?release
  case pending => exact fun s rest h => h.congr rfl
  case exec =>
    exact fun i s w t h _ _ => exec_keeps complete_keeps_statusConsistent (rule_keeps_statusConsistent i h)
  case illegal => exact fun v s w h _ _ => complete_keeps_statusConsistent _ h
  case answer => exact fun s r d h => h.congr rfl
  case write => exact fun s t data strb h hrst _ => writeTarget_keeps_statusConsistent h hrst t data strb
  case drop => exact fun s h _ => h.congr rfl
  case assert => exact fun s _ => assertReset_statusConsistent s
  case release => exact fun s h => ⟨h.busy, nofun, h.error, h.info, h.outLen⟩

/-! ## Steps (R90, R94) -/

/-- The core agent's turn always gives a next state: it is idle, or it completes a command or an illegal word. -/
theorem coreStep_next (s : State) : ∃ t, coreStep s = .next t := by
  unfold coreStep
  split
  · exact ⟨s, rfl⟩ -- in reset
  · split
    · exact ⟨s, rfl⟩ -- not BUSY
    · split
      · exact ⟨_, exec_eq _ _⟩
      · exact ⟨_, rfl⟩

theorem serve_next (s : State) (e : Event) : ∃ t, serve s e = .next t := by
  cases e with
  | coreTurn => exact coreStep_next s
  | read | write | assertReset | releaseReset => exact ⟨_, rfl⟩

/-- Settles O8: the core agent's turn and every event give a next state. -/
theorem everyStepGivesANextState : Obligations.EveryStepGivesANextState := by
  intro s
  cases hp : s.pending with
  | nil => rw [step_nil hp]; exact coreStep_next s
  | cons e rest => rw [step_cons hp]; exact serve_next _ e

/-- Settles O4: the core agent's turn runs the latched command, whichever way the turn comes. -/
theorem stepRunsTheDecodedCommand : Obligations.StepRunsTheDecodedCommand := by
  intro s w i hr hf hd
  refine ⟨fun hp => ?_, fun rest hp => ?_⟩
  · rw [step_nil hp]; exact coreStep_command hr hf hd
  · rw [step_cons hp]; exact coreStep_command (s := { s with pending := rest }) hr hf hd

/-- Settles O5: the core agent's turn is idle, whichever way the turn comes. -/
theorem idleCoreChangesNothing : Obligations.IdleCoreChangesNothing := by
  intro s hb
  refine ⟨fun hp => ?_, fun rest hp => ?_⟩
  · rw [step_nil hp]; exact coreStep_idle hb
  · rw [step_cons hp]; exact coreStep_idle (s := { s with pending := rest }) hb

/-- After completion no command is in flight (R94). -/
@[simp] theorem complete_busy (r : CmdResult) : (complete r).busy = false := by
  rw [State.busy, complete_inflight, Option.isSome_none]

/-- Settles O7: every command is its rule and completion, which sets DONE and ends BUSY. -/
theorem everyCommandEndsDoneAndNotBusy : Obligations.EveryCommandEndsDoneAndNotBusy :=
  fun i s => ⟨_, exec_eq i s, complete_done_bit _, complete_busy _⟩

/-! ## Acceptance (R93) -/

/-- Settles O9: CMD's offset reaches it; outside BUSY the write is accepted, while BUSY it is dropped. -/
theorem writeToCmdIsAccepted : Obligations.WriteToCmdIsAccepted := by
  intro s addr data strb rest h0 ha hs
  have ht := busTarget_reg .cmd ha
  refine ⟨fun hb => ⟨mergeLanes 0 data strb, fun k hk => ?_, ?_⟩, fun hb => ?_⟩
  · rw [lane_mergeLanes 0 data strb hk, lane_zero]
  · rw [step_write_idle hs ht h0 (.inl hb)]; rfl
  · exact ⟨_, step_write_busy hs ht h0 hb rfl, rfl, rfl, rfl, rfl, rfl⟩

/-! ## The interrupt output (R97) -/

theorem irq_eq_true_iff (s : State) :
    s.irq = true ↔ s.irqEn = true ∧ (s.status.done = true ∨ s.status.err = true) := by
  rw [State.irq, Bool.and_eq_true, Bool.or_eq_true]

/-- With DONE and ERR clear, irq is low. -/
theorem irq_eq_false_of_quiet {s : State} (hdone : s.status.done = false) (herr : s.status.err = false) :
    s.irq = false := by
  rw [State.irq, hdone, herr, Bool.or_false, Bool.and_false]

/-- Completion sets DONE, so irq is IRQ_EN. -/
theorem complete_irq (r : CmdResult) : (complete r).irq = r.state.irqEn := by
  rw [State.irq, complete_done_bit, Bool.true_or, Bool.and_true, complete_irqEn]

/-- No command writes CTRL (R57). -/
theorem rule_irqEn (i : Instr) (s : State) : (rule i s).state.irqEn = s.irqEn := by
  obtain ⟨⟨-, hirqEn, -⟩, -⟩ := commandsWriteOnlyTheirOwnState i s _ (exec_eq i s)
  rwa [complete_irqEn] at hirqEn

/-- Settles O30: irq is a function of IRQ_EN, DONE and ERR, so each clause is what is left of these. -/
theorem irqFollowsDoneAndErrWhenEnabled : Obligations.IrqFollowsDoneAndErrWhenEnabled := by
  refine ⟨fun i s => ⟨_, exec_eq i s, ?complete⟩, fun s w => irq_eq_false_of_quiet rfl rfl,
    fun s data strb h0 h1 h2 => ?clear, fun s data strb h0 hd => ?mask, irq_eq_true_iff⟩
  case complete => rw [complete_irq, rule_irqEn]
  case clear =>
    rw [State.acknowledge, Status.writeOneToClear_eq, h0, h1, h2]
    exact irq_eq_false_of_quiet (Bool.and_false _) (Bool.and_false _)
  case mask =>
    rw [writeReg_ctrl, if_pos h0, hd]
    exact ⟨Bool.false_and _, rfl⟩

end Sys2Proof.Machine
end

section
/-! PROOFS. Reset, access while BUSY, OVR, and that every command completes (70_reset_and_hazards.md R106-R116).  What
the core agent's turn and a host transaction can do is said once each (`coreStep_cases`, `hostRead_eq`,
`hostWrite_cases`); the statements about every step go through these. -/

namespace Sys2Proof.Machine

/-! ## What a step can do (R40, R94) -/

/-- The core agent's turn changes nothing, in reset or outside BUSY, or it ends the command in flight, which leaves OVR
and what the host does next. -/
theorem coreStep_cases (s : State) :
    (coreStep s = .next s ∧ (s.rst = true ∨ s.inflight = none)) ∨
    ∃ r, coreStep s = .next (complete r) ∧ r.state.pending = s.pending ∧ r.state.status.ovr = s.status.ovr := by
  cases hrst : s.rst with
  | true => exact .inl ⟨by simp [coreStep, hrst], .inl rfl⟩
  | false =>
    cases hf : s.inflight with
    | none => exact .inl ⟨by simp [coreStep, hf], .inr rfl⟩
    | some w =>
      right
      cases hd : decode w with
      | command i =>
        obtain ⟨⟨-, -, -, hovr, -, -, -, hpending⟩, -⟩ := commandsWriteOnlyTheirOwnState i s _ (exec_eq i s)
        rw [complete_ovr] at hovr
        rw [complete_pending] at hpending
        exact ⟨rule i s, (coreStep_command hrst hf hd).trans (exec_eq i s), hpending, hovr⟩
      | illegal v why => exact ⟨.raised s (.illegalCommand v), coreStep_illegal hrst hf hd, rfl, rfl⟩

/-- The core agent's turn leaves OVR and what the host does next. -/
theorem coreStep_frame {s t : State} (h : coreStep s = .next t) :
    t.pending = s.pending ∧ t.status.ovr = s.status.ovr := by
  rcases coreStep_cases s with ⟨e, -⟩ | ⟨r, e, hpending, hovr⟩
  · cases e.symm.trans h; exact ⟨rfl, rfl⟩
  · cases e.symm.trans h; exact ⟨(complete_pending r).trans hpending, (complete_ovr r).trans hovr⟩

/-- A read answers or is lost, and counts the free values it drew (R47, R108). -/
theorem hostRead_eq (s : State) (addr : Word) : ∃ r d, s.hostRead addr = { s with response := r, draws := d } := by
  unfold State.hostRead
  split
  · exact ⟨none, s.draws, rfl⟩
  · obtain ⟨r, d, e⟩ := busRead_eq s addr
    exact ⟨some r, d, e⟩

/-- A write has no effect, is dropped with OVR set, or, outside reset, writes the word its address reaches (R41, R42,
R108, R110). -/
theorem hostWrite_cases (s : State) (addr data : Word) (strb : BitVec 4) :
    ∃ r, s.hostWrite addr data strb = { s with response := r } ∨
      s.hostWrite addr data strb = { s.dropWrite with response := r } ∨
      ∃ t, s.rst = false ∧ busTarget s.params addr = some t ∧
        s.hostWrite addr data strb = { s.writeTarget t data strb with response := r } := by
  unfold State.hostWrite
  split
  · exact ⟨_, .inl rfl⟩ -- in reset
  · rename_i hrst
    unfold State.busWrite
    split
    · exact ⟨_, .inl rfl⟩ -- nothing mapped
    · rename_i t ht
      split
      · exact ⟨_, .inl rfl⟩ -- no lane enabled
      · split
        · exact ⟨_, .inr (.inl rfl)⟩
        · exact ⟨_, .inr (.inr ⟨t, Bool.eq_false_iff.2 hrst, ht, rfl⟩)⟩

/-! ## Every command completes (R94, R116) -/

theorem writeTarget_pending (s : State) (t : Target) (data : Word) (strb : BitVec 4) :
    (s.writeTarget t data strb).pending = s.pending := by
  cases t
  case reg r =>
    cases r
    case ctrl => rw [State.writeTarget, writeReg_ctrl]
    all_goals rfl
  all_goals rfl

/-- No event adds to what comes after it. -/
theorem serve_pending {s t : State} {e : Event} (h : serve s e = .next t) : t.pending = s.pending := by
  cases e with
  | read addr =>
    cases h
    obtain ⟨r, d, e⟩ := hostRead_eq s addr
    rw [e]
  | write addr data strb =>
    cases h
    obtain ⟨r, e | e | ⟨u, -, -, e⟩⟩ := hostWrite_cases s addr data strb
    · rw [e]
    · rw [e]; rfl
    · rw [e]; exact writeTarget_pending s u data strb
  | assertReset => cases h; rfl
  | releaseReset => cases h; rfl
  | coreTurn => exact (coreStep_frame h).1

/-- After the core agent's turn no command is in flight: a turn in reset finds none (R107). -/
theorem StatusConsistent.coreStep_completes {s t : State} (hs : StatusConsistent s) (h : coreStep s = .next t) :
    t.inflight = none := by
  rcases coreStep_cases s with ⟨e, hidle⟩ | ⟨r, e, -⟩
  · cases e.symm.trans h; exact hidle.elim hs.reset id
  · cases e.symm.trans h; exact complete_inflight r

/-- Serving all the host's events, then one turn of the core agent, leaves the block idle. -/
theorem run_completes {evs : List Event} {s : State} (hs : StatusConsistent s) (hp : s.pending = evs) :
    ∃ t, core.run (evs.length + 1) s = .next t ∧ t.inflight = none ∧ t.pending = [] := by
  induction evs generalizing s with
  | nil =>
    obtain ⟨t, ht⟩ := everyStepGivesANextState s
    refine ⟨t, run_succ core ht 0, ?_⟩
    rw [step_nil hp] at ht
    exact ⟨hs.coreStep_completes ht, (coreStep_frame ht).1.trans hp⟩
  | cons e rest ih =>
    obtain ⟨t, ht⟩ := everyStepGivesANextState s
    have hpending : t.pending = rest := by
      rw [step_cons hp] at ht
      exact serve_pending ht
    obtain ⟨u, hrun, hidle⟩ := ih (stepsKeepStatusConsistent s t hs ht) hpending
    exact ⟨u, (run_succ core ht _).trans hrun, hidle⟩

/-- Settles O6, by induction on the pending events. -/
theorem acceptedCommandsComplete : Obligations.AcceptedCommandsComplete :=
  fun _ hs => run_completes hs rfl

/-! ## OVR (R17, R110) -/

/-- Only a register's own address reaches it (R14, R46). -/
theorem address_of_busTarget_reg {p : Params} {addr : Word} {r : Reg} (h : busTarget p addr = some (.reg r)) :
    addr.toNat = p.base + r.offset := by
  unfold busTarget at h
  split at h
  · cases h
  · split at h
    · cases h
    · have := decodeOffset_eq_reg h
      omega

/-- A host write that clears OVR is a write of 1 to its bit of STATUS. -/
theorem clears_ovr_of_writeTarget {s : State} {t : Target} {data : Word} {strb : BitVec 4} (h1 : s.status.ovr = true)
    (h0 : (s.writeTarget t data strb).status.ovr = false) :
    t = .reg .status ∧ strb.getLsbD 0 = true ∧ data.getLsbD 3 = true := by
  have kept (h : (s.writeTarget t data strb).status.ovr = s.status.ovr) : False :=
    Bool.false_ne_true (h0.symm.trans (h.trans h1))
  cases t
  case reg r =>
    cases r
    case status =>
      rw [State.writeTarget, State.writeReg, State.acknowledge, Status.writeOneToClear_eq] at h0
      simpa [h1] using h0
    case ctrl => rw [State.writeTarget, writeReg_ctrl] at kept; exact (kept rfl).elim
    all_goals exact (kept rfl).elim
  all_goals exact (kept rfl).elim

/-- Settles O29, event by event: all but reset and a write leave OVR, and a write clears it in STATUS alone. -/
theorem ovrIsClearedOnlyByTheHostOrReset : Obligations.OvrIsClearedOnlyByTheHostOrReset := by
  intro s t h1 h h0
  have kept (e : t.status.ovr = s.status.ovr) : False := Bool.false_ne_true (h0.symm.trans (e.trans h1))
  cases hp : s.pending with
  | nil =>
    rw [step_nil hp] at h
    exact (kept (coreStep_frame h).2).elim
  | cons e rest =>
    rw [step_cons hp] at h
    cases e with
    | read addr =>
      cases h
      obtain ⟨r, d, e⟩ := hostRead_eq { s with pending := rest } addr
      exact (kept (by rw [e])).elim
    | write addr data strb =>
      cases h
      obtain ⟨r, e | e | ⟨u, hrst, hu, e⟩⟩ := hostWrite_cases { s with pending := rest } addr data strb
      · exact (kept (by rw [e])).elim
      · rw [e] at h0; cases h0
      · rw [e] at h0
        obtain ⟨rfl, hstrb, hdata⟩ := clears_ovr_of_writeTarget (s := { s with pending := rest }) h1 h0
        exact .inr ⟨addr, data, strb, rest, ⟨hrst, hp⟩, address_of_busTarget_reg hu, hstrb, hdata⟩
    | assertReset => exact .inl ⟨rest, rfl⟩
    | releaseReset => cases h; exact (kept rfl).elim
    | coreTurn => exact (kept (coreStep_frame h).2).elim

/-! ## Access while BUSY (R110-R112) -/

/-- Settles O25: an offset other than those of CTRL and STATUS reaches a word that BUSY closes to writes. -/
theorem busyWritesAreDroppedAndSetOvr : Obligations.BusyWritesAreDroppedAndSetOvr := by
  intro s addr data strb rest off hb h0 ha hs
  obtain ⟨t, ht, hd⟩ := ha.target
  refine ⟨fun hctrl hstatus => ?_, ?_⟩
  · have hw : t.writableWhileBusy = false := by
      rw [Bool.eq_false_iff]
      intro hw
      rcases writableWhileBusy_cases hw with rfl | rfl
      · exact hctrl (decodeOffset_eq_reg hd)
      · exact hstatus (decodeOffset_eq_reg hd)
    exact step_write_busy hs ht h0 hb hw
  · rintro rfl
    rw [step_write_idle hs (busTarget_reg .ctrl ha.1) h0 (.inr rfl), State.writeTarget, writeReg_ctrl]
    rfl

/-- While BUSY the host reads ID, CTRL and STATUS alone (R111, R112). -/
theorem readableWhileBusy_cases {t : Target} (h : t.readableWhileBusy = true) :
    t = .reg .id ∨ t = .reg .ctrl ∨ t = .reg .status := by
  cases t
  case reg r =>
    cases r
    case id => exact .inl rfl
    case ctrl => exact .inr (.inl rfl)
    case status => exact .inr (.inr rfl)
    all_goals cases h
  all_goals cases h

/-- A served read answered with a free value because the block is BUSY (R111). -/
theorem step_read_busy {s : State} {addr : Word} {rest : List Event} {t : Target} (h : s.serves (.read addr) rest)
    (ht : busTarget s.params addr = some t) (hb : s.busy = true) (hr : t.readableWhileBusy = false) :
    step s = .next { s.answered rest (.read (Config.freeWord s.draws) .okay) with draws := s.draws + 1 } := by
  have hb' : State.busy { s with pending := rest } = true := hb
  rw [step_read h]
  simp [State.busRead, ht, hb', hr, State.answered]

/-- Settles O26: an offset other than those of ID, CTRL and STATUS reaches a word that BUSY closes to reads. -/
theorem busyReadsReturnAFreeValue : Obligations.BusyReadsReturnAFreeValue := by
  intro s addr rest off hb ha hoff hs
  obtain ⟨t, ht, hd⟩ := ha.target
  have hr : t.readableWhileBusy = false := by
    rw [Bool.eq_false_iff]
    intro hr
    rcases readableWhileBusy_cases hr with rfl | rfl | rfl <;>
      exact hoff (decodeOffset_eq_reg hd ▸ by decide)
  exact step_read_busy hs ht hb hr

/-- Settles O27: STATUS is read as its word, whose fields the status invariant gives. -/
theorem statusWhileBusyReportsNothing : Obligations.StatusWhileBusyReportsNothing := by
  intro s addr rest hc hb ha hs
  obtain ⟨hdone, herr, hcode, -⟩ := hc.busy hb
  obtain ⟨h0, h1, h2, h3, h4, h5⟩ := statusWord_flags s
  refine ⟨s.statusWord, step_read_answers hs (busTarget_reg .status ha) (.inr rfl) rfl, h0.trans hb, h1.trans hdone,
    h2.trans herr, ?_, h3, h4, h5⟩
  rw [statusWord_errCode, hcode]
  rfl

/-! ## Reset (R106-R108) -/

/-- Settles O31: the registers one by one; the tables are the empty ones and the memories hold nothing. -/
theorem resetLeavesTheStatedValues : Obligations.ResetLeavesTheStatedValues := by
  refine ⟨?registers, fun sym => ⟨freqAt_noCounts sym, codeAt_noCodes sym⟩, fun i => nodeAt_noNodes _, rfl, rfl,
    fun _ => ⟨rfl, rfl, rfl, rfl⟩⟩
  case registers => intro r; cases r <;> rfl

/-- Settles O32: the event is served whether or not a command is in flight. -/
theorem assertingResetAbandonsTheCommand : Obligations.AssertingResetAbandonsTheCommand :=
  fun _ _ hp => step_cons hp

/-- Settles O33: with rst asserted a transaction is lost and the core agent takes no step. -/
theorem nothingIsAnsweredDuringReset : Obligations.NothingIsAnsweredDuringReset := by
  intro s rest hrst
  refine ⟨fun addr hp => ?read, fun addr data strb hp => ?write, fun hp => ?turn, fun hp => step_cons hp⟩
  case read => rw [step_cons hp, serve, State.hostRead, if_pos hrst]
  case write => rw [step_cons hp, serve, State.hostWrite, if_pos hrst]
  case turn => rw [step_cons hp, serve, coreStep, if_pos hrst]

/-- Settles O59: reset leaves the memories and the tables empty, and reports nothing. -/
theorem resetMeetsTheInvariants : Obligations.ResetMeetsTheInvariants :=
  ⟨(assertReset_memoriesCanonical State.reset).congr rfl, ⟨nofun, nofun, nofun, fun _ => rfl, Nat.zero_le _⟩,
    tablesConsistent_of_empty rfl⟩

end Sys2Proof.Machine
end
